-- ==== Sys2Proof/Word.lean ====
section
/-! DEFINITION. The word types of the machine and the five operand widths (spec 10_state.md R20, 20_memory.md R51,
45_prefixes.md R175). Widths are counted in bytes and bits only. -/

namespace Sys2Proof

/-- One byte: the unit of memory (R51) and of the instruction stream (R100). -/
abbrev Byte := BitVec 8

/-- `XLEN` (parameter of R7, R20, D1): the width of every register and of a virtual address. It is the one home of the number,
and no field of `Params`, because types depend on it. -/
def XLEN : Nat := 128

/-- The contents of a register, a virtual address or a physical address: `XLEN` bits (R20, R50). `delta%` puts
the number itself into the type, so that arithmetic on words meets a numeral. -/
abbrev Word := BitVec (delta% XLEN)

/-- The operand width `W` of an instruction (R9, R175). `w128` is the width without a prefix byte. -/
inductive Width where
  | w8
  | w16
  | w32
  | w64
  | w128
deriving DecidableEq, Repr

/-- `n = W/8` of R9. -/
def Width.bytes : Width → Nat
  | .w8 => 1
  | .w16 => 2
  | .w32 => 4
  | .w64 => 8
  | .w128 => 16

/-- `W` of R9, in bits. -/
def Width.bits (w : Width) : Nat := 8 * w.bytes

end Sys2Proof
end

