-- ==== Sys2Proof/Syntax.lean ====
section
/-! DEFINITION. The instructions as syntax: one constructor of `Instr` for each row of spec/opcode_table.json.
The first 17 rows are the opcodes 00 to 10 without a prefix byte (`W = 128`, or no width at all); the last four rows are
the prefix bytes 11 to 14, and each of their constructors holds the instruction that the prefix byte stands before
(45_prefixes.md R175: a prefix "applies to all operands of the one instruction the prefix stands before"). -/

namespace Sys2Proof

/-- The registers of Table 1 (10_state.md R20). `gpr k` is `R(k+1)`: the source numbers them from 1 (R21). -/
inductive Reg where
  | gpr (k : Fin 32)
  | sp
  | ip
  | ptp
  | flags
  | eaddr
  | temp
  | clr
deriving DecidableEq, Repr

/-- A register operand byte after decoding (30_encoding.md R103, R104): it names a register, or it is one of the byte
values to which `REGMAP` gives none. The second kind decodes, since R205 puts the check of a register operand after the
fetch of all bytes and after the checks of the operands before it; naming it raises `reserved_register`. -/
inductive RegOperand where
  | named (r : Reg)
  | unassigned (b : Byte)
deriving DecidableEq, Repr

/-- The eleven instructions whose operands have the width `W` (R177: those a prefix may stand before). Address and
immediate fields are kept zero-extended to 128 bits; `WellFormed` says that they fit the field. -/
inductive Sized where
  /-- `MOVE rd, rs`, opcode 00 (R132). -/
  | moveRegReg (rd rs : RegOperand)
  /-- `MOVE rd, [addr]`, opcode 01 (R133). -/
  | moveRegMem (rd : RegOperand) (addr : Word)
  /-- `MOVE rd, [rb + imm]`, opcode 02 (R134). -/
  | moveRegBaseImm (rd rb : RegOperand) (imm : Word)
  /-- `MOVE rd, [rb + ri]`, opcode 03 (R135). -/
  | moveRegBaseIndex (rd rb ri : RegOperand)
  /-- `MOVE [addr], rs`, opcode 04 (R136). -/
  | moveMemReg (addr : Word) (rs : RegOperand)
  /-- `PUSH r`, opcode 05 (R141). -/
  | push (r : RegOperand)
  /-- `POP r`, opcode 06 (R142). -/
  | pop (r : RegOperand)
  /-- `TEST ra, rb`, opcode 0D (R162). -/
  | test (ra rb : RegOperand)
  /-- `XOR ra, rb`, opcode 0E (R163). -/
  | xor (ra rb : RegOperand)
  /-- `SHL ra, count`, opcode 0F (R164). -/
  | shl (ra : RegOperand) (count : Word)
  /-- `COMP ra, imm`, opcode 10 (R170). -/
  | comp (ra : RegOperand) (imm : Word)
deriving DecidableEq, Repr

/-- The instructions: one constructor per row of spec/opcode_table.json, in the table's order. -/
inductive Instr where
  /-- Opcode 00, no prefix: register to register. -/
  | moveRegReg (rd rs : RegOperand)
  /-- Opcode 01, no prefix: memory (absolute) to register. -/
  | moveRegMem (rd : RegOperand) (addr : Word)
  /-- Opcode 02, no prefix: memory (base + immediate) to register. -/
  | moveRegBaseImm (rd rb : RegOperand) (imm : Word)
  /-- Opcode 03, no prefix: memory (base + index) to register. -/
  | moveRegBaseIndex (rd rb ri : RegOperand)
  /-- Opcode 04, no prefix: register to memory (absolute). -/
  | moveMemReg (addr : Word) (rs : RegOperand)
  /-- Opcode 05, no prefix. -/
  | push (r : RegOperand)
  /-- Opcode 06, no prefix. -/
  | pop (r : RegOperand)
  /-- Opcode 07 (R150). -/
  | jie (target : Word)
  /-- Opcode 08 (R151). -/
  | jil (target : Word)
  /-- Opcode 09 (R152). -/
  | jmp (target : Word)
  /-- Opcode 0A (R153). -/
  | jsr (target : Word)
  /-- Opcode 0B (R154). -/
  | rfs
  /-- Opcode 0C (R155). -/
  | u2k
  /-- Opcode 0D, no prefix. -/
  | test (ra rb : RegOperand)
  /-- Opcode 0E, no prefix. -/
  | xor (ra rb : RegOperand)
  /-- Opcode 0F, no prefix. -/
  | shl (ra : RegOperand) (count : Word)
  /-- Opcode 10, no prefix. -/
  | comp (ra : RegOperand) (imm : Word)
  /-- Prefix byte 11 and the instruction it stands before: `W = 8`. -/
  | prefix8 (body : Sized)
  /-- Prefix byte 12 and the instruction it stands before: `W = 16`. -/
  | prefix16 (body : Sized)
  /-- Prefix byte 13 and the instruction it stands before: `W = 32`. -/
  | prefix32 (body : Sized)
  /-- Prefix byte 14 and the instruction it stands before: `W = 64`. -/
  | prefix64 (body : Sized)
deriving DecidableEq, Repr

/-- The instruction that runs `body` at the width `w`: the prefix constructor of `w`, or the plain one at 128 bits. -/
def Instr.ofSized : Width → Sized → Instr
  | .w8, body => .prefix8 body
  | .w16, body => .prefix16 body
  | .w32, body => .prefix32 body
  | .w64, body => .prefix64 body
  | .w128, .moveRegReg rd rs => .moveRegReg rd rs
  | .w128, .moveRegMem rd addr => .moveRegMem rd addr
  | .w128, .moveRegBaseImm rd rb imm => .moveRegBaseImm rd rb imm
  | .w128, .moveRegBaseIndex rd rb ri => .moveRegBaseIndex rd rb ri
  | .w128, .moveMemReg addr rs => .moveMemReg addr rs
  | .w128, .push r => .push r
  | .w128, .pop r => .pop r
  | .w128, .test ra rb => .test ra rb
  | .w128, .xor ra rb => .xor ra rb
  | .w128, .shl ra count => .shl ra count
  | .w128, .comp ra imm => .comp ra imm

end Sys2Proof
end

