-- ==== Sys2Proof/Config.lean ====
section
/-! DEFINITION. What an implementation fixes and what the spec leaves open: the types of the decided parameters of
00_scope.md R7 with the default the spec decided for each (their values in force are `Sys2Proof.Machine.params`), and the
FREE VALUES, opaque constants that no proof can evaluate. The OPEN parameters `PHYS_MEM`, `MMIO_REGIONS` and `U2K_ENTRY`
are plain data of the state (`Sys2Proof.Machine.Platform`), so that a statement about every state holds for all of them. -/

namespace Sys2Proof

/-- `NARROW_WRITE` (R23, D5): what a write of fewer than 128 bits does to the upper bits of a register. -/
inductive NarrowWrite where
  | zero
  | preserve
deriving DecidableEq, Repr

/-- `NARROW_ADDR_EXT` (R131, D6): how a narrow address, base, index or displacement is widened. -/
inductive Extension where
  | zero
  | sign
deriving DecidableEq, Repr

/-- `MEM_FIELD_BYTES` (R105, D7): the size of the address field of a memory operand. -/
inductive MemField where
  | operandWidth
  | full
deriving DecidableEq, Repr

/-- `ENDIAN` (R55, D4). -/
inductive Endian where
  | little
  | big
deriving DecidableEq, Repr

/-- `CLR_UNPRIVILEGED_ACCESS` (R35, D36): what naming CLR at `PL = U` does. -/
inductive ClrAccess where
  | allowed
  | raisesUpe
deriving DecidableEq, Repr

/-- `PTE_LAYOUT` (20_memory.md R66, D19): the size of a page-table entry and the places of its fields. -/
structure PteLayout where
  /-- The bytes of an entry. -/
  bytes : Nat := 8
  red : Nat := 0
  prs : Nat := 1
  wrt : Nat := 2
  pvp : Nat := 3
  nex : Nat := 4
  nltLow : Nat := 5
  nltBits : Nat := 40
  rsvLow : Nat := 45
  rsvBits : Nat := 19
deriving DecidableEq, Repr

/-- `PAGING_SCHEME` (20_memory.md R62, R63, R69, R70, D18, D20): what a paging level means and in which unit an address is
held. -/
structure PagingScheme where
  /-- How many of the `N` levels read no table: level `N` walks `N - 1` tables, and the last level is the page itself. -/
  pageLevels : Nat := 1
  /-- The bits of the offset within a page, which are not translated by a table (R63). -/
  offsetBits : Nat := 12
  /-- The bits of the index into a table (R63). -/
  indexBits : Nat := 9
  /-- NLT counts units of `2^nltShift` bytes: it is a page number (R69). -/
  nltShift : Nat := 12
  /-- PTP counts units of `2^ptpShift` bytes: it is a byte address (R32). -/
  ptpShift : Nat := 0
deriving DecidableEq, Repr

/-- The privilege level `PL` (10_state.md R38, 60_exceptions.md R225). -/
inductive Privilege where
  | unprivileged
  | privileged
deriving DecidableEq, Repr

/-- The table of R104, by rising byte: 00 to 1F name R1 to R32, and 20 to 26 the special registers. -/
def regTable : List (Option Reg) :=
  ((List.finRange 32).map Reg.gpr ++ [Reg.sp, .ip, .ptp, .flags, .eaddr, .temp, .clr]).map some

/-- The decided parameters of 00_scope.md R7, each with the spec's default, but for `XLEN` (Word.lean). -/
structure Params where
  /-- `REGMAP` (R104, D2): entry `b` is the register that the operand byte `b` names; a byte past the list names none. -/
  regMap : List (Option Reg) := regTable
  narrowWrite : NarrowWrite := .zero
  narrowAddrExt : Extension := .zero
  memField : MemField := .operandWidth
  endian : Endian := .little
  /-- `LOGIC_OPS_WRITE_FLAGS` (R161, D14): whether XOR and SHL write ZF, SF and OF. -/
  logicOpsWriteFlags : Bool := true
  /-- `SHL_COUNT_MASKED` (R164, D16): whether SHL reduces its count modulo `W`. -/
  shlCountMasked : Bool := false
  clrUnprivileged : ClrAccess := .allowed
  /-- `FLAG_BITS` (R30, D13). -/
  zfBit : Nat := 0
  sfBit : Nat := 1
  ofBit : Nat := 2
  /-- `CLR_PGL` (R34, D17): the four bits of CLR from this one up hold the paging level. -/
  pglLow : Nat := 0
  /-- `MAX_PGL` (R62): the largest paging level. -/
  maxPgl : Nat := 13
  pte : PteLayout := {}
  paging : PagingScheme := {}
  /-- `RESET_PGL` (R241, D30): the paging level after reset. -/
  resetPgl : Nat := 13
  /-- `RESET_PL` (R242, D30): the privilege level after reset. -/
  resetPl : Privilege := .privileged
deriving DecidableEq, Repr

/-- The three kinds of access of `Translate` (R70, R72). -/
inductive Access where
  | read
  | write
  | exec
deriving DecidableEq, Repr

/-- Which physical read of one instruction this is: the kind of the access it belongs to, the number of the byte of that
access, and the table `Lj` being walked (`level = j`), or `level = 0` for the byte itself. No two reads of one byte of
memory in one instruction have the same event, so a device may answer each of them differently (R85). -/
structure ReadEvent where
  acc : Access
  index : Nat
  level : Nat
deriving DecidableEq, Repr

/-- FREE VALUE: what a byte of physical memory holds that nothing has written, by its address (R240, D40: any value, never
zero). A function of the address alone, since two reads with no write between return one value (R82). Log entry 12. -/
opaque Config.unwrittenByte (pa : Nat) : Byte

/-- FREE VALUE: what a read of a byte in a region of `MMIO_REGIONS` returns, by the draw number of the state, the read and
the address (R85, D34: an unconstrained value). Log entry 13. -/
opaque Config.deviceByte (draw : Nat) (event : ReadEvent) (pa : Nat) : Byte

/-- FREE VALUE: OF after SHL, by the draw number of the state (R164: "OF <- unspecified (any value)"). Log entry 14. -/
opaque Config.shlOverflow (draw : Nat) : Bool

/-- FREE VALUE: EADDR after an instruction, by the draw number of the state (R36: unspecified, any value). Log entry 15. -/
opaque Config.eaddrAfter (draw : Nat) : Word

/-- FREE VALUE: TEMP after an instruction other than TEST and COMP, by the draw number of the state (R37). Log entry 15. -/
opaque Config.tempAfter (draw : Nat) : Word

/-- FREE VALUE: the address `U2K_ENTRY` that `State.reset` carries (R7: OPEN; R155). Log entry 9. -/
opaque Config.u2kEntry : Word

end Sys2Proof
end

