-- ==== Sys2Proof/Machine/Params.lean ====
section
/-! DEFINITION. The decided parameters in force, the defaults the spec decided (00_scope.md R7), and `REGMAP` read both ways.
They stand here, and not in Config.lean, so that a repair may change a parameter. -/

namespace Sys2Proof.Machine

/-- The parameters of R7 at the values the spec decided. -/
def params : Params := {}

/-- The register a register operand byte names, if any (R104, parameter `REGMAP`). -/
def regMap (b : Byte) : Option Reg := (params.regMap[b.toNat]?).join

/-- The first byte that names a register: `REGMAP` read backwards. The table of R104 names every register. -/
def regByte (r : Reg) : Byte := BitVec.ofNat 8 (params.regMap.findIdx fun e => decide (e = some r))

end Sys2Proof.Machine
end

