-- ==== Sys2Proof/Machine/Bytes.lean ====
section
/-! DEFINITION. Byte order (20_memory.md R55) and bit fields (00_scope.md R8): the helpers that the decoder and the machine
share. -/

namespace Sys2Proof.Machine

/-- The number whose bytes are `bs`, the first the least significant. -/
def leNat : List Byte → Nat
  | [] => 0
  | b :: bs => b.toNat + 256 * leNat bs

/-- The low `n` bytes of a number, the least significant first. -/
def leBytes : Nat → Nat → List Byte
  | 0, _ => []
  | n + 1, v => BitVec.ofNat 8 v :: leBytes n (v / 256)

/-- Bytes in the order in which they lie in memory, put least significant first: R55's byte order and its alternative. -/
def byteOrder (bs : List Byte) : List Byte :=
  match params.endian with
  | .little => bs
  | .big => bs.reverse

/-- The value of bytes that lie at rising addresses (R55). -/
def fromBytes (bs : List Byte) : Word := BitVec.ofNat _ (leNat (byteOrder bs))

/-- The low `8n` bits of a value as the `n` bytes at rising addresses (R55). -/
def toBytes (n : Nat) (v : Word) : List Byte := byteOrder (leBytes n v.toNat)

/-- `v[low+len-1 : low]` of R8, zero-extended. -/
def bitField (v : Word) (low len : Nat) : Word := (v.extractLsb' low len).setWidth _

/-- `zext_128(trunc_W(v))` of R10. -/
def trunc (w : Width) (v : Word) : Word := (v.setWidth w.bits).setWidth _

/-- `sext_128(trunc_W(v))` of R10. -/
def truncSigned (w : Width) (v : Word) : Word := (v.setWidth w.bits).signExtend _

/-- `v[W-1]`, the top bit of a `W`-bit value (R161). -/
def topBit (w : Width) (v : Word) : Bool := v.getLsbD (w.bits - 1)

/-- The value with bit `k` set to `b`. -/
def setBit (v : Word) (k : Nat) (b : Bool) : Word :=
  if b then v ||| BitVec.twoPow _ k else v &&& ~~~ BitVec.twoPow _ k

end Sys2Proof.Machine
end

