-- ==== Sys2Proof/WellFormed.lean ====
section
/-! DEFINITION. Which instructions an encoding can stand for: a register operand byte that names no register is one of
`REGMAP`'s unassigned bytes, and an address or immediate field fits the bytes it has (30_encoding.md R104 to R106). -/

namespace Sys2Proof

/-- The bytes of the address field of a memory operand (R105, parameter `MEM_FIELD_BYTES`). -/
def addressBytes (w : Width) : Nat :=
  match Machine.params.memField with
  | .operandWidth => w.bytes
  | .full => 16

/-- An unassigned register byte is one to which `REGMAP` gives no register: 27 to FF (R104). -/
def RegOperand.wf : RegOperand → Bool
  | .named _ => true
  | .unassigned b => (Machine.regMap b).isNone

/-- The value fits a field of `n` bytes. -/
def fitsBytes (n : Nat) (v : Word) : Bool := decide (v.toNat < 2 ^ (8 * n))

/-- The checks of an instruction whose operands have the width `w`. -/
def Sized.wf (w : Width) : Sized → Bool
  | .moveRegReg rd rs => rd.wf && rs.wf
  | .moveRegMem rd addr => rd.wf && fitsBytes (addressBytes w) addr
  | .moveRegBaseImm rd rb imm => rd.wf && rb.wf && fitsBytes w.bytes imm
  | .moveRegBaseIndex rd rb ri => rd.wf && rb.wf && ri.wf
  | .moveMemReg addr rs => fitsBytes (addressBytes w) addr && rs.wf
  | .push r => r.wf
  | .pop r => r.wf
  | .test ra rb => ra.wf && rb.wf
  | .xor ra rb => ra.wf && rb.wf
  | .shl ra count => ra.wf && fitsBytes w.bytes count
  | .comp ra imm => ra.wf && fitsBytes w.bytes imm

/-- The checks of an instruction. -/
def Instr.wf : Instr → Bool
  | .moveRegReg rd rs => Sized.wf .w128 (.moveRegReg rd rs)
  | .moveRegMem rd addr => Sized.wf .w128 (.moveRegMem rd addr)
  | .moveRegBaseImm rd rb imm => Sized.wf .w128 (.moveRegBaseImm rd rb imm)
  | .moveRegBaseIndex rd rb ri => Sized.wf .w128 (.moveRegBaseIndex rd rb ri)
  | .moveMemReg addr rs => Sized.wf .w128 (.moveMemReg addr rs)
  | .push r => Sized.wf .w128 (.push r)
  | .pop r => Sized.wf .w128 (.pop r)
  | .jie _ => true
  | .jil _ => true
  | .jmp _ => true
  | .jsr _ => true
  | .rfs => true
  | .u2k => true
  | .test ra rb => Sized.wf .w128 (.test ra rb)
  | .xor ra rb => Sized.wf .w128 (.xor ra rb)
  | .shl ra count => Sized.wf .w128 (.shl ra count)
  | .comp ra imm => Sized.wf .w128 (.comp ra imm)
  | .prefix8 body => Sized.wf .w8 body
  | .prefix16 body => Sized.wf .w16 body
  | .prefix32 body => Sized.wf .w32 body
  | .prefix64 body => Sized.wf .w64 body

/-- The instruction passes every check. -/
abbrev Instr.WellFormed (i : Instr) : Prop := i.wf = true

end Sys2Proof
end

