-- ==== Sys2Proof/Decode.lean ====
section
/-! DEFINITION. Decoding and encoding (spec 30_encoding.md R100 to R119, 45_prefixes.md R175 to R178): register operand
bytes by `REGMAP` (Machine/Params.lean), the opcode map, the nine formats, a decoder that is total on any bytes and rejects by
name, and the encoder written from the same tables. The checks of `reg(b)` that depend on the privilege level are the
machine's (Machine/Operands.lean). -/

namespace Sys2Proof

open Sys2Proof.Machine

/-! ### Register operands -/

/-- A register operand byte, decoded. -/
def RegOperand.ofByte (b : Byte) : RegOperand :=
  match regMap b with
  | some r => .named r
  | none => .unassigned b

/-- The byte of a register operand. -/
def RegOperand.toByte : RegOperand → Byte
  | .named r => regByte r
  | .unassigned b => b

/-! ### Opcodes and formats -/

/-- The 17 opcodes of the map of R109. -/
inductive Opcode where
  | moveRegReg
  | moveRegMem
  | moveRegBaseImm
  | moveRegBaseIndex
  | moveMemReg
  | push
  | pop
  | jie
  | jil
  | jmp
  | jsr
  | rfs
  | u2k
  | test
  | xor
  | shl
  | comp
deriving DecidableEq, Repr

/-- The opcode map of R109; the bytes 15 to FF are assigned to nothing (R110). -/
def Opcode.ofByte (b : Byte) : Option Opcode :=
  match b.toNat with
  | 0x00 => some .moveRegReg
  | 0x01 => some .moveRegMem
  | 0x02 => some .moveRegBaseImm
  | 0x03 => some .moveRegBaseIndex
  | 0x04 => some .moveMemReg
  | 0x05 => some .push
  | 0x06 => some .pop
  | 0x07 => some .jie
  | 0x08 => some .jil
  | 0x09 => some .jmp
  | 0x0A => some .jsr
  | 0x0B => some .rfs
  | 0x0C => some .u2k
  | 0x0D => some .test
  | 0x0E => some .xor
  | 0x0F => some .shl
  | 0x10 => some .comp
  | _ => none

/-- The byte of an opcode (R109). -/
def Opcode.toByte : Opcode → Byte
  | .moveRegReg => 0x00
  | .moveRegMem => 0x01
  | .moveRegBaseImm => 0x02
  | .moveRegBaseIndex => 0x03
  | .moveMemReg => 0x04
  | .push => 0x05
  | .pop => 0x06
  | .jie => 0x07
  | .jil => 0x08
  | .jmp => 0x09
  | .jsr => 0x0A
  | .rfs => 0x0B
  | .u2k => 0x0C
  | .test => 0x0D
  | .xor => 0x0E
  | .shl => 0x0F
  | .comp => 0x10

/-- The nine formats of R115. -/
inductive Format where
  | n
  | r
  | rr
  | rm
  | rri
  | rrr
  | mr
  | ri
  | j
deriving DecidableEq, Repr

/-- The format of an opcode (R109, R115). -/
def Opcode.format : Opcode → Format
  | .moveRegReg => .rr
  | .moveRegMem => .rm
  | .moveRegBaseImm => .rri
  | .moveRegBaseIndex => .rrr
  | .moveMemReg => .mr
  | .push => .r
  | .pop => .r
  | .jie => .j
  | .jil => .j
  | .jmp => .j
  | .jsr => .j
  | .rfs => .n
  | .u2k => .n
  | .test => .rr
  | .xor => .rr
  | .shl => .ri
  | .comp => .ri

/-- The bytes after the opcode (R115); the target of format `J` has 16 whatever the width (R108). -/
def Format.operandBytes (w : Width) : Format → Nat
  | .n => 0
  | .r => 1
  | .rr => 2
  | .rm => 1 + addressBytes w
  | .rri => 2 + w.bytes
  | .rrr => 3
  | .mr => addressBytes w + 1
  | .ri => 1 + w.bytes
  | .j => 16

/-- The prefix byte of a width (R175): none selects 128 bits. -/
def prefixBytes : Width → List Byte
  | .w8 => [0x11]
  | .w16 => [0x12]
  | .w32 => [0x13]
  | .w64 => [0x14]
  | .w128 => []

/-- The width a prefix byte selects, or `none` when the byte is no prefix (R101, R175). -/
def prefixWidth (b : Byte) : Option Width :=
  match b.toNat with
  | 0x11 => some .w8
  | 0x12 => some .w16
  | 0x13 => some .w32
  | 0x14 => some .w64
  | _ => none

/-- `len` of R108 for an instruction of this width and format. -/
def lengthOf (w : Width) (f : Format) : Nat := (prefixBytes w).length + 1 + f.operandBytes w

/-! ### Decoding -/

/-- Why bytes are no instruction. -/
inductive DecodeError where
  /-- The list ends before the instruction does. The machine never meets this: it fetches what it needs. -/
  | truncated
  /-- R110: an opcode byte 15 to FF. -/
  | undefinedOpcode (b : Byte)
  /-- R113: a prefix byte after a prefix byte. -/
  | doublePrefix (b : Byte)
  /-- R111: a prefix before an instruction without operands, the interrupt #IPO. -/
  | invalidPrefixOpcode (b : Byte)
  /-- R112: a prefix before JIE, JIL, JMP or JSR. -/
  | prefixOnFixedWidth (b : Byte)
deriving DecidableEq, Repr

/-- The part of R119 between the opcode byte and the operand bytes, in R205's order. `w` is the width the prefix gave,
128 bits without one. -/
def decodeOpcode (w : Width) (b : Byte) : Except DecodeError Opcode :=
  if (prefixWidth b).isSome then .error (.doublePrefix b)
  else
    match Opcode.ofByte b with
    | none => .error (.undefinedOpcode b)
    | some op =>
      if w = .w128 then .ok op
      else if op.format = .n then .error (.invalidPrefixOpcode b)
      else if op.format = .j then .error (.prefixOnFixedWidth b)
      else .ok op

/-- The register operand at an offset of the operand bytes. -/
def regAt (bs : List Byte) (off : Nat) : RegOperand := RegOperand.ofByte (bs.getD off 0)

/-- The address or immediate field of `n` bytes at an offset of the operand bytes (R105, R106). -/
def fieldAt (bs : List Byte) (off n : Nat) : Word := fromBytes ((bs.drop off).take n)

/-- The operand bytes split into fields by R115, in the order of R107. -/
def decodeOperands (w : Width) (op : Opcode) (bs : List Byte) : Instr :=
  match op with
  | .moveRegReg => .ofSized w (.moveRegReg (regAt bs 0) (regAt bs 1))
  | .moveRegMem => .ofSized w (.moveRegMem (regAt bs 0) (fieldAt bs 1 (addressBytes w)))
  | .moveRegBaseImm => .ofSized w (.moveRegBaseImm (regAt bs 0) (regAt bs 1) (fieldAt bs 2 w.bytes))
  | .moveRegBaseIndex => .ofSized w (.moveRegBaseIndex (regAt bs 0) (regAt bs 1) (regAt bs 2))
  | .moveMemReg => .ofSized w (.moveMemReg (fieldAt bs 0 (addressBytes w)) (regAt bs (addressBytes w)))
  | .push => .ofSized w (.push (regAt bs 0))
  | .pop => .ofSized w (.pop (regAt bs 0))
  | .jie => .jie (fieldAt bs 0 16)
  | .jil => .jil (fieldAt bs 0 16)
  | .jmp => .jmp (fieldAt bs 0 16)
  | .jsr => .jsr (fieldAt bs 0 16)
  | .rfs => .rfs
  | .u2k => .u2k
  | .test => .ofSized w (.test (regAt bs 0) (regAt bs 1))
  | .xor => .ofSized w (.xor (regAt bs 0) (regAt bs 1))
  | .shl => .ofSized w (.shl (regAt bs 0) (fieldAt bs 1 w.bytes))
  | .comp => .ofSized w (.comp (regAt bs 0) (fieldAt bs 1 w.bytes))

/-- The instruction whose opcode byte is `b`, with the bytes after it, and the bytes it leaves. -/
def decodeFrom (w : Width) (b : Byte) (bs : List Byte) : Except DecodeError (Instr × List Byte) :=
  match decodeOpcode w b with
  | .error e => .error e
  | .ok op =>
    let n := op.format.operandBytes w
    if bs.length < n then .error .truncated else .ok (decodeOperands w op (bs.take n), bs.drop n)

/-- R119 on a list of bytes: the first instruction and the bytes after it. -/
def decode : List Byte → Except DecodeError (Instr × List Byte)
  | [] => .error .truncated
  | b0 :: bs =>
    match prefixWidth b0, bs with
    | none, _ => decodeFrom .w128 b0 bs
    | some _, [] => .error .truncated
    | some w, b1 :: bs' => decodeFrom w b1 bs'

/-! ### Encoding -/

/-- The bytes of an instruction with operands of the width `w` (R100, R107, R115). -/
def encodeSized (w : Width) (body : Sized) : List Byte :=
  prefixBytes w ++
  match body with
  | .moveRegReg rd rs => [Opcode.moveRegReg.toByte, rd.toByte, rs.toByte]
  | .moveRegMem rd addr => [Opcode.moveRegMem.toByte, rd.toByte] ++ toBytes (addressBytes w) addr
  | .moveRegBaseImm rd rb imm => [Opcode.moveRegBaseImm.toByte, rd.toByte, rb.toByte] ++ toBytes w.bytes imm
  | .moveRegBaseIndex rd rb ri => [Opcode.moveRegBaseIndex.toByte, rd.toByte, rb.toByte, ri.toByte]
  | .moveMemReg addr rs => [Opcode.moveMemReg.toByte] ++ toBytes (addressBytes w) addr ++ [rs.toByte]
  | .push r => [Opcode.push.toByte, r.toByte]
  | .pop r => [Opcode.pop.toByte, r.toByte]
  | .test ra rb => [Opcode.test.toByte, ra.toByte, rb.toByte]
  | .xor ra rb => [Opcode.xor.toByte, ra.toByte, rb.toByte]
  | .shl ra count => [Opcode.shl.toByte, ra.toByte] ++ toBytes w.bytes count
  | .comp ra imm => [Opcode.comp.toByte, ra.toByte] ++ toBytes w.bytes imm

/-- The bytes of an instruction, the lowest address first. -/
def encode : Instr → List Byte
  | .moveRegReg rd rs => encodeSized .w128 (.moveRegReg rd rs)
  | .moveRegMem rd addr => encodeSized .w128 (.moveRegMem rd addr)
  | .moveRegBaseImm rd rb imm => encodeSized .w128 (.moveRegBaseImm rd rb imm)
  | .moveRegBaseIndex rd rb ri => encodeSized .w128 (.moveRegBaseIndex rd rb ri)
  | .moveMemReg addr rs => encodeSized .w128 (.moveMemReg addr rs)
  | .push r => encodeSized .w128 (.push r)
  | .pop r => encodeSized .w128 (.pop r)
  | .jie target => Opcode.jie.toByte :: toBytes 16 target
  | .jil target => Opcode.jil.toByte :: toBytes 16 target
  | .jmp target => Opcode.jmp.toByte :: toBytes 16 target
  | .jsr target => Opcode.jsr.toByte :: toBytes 16 target
  | .rfs => [Opcode.rfs.toByte]
  | .u2k => [Opcode.u2k.toByte]
  | .test ra rb => encodeSized .w128 (.test ra rb)
  | .xor ra rb => encodeSized .w128 (.xor ra rb)
  | .shl ra count => encodeSized .w128 (.shl ra count)
  | .comp ra imm => encodeSized .w128 (.comp ra imm)
  | .prefix8 body => encodeSized .w8 body
  | .prefix16 body => encodeSized .w16 body
  | .prefix32 body => encodeSized .w32 body
  | .prefix64 body => encodeSized .w64 body

/-- The format of an instruction whose operands have a width. -/
def Sized.format : Sized → Format
  | .moveRegReg _ _ => .rr
  | .moveRegMem _ _ => .rm
  | .moveRegBaseImm _ _ _ => .rri
  | .moveRegBaseIndex _ _ _ => .rrr
  | .moveMemReg _ _ => .mr
  | .push _ => .r
  | .pop _ => .r
  | .test _ _ => .rr
  | .xor _ _ => .rr
  | .shl _ _ => .ri
  | .comp _ _ => .ri

/-- `len` of R108, with the prefix byte where there is one. -/
def Instr.length : Instr → Nat
  | .moveRegReg _ _ => lengthOf .w128 .rr
  | .moveRegMem _ _ => lengthOf .w128 .rm
  | .moveRegBaseImm _ _ _ => lengthOf .w128 .rri
  | .moveRegBaseIndex _ _ _ => lengthOf .w128 .rrr
  | .moveMemReg _ _ => lengthOf .w128 .mr
  | .push _ => lengthOf .w128 .r
  | .pop _ => lengthOf .w128 .r
  | .jie _ => lengthOf .w128 .j
  | .jil _ => lengthOf .w128 .j
  | .jmp _ => lengthOf .w128 .j
  | .jsr _ => lengthOf .w128 .j
  | .rfs => lengthOf .w128 .n
  | .u2k => lengthOf .w128 .n
  | .test _ _ => lengthOf .w128 .rr
  | .xor _ _ => lengthOf .w128 .rr
  | .shl _ _ => lengthOf .w128 .ri
  | .comp _ _ => lengthOf .w128 .ri
  | .prefix8 body => lengthOf .w8 body.format
  | .prefix16 body => lengthOf .w16 body.format
  | .prefix32 body => lengthOf .w32 body.format
  | .prefix64 body => lengthOf .w64 body.format

/-! ### The opcode table's numbering -/

/-- The bytes of the longest instruction (R108). -/
def longestInstr : Nat := 19

/-- An instruction given as the number `w` of `nbits` bits, byte 0 the least significant, as the bytes of the longest
instruction: every bit from `nbits` up is 0. The stream is made of bytes, so the byte order of data plays no part. -/
def tableBytes (nbits w : Nat) : List Byte := leBytes longestInstr (w % 2 ^ nbits)

/-- The instruction that the decoder reads from a word of the opcode table, or `none` where it rejects it. -/
def decodeTableWord (nbits w : Nat) : Option Instr :=
  match decode (tableBytes nbits w) with
  | .ok (i, _) => some i
  | .error _ => none

end Sys2Proof
end

