-- ==== Sys2Proof/Machine/State.lean ====
section
/-! DEFINITION. The state of the machine as plain data, the reasons a step can stop, and the state after reset
(spec 10_state.md, 20_memory.md R52 and R85, 60_exceptions.md R200 and R202, 70_reset_and_hazards.md R240 to R243). -/

namespace Sys2Proof.Machine

/-- A range of physical byte addresses: `size` of them from `base` up. -/
structure Region where
  base : Nat
  size : Nat
deriving DecidableEq, Repr

/-- The OPEN parameters of 00_scope.md R7 that an instruction can depend on, given with the start state (R243). No
instruction changes them. -/
structure Platform where
  /-- `PHYS_MEM` (R52): the physical addresses that hold memory, as a union of ranges. -/
  physMem : List Region
  /-- `MMIO_REGIONS` (R85): the ranges in which devices read and write. -/
  mmioRegions : List Region
  /-- `U2K_ENTRY` (R155); `none` when the platform gives no elevated program. -/
  u2kEntry : Option Word
deriving DecidableEq, Repr

/-- The written bytes of physical memory, addresses strictly rising. A byte that is not listed has no value yet
(`Memory.unlisted`), and reading it in the machine gives a free value. -/
abbrev Memory := List Host.Cell

/-- Why an encoding is illegal (R202). -/
inductive EncodingFault where
  /-- R110: opcode byte 15 to FF. -/
  | undefinedOpcode
  /-- R113: a prefix byte after a prefix byte. -/
  | doublePrefix
  /-- R112: a prefix byte before JIE, JIL, JMP or JSR. -/
  | prefixOnFixedWidth
  /-- R104: a register operand byte 27 to FF. -/
  | reservedRegister
  /-- R104: a privileged program names EADDR or TEMP. -/
  | inaccessibleRegister
deriving DecidableEq, Repr

/-- The field that would take a reserved value (R34). -/
inductive ReservedField where
  | clrPgl
deriving DecidableEq, Repr

/-- The interrupts the source names (R200) and the faults the spec adds (R202). Each is terminal and changes no state
(R210). The `va`, `pa`, byte and register are for diagnosis only (R201). -/
inductive Fault where
  /-- #IPO, raised by the decoder: a prefix byte before RFS or U2K (R111). Safe: the real machine would run a handler. -/
  | ipo (opcode : Byte)
  /-- #UPE, raised by `reg(b)`: an unprivileged program names PTP, SP, IP, FLAGS, EADDR or TEMP (R104). Safe, as `ipo`. -/
  | upe (r : Reg)
  /-- #NCC, raised by `Translate`: a non-canonical virtual address (R64). Safe, as `ipo`. -/
  | ncc (va : Word)
  /-- #NPP, raised by `Translate`: an entry with PRS = 0 (R68). Safe, as `ipo`. -/
  | npp (va : Word)
  /-- #NZR, raised by `Translate`: an entry with RSV not 0 (R68). Safe, as `ipo`. -/
  | nzr (va : Word)
  /-- #NNL, raised by `Translate`: an entry with NLT = 0 (R68). Safe, as `ipo`. -/
  | nnl (va : Word)
  /-- #UPP, raised by `Translate`: an unprivileged access through an entry with PVP = 1 (R68). Safe, as `ipo`. -/
  | upp (va : Word)
  /-- #URP, raised by `Translate`: a data read through an entry with RED = 0 (R68). Safe, as `ipo`. -/
  | urp (va : Word)
  /-- #UWP, raised by `Translate`: a data write through an entry with WRT = 0 (R68). Safe, as `ipo`. -/
  | uwp (va : Word)
  /-- #NEP, raised by `Translate`: a fetch through an entry with NEX = 1 (R68). Safe, as `ipo`. -/
  | nep (va : Word)
  /-- `IllegalEncoding`, raised by the decoder and by `reg(b)` (R202). Safe: the source gives the encoding no effect. -/
  | illegalEncoding (reason : EncodingFault)
  /-- `ReservedValue`, raised by a write of a reserved paging level to CLR (R34), and by `Translate` in a state whose CLR
  holds one, which no run reaches. Safe: the source gives the value no effect. -/
  | reservedValue (field : ReservedField)
  /-- `PhysicalAccessFault`, raised by a physical read or write outside `PHYS_MEM` (R52). Safe: the source gives the
  access no effect. -/
  | physicalAccessFault (pa : Word)
deriving DecidableEq, Repr

/-- Why the model has no step. -/
inductive Refusal where
  /-- Raised by an arm of `exec` whose instruction has no meaning yet. Safe: nothing is claimed of it. -/
  | notModelled (mnemonic : String)
  /-- Raised by U2K when the platform gives no `U2K_ENTRY` (R155: "it must refuse U2K ... and not pick an address").
  Safe: nothing is claimed of it. -/
  | noU2kEntry
deriving DecidableEq, Repr

/-- Everything the spec gives the machine. `platform` is given with the start state and `draws` is the model's own. -/
structure State where
  /-- R1 to R32 (R21); index `k` holds `R(k+1)`. -/
  gpr : Vector Word 32
  /-- The stack pointer (R24). -/
  sp : Word
  /-- The program counter (R25). -/
  ip : Word
  /-- The page-table pointer (R32). -/
  ptp : Word
  /-- The flags register, all 128 bits (R29, R30). -/
  flags : Word
  /-- The control register; bits 3:0 hold the paging level (R33 to R35). -/
  clr : Word
  /-- The MMU's input, which no instruction can name (R36). -/
  eaddr : Word
  /-- The target of TEST and COMP, which no instruction can name (R37). -/
  temp : Word
  /-- The privilege level (R38). -/
  pl : Privilege
  /-- Physical memory (R52). -/
  mem : Memory
  /-- `PHYS_MEM`, `MMIO_REGIONS` and `U2K_ENTRY` (R7). -/
  platform : Platform
  /-- The model's own: how many steps have drawn free values. -/
  draws : Nat
deriving DecidableEq, Repr

/-- The state right after reset. The spec states CLR.PGL = 13 (R241, parameter
`RESET_PGL`), `PL` = privileged (R242, parameter `RESET_PL`) and no MMIO region (R85);
every other value is one the assumption log names (entries 1 to 11). -/
def State.reset : State where
  gpr := Vector.replicate 32 0
  sp := 0
  ip := 0
  ptp := 0
  flags := 0
  clr := BitVec.ofNat _ params.resetPgl <<< params.pglLow
  eaddr := 0
  temp := 0
  pl := params.resetPl
  mem := []
  platform :=
    { physMem := [{ base := 0, size := 2 ^ delta% XLEN }]
      mmioRegions := []
      u2kEntry := some Config.u2kEntry }
  draws := 0

end Sys2Proof.Machine
end

