-- ==== Sys2Proof/Machine/Memory.lean ====
section
/-! DEFINITION. Physical memory as the partial map of 20_memory.md R52: the written bytes, by rising address. -/

namespace Sys2Proof.Machine

/-- What an address that is not listed reads as: no value. The spec gives a byte that nothing has written "any value" and
"never zero" (R240, D40), so the map holds none; `physByte` answers a free value for it. Log entry 12. -/
def Memory.unlisted : Option Byte := none

/-- The value last written to an address. -/
def Memory.lookup : Memory → Nat → Option Byte
  | [], _ => Memory.unlisted
  | (a, b) :: m, pa => if a = pa then some b else Memory.lookup m pa

/-- The map with one byte written, in its canonical form. -/
def Memory.store : Memory → Nat → Byte → Memory
  | [], pa, v => [(pa, v)]
  | (a, b) :: m, pa, v =>
    if pa < a then (pa, v) :: (a, b) :: m
    else if pa = a then (pa, v) :: m
    else (a, b) :: Memory.store m pa v

/-- The map with bytes written at addresses, one after another. -/
def Memory.storeAll : Memory → List Word → List Byte → Memory
  | m, pa :: pas, v :: vs => Memory.storeAll (Memory.store m pa.toNat v) pas vs
  | m, [], _ => m
  | m, _ :: _, [] => m

/-- Every address of the list is above `low` and rises from one entry to the next, and is a physical address. -/
def Memory.risingFrom : Option Nat → Memory → Bool
  | _, [] => true
  | none, (a, _) :: m => decide (a < 2 ^ delta% XLEN) && Memory.risingFrom (some a) m
  | some low, (a, _) :: m => decide (low < a) && decide (a < 2 ^ delta% XLEN) && Memory.risingFrom (some a) m

/-- The canonical form: strictly rising physical addresses. An unlisted address has no value, so no entry can equal what
an unlisted address reads as. -/
def Memory.wf (m : Memory) : Bool := Memory.risingFrom none m

/-- The range holds the address. -/
def Region.contains (r : Region) (pa : Nat) : Bool := decide (r.base ≤ pa) && decide (pa < r.base + r.size)

/-- The address is in `PHYS_MEM` (R52). -/
def State.inPhysMem (s : State) (pa : Word) : Bool := s.platform.physMem.any fun r => r.contains pa.toNat

/-- The address is in a region of `MMIO_REGIONS` (R85). -/
def State.inMmio (s : State) (pa : Word) : Bool := s.platform.mmioRegions.any fun r => r.contains pa.toNat

end Sys2Proof.Machine
end

