-- ==== Sys2Proof/Machine/Ops.lean ====
section
/-! DEFINITION. The named operations over registers and memory: the register file, raising an interrupt, physical memory,
address translation (20_memory.md R60 to R74), the three access primitives (R56 to R58), the stack (41_stack.md R140) and
the end of an instruction (10_state.md R27). -/

namespace Sys2Proof.Machine

/-! ### Raising an interrupt -/

/-- TAKING AN EXCEPTION (60_exceptions.md R210, R13): raising any interrupt or fault is terminal; the instruction changes
no register, no flag, no memory byte, not SP, not `PL` and not `pc`, and the machine has no next step. The spec forbids a
vector, a handler address, a saved-state layout and a cause register, and gives no return from an interrupt (R211). -/
def raise (f : Fault) : Host.Outcome State Fault Refusal := .fault f

/-- The outcome of an instruction that either raises one fault or ends in a state. -/
def outcome : Except Fault State → Host.Outcome State Fault Refusal
  | .ok t => .next t
  | .error f => raise f

/-! ### Updates of one field -/

def State.withGpr (s : State) (k : Fin 32) (v : Word) : State := { s with gpr := s.gpr.set k v }
def State.withSp (s : State) (v : Word) : State := { s with sp := v }
def State.withIp (s : State) (v : Word) : State := { s with ip := v }
def State.withPtp (s : State) (v : Word) : State := { s with ptp := v }
def State.withFlags (s : State) (v : Word) : State := { s with flags := v }
def State.withClr (s : State) (v : Word) : State := { s with clr := v }
def State.withEaddr (s : State) (v : Word) : State := { s with eaddr := v }
def State.withTemp (s : State) (v : Word) : State := { s with temp := v }
def State.withPl (s : State) (p : Privilege) : State := { s with pl := p }
def State.withMem (s : State) (m : Memory) : State := { s with mem := m }

/-! ### The register file -/

/-- `x[r]` of R11. While an instruction executes, IP holds the address of its first byte (R26). -/
def State.read (s : State) : Reg → Word
  | .gpr k => s.gpr[k]
  | .sp => s.sp
  | .ip => s.ip
  | .ptp => s.ptp
  | .flags => s.flags
  | .eaddr => s.eaddr
  | .temp => s.temp
  | .clr => s.clr

/-- `x[r] <- v` of R11: all 128 bits. -/
def State.write (s : State) : Reg → Word → State
  | .gpr k, v => s.withGpr k v
  | .sp, v => s.withSp v
  | .ip, v => s.withIp v
  | .ptp, v => s.withPtp v
  | .flags, v => s.withFlags v
  | .eaddr, v => s.withEaddr v
  | .temp, v => s.withTemp v
  | .clr, v => s.withClr v

/-- The paging level in a value of CLR: CLR[3:0] (R34). -/
def pglOf (clr : Word) : Nat := (bitField clr params.pglLow 4).toNat

/-! ### Physical memory -/

/-- One byte of physical memory, as read event `ev` of the instruction finds it: a free value in an MMIO region (R85), the
byte last written elsewhere (R90), and a free value where nothing was written (R240). -/
def State.physByte (s : State) (ev : ReadEvent) (pa : Word) : Byte :=
  if s.inMmio pa then Config.deviceByte s.draws ev pa.toNat
  else (s.mem.lookup pa.toNat).getD (Config.unwrittenByte pa.toNat)

/-- The addresses `pa, pa+1, ..., pa+n-1` modulo `2^128`. -/
def addressesFrom (pa : Word) : Nat → List Word
  | 0 => []
  | n + 1 => pa :: addressesFrom (pa + 1) n

/-- `PhysRead(pa, n)` of R52 for the read event `ev`. -/
def physRead (s : State) (ev : ReadEvent) (pa : Word) (n : Nat) : Except Fault Word :=
  if (addressesFrom pa n).all s.inPhysMem then .ok (fromBytes ((addressesFrom pa n).map (s.physByte ev)))
  else .error (.physicalAccessFault pa)

/-! ### The MMU -/

/-- The tables that a walk at paging level `N` reads: `N - 1` (R62, parameter `PAGING_SCHEME`). -/
def tablesWalked (level : Nat) : Nat := level - params.paging.pageLevels

/-- `U = 12 + 9*(N-1)`, the translated bits of a virtual address at paging level `N` from 1 to 13 (R62). -/
def translatedBits (level : Nat) : Nat := params.paging.offsetBits + params.paging.indexBits * tablesWalked level

/-- The canonical check of R64: the bits from `U` up all copy bit `U-1`. -/
def canonical (level : Nat) (va : Word) : Bool :=
  decide ((va.setWidth (translatedBits level)).signExtend _ = va)

/-- The index into the table `L(m+2)`: `va[12+9*(j-1)-1 : 12+9*(j-2)]` of R63 with `j = m+2`. -/
def tableIndex (m : Nat) (va : Word) : Word :=
  bitField va (params.paging.offsetBits + params.paging.indexBits * m) params.paging.indexBits

/-- `va[11:0]`, the offset within a page (R63). -/
def pageOffset (va : Word) : Word := bitField va 0 params.paging.offsetBits

/-- The physical address NLT names: `NLT * 4096` (R69). -/
def entryTarget (e : Word) : Word := bitField e params.pte.nltLow params.pte.nltBits <<< params.paging.nltShift

/-- The physical address of the first table, from PTP (R32, R70). -/
def tableRoot (ptp : Word) : Word := ptp <<< params.paging.ptpShift

/-- The physical address of the entry for `va` in the table `L(m+2)` at `base` (R70). -/
def entryAddress (m : Nat) (va base : Word) : Word := base + BitVec.ofNat _ params.pte.bytes * tableIndex m va

/-- The permission of an access kind that an entry denies (R68 step 5): RED for a read, WRT for a write, NEX for a fetch. -/
def entryDenies (e : Word) (acc : Access) (va : Word) : Option Fault :=
  match acc with
  | .read => if e.getLsbD params.pte.red then none else some (.urp va)
  | .write => if e.getLsbD params.pte.wrt then none else some (.uwp va)
  | .exec => if e.getLsbD params.pte.nex then some (.nep va) else none

/-- The checks of R68 on one entry, in its order; `none` when the entry may be used. -/
def entryFault (e : Word) (acc : Access) (pl : Privilege) (va : Word) : Option Fault :=
  if !e.getLsbD params.pte.prs then some (.npp va)
  else if bitField e params.pte.rsvLow params.pte.rsvBits ≠ 0 then some (.nzr va)
  else if bitField e params.pte.nltLow params.pte.nltBits = 0 then some (.nnl va)
  else if e.getLsbD params.pte.pvp = true ∧ pl = .unprivileged then some (.upp va)
  else entryDenies e acc va

/-- The loop of R70: `m` tables are left to walk, the next is `L(m+1)` at `base`. `k` numbers the byte of the access. -/
def walk (s : State) (acc : Access) (k : Nat) (va : Word) : Nat → Word → Except Fault Word
  | 0, base => .ok (base + pageOffset va)
  | m + 1, base => do
    let e ← physRead s ⟨acc, k, m + 2⟩ (entryAddress m va base) params.pte.bytes
    match entryFault e acc s.pl va with
    | some f => .error f
    | none => walk s acc k va m (entryTarget e)

/-- `Translate(va, acc, PL)` of R70 for byte `k` of an access. A paging level above 13 is reserved (R34) and no run
reaches it; in such a state the model raises `ReservedValue`. Log entry 17. -/
def translateByte (s : State) (acc : Access) (k : Nat) (va : Word) : Except Fault Word :=
  let level := pglOf s.clr
  if level = 0 then .ok va
  else if params.maxPgl < level then .error (.reservedValue .clrPgl)
  else if !canonical level va then .error (.ncc va)
  else walk s acc k va (tablesWalked level) (tableRoot s.ptp)

/-- The physical addresses of bytes `k, k+1, ..., k+n-1` of an access whose byte `k` lies at `va`, translated in increasing
order, the first fault raised (R56). -/
def translateRange (s : State) (acc : Access) : Nat → Word → Nat → Except Fault (List Word)
  | _, _, 0 => .ok []
  | k, va, n + 1 => do
    let pa ← translateByte s acc k va
    let pas ← translateRange s acc (k + 1) (va + 1) n
    .ok (pa :: pas)

/-- The first of the addresses outside `PHYS_MEM` raises `PhysicalAccessFault` (R52). -/
def checkPhys (s : State) : List Word → Except Fault Unit
  | [] => .ok ()
  | pa :: pas => if s.inPhysMem pa then checkPhys s pas else .error (.physicalAccessFault pa)

/-- The bytes at translated addresses, byte `k` of the access first. -/
def physBytes (s : State) (acc : Access) : Nat → List Word → List Byte
  | _, [] => []
  | k, pa :: pas => s.physByte ⟨acc, k, 0⟩ pa :: physBytes s acc (k + 1) pas

/-! ### The access primitives -/

/-- `MemRead(va, n)` of R56. -/
def memRead (s : State) (va : Word) (n : Nat) : Except Fault Word := do
  let pas ← translateRange s .read 0 va n
  checkPhys s pas
  .ok (fromBytes (physBytes s .read 0 pas))

/-- `MemWrite(va, n, v)` of R57: every check comes before the first byte is written. -/
def memWrite (s : State) (va : Word) (n : Nat) (v : Word) : Except Fault State := do
  let pas ← translateRange s .write 0 va n
  checkPhys s pas
  .ok (s.withMem (s.mem.storeAll pas (toBytes n v)))

/-- `Fetch(pc + k)` of R58 for the instruction byte `k`. -/
def fetchByte (s : State) (k : Nat) : Except Fault Byte := do
  let pa ← translateByte s .exec k (s.ip + BitVec.ofNat _ k)
  let v ← physRead s ⟨.exec, k, 0⟩ pa 1
  .ok (v.setWidth 8)

/-! ### The stack -/

/-- The push of R140: SP goes down by `n` and the value is stored at the new SP. -/
def pushValue (s : State) (n : Nat) (v : Word) : Except Fault State := do
  let a := s.sp - BitVec.ofNat _ n
  let t ← memWrite s a n v
  .ok (t.withSp a)

/-! ### The end of an instruction -/

/-- EADDR and TEMP after an instruction hold any value (R36, R37); TEST and COMP write TEMP afterwards. -/
def State.settle (s : State) : State :=
  (s.withEaddr (Config.eaddrAfter s.draws)).withTemp (Config.tempAfter s.draws)

/-- The end of an instruction that goes on with the next one: `pc <- (pc + len) mod 2^128` (R27). -/
def State.advance (s : State) (len : Nat) : State := (s.withIp (s.ip + BitVec.ofNat _ len)).settle

/-- The end of an instruction that goes on at `target` (R27). -/
def State.jump (s : State) (target : Word) : State := (s.withIp target).settle

/-- The end of an instruction with the destination register `rd`: a write to IP was a jump and suppresses the advance
(R28, D31). -/
def State.advanceUnlessIp (s : State) (rd : Reg) (len : Nat) : State :=
  if rd = .ip then s.settle else s.advance len

/-- One step has drawn its free values. -/
def State.tick (s : State) : State := { s with draws := s.draws + 1 }

end Sys2Proof.Machine
end

