-- ==== Sys2Proof/Machine/Operands.lean ====
section
/-! DEFINITION. The operand forms: register operands with their access checks (30_encoding.md R104), reads and writes of a
register at a width (10_state.md R22, R23), and effective addresses (40_moves.md R131). -/

namespace Sys2Proof.Machine

/-- The registers an unprivileged program may not name (R40): PTP, SP, IP, FLAGS, EADDR and TEMP, and CLR where
`CLR_UNPRIVILEGED_ACCESS` says so (R35). -/
def closedToUnprivileged : Reg → Bool
  | .gpr _ => false
  | .clr => decide (params.clrUnprivileged = .raisesUpe)
  | .sp => true
  | .ip => true
  | .ptp => true
  | .flags => true
  | .eaddr => true
  | .temp => true

/-- `reg(b)` of R104, checked in R205's order. -/
def reg (s : State) : RegOperand → Except Fault Reg
  | .unassigned _ => .error (.illegalEncoding .reservedRegister)
  | .named r =>
    if s.pl = .unprivileged ∧ closedToUnprivileged r = true then .error (.upe r)
    else if r = .eaddr ∨ r = .temp then .error (.illegalEncoding .inaccessibleRegister)
    else .ok r

/-- `rd_W(r)` of R22, zero-extended to 128 bits. -/
def readAt (s : State) (w : Width) (r : Reg) : Word := trunc w (s.read r)

/-- The 128 bits that a `W`-bit write of `v` leaves in a register that held `old` (R23, parameter `NARROW_WRITE`). -/
def narrowWrite (w : Width) (old v : Word) : Word :=
  match params.narrowWrite with
  | .zero => trunc w v
  | .preserve => (old >>> w.bits) <<< w.bits ||| trunc w v

/-- The check of R34 before anything is written: CLR takes no paging level above 13. -/
def checkReserved (s : State) (w : Width) (rd : Reg) (v : Word) : Except Fault Unit :=
  if rd = .clr ∧ params.maxPgl < pglOf (narrowWrite w s.clr v) then .error (.reservedValue .clrPgl) else .ok ()

/-- `wr_W(r, v)` of R23. -/
def State.writeAt (s : State) (w : Width) (rd : Reg) (v : Word) : State := s.write rd (narrowWrite w (s.read rd) v)

/-- A narrow address, base, index or displacement as a 128-bit value (R131, parameter `NARROW_ADDR_EXT`). -/
def widen (w : Width) (v : Word) : Word :=
  match params.narrowAddrExt with
  | .zero => trunc w v
  | .sign => truncSigned w v

/-- The address that the address field of a memory operand names (R105, R131). -/
def absoluteAddress (w : Width) (addr : Word) : Word :=
  match params.memField with
  | .operandWidth => widen w addr
  | .full => addr

/-- `ea` of MOVE form 02 (R131). -/
def baseImmAddress (s : State) (w : Width) (rb : Reg) (imm : Word) : Word := widen w (s.read rb) + widen w imm

/-- `ea` of MOVE form 03 (R131). -/
def baseIndexAddress (s : State) (w : Width) (rb ri : Reg) : Word := widen w (s.read rb) + widen w (s.read ri)

/-- The end of an instruction that writes the `W`-bit value `v` to its destination register and has nothing more to write:
the check of R34, the write, and the advance (R130). -/
def deliver (s : State) (w : Width) (rd : Reg) (v : Word) (len : Nat) : Except Fault State := do
  checkReserved s w rd v
  .ok ((s.writeAt w rd v).advanceUnlessIp rd len)

end Sys2Proof.Machine
end

