-- ==== Sys2Proof/Machine/Flags.lean ====
section
/-! DEFINITION. The flags: their places in FLAGS (10_state.md R30), how a result sets them (43_arithmetic.md R161), and the
overflow of each ALU instruction. -/

namespace Sys2Proof.Machine

/-- ZF (R30). -/
def State.zf (s : State) : Bool := s.flags.getLsbD params.zfBit

/-- SF (R30). -/
def State.sf (s : State) : Bool := s.flags.getLsbD params.sfBit

/-- OF (R30). -/
def State.of (s : State) : Bool := s.flags.getLsbD params.ofBit

/-- FLAGS with ZF, SF and OF written and FLAGS[127:3] as they were (R161). -/
def flagsWith (flags : Word) (zf sf o : Bool) : Word :=
  setBit (setBit (setBit flags params.zfBit zf) params.sfBit sf) params.ofBit o

/-- The flag rule of R161 for the `W`-bit result `res`: ZF when it is 0, SF its top bit, OF as the instruction says. -/
def State.setFlags (s : State) (w : Width) (res : Word) (o : Bool) : State :=
  s.withFlags (flagsWith s.flags (decide (res = 0)) (topBit w res) o)

/-- The flag rule for XOR and SHL, under the parameter `LOGIC_OPS_WRITE_FLAGS` (R161, D14). -/
def State.setLogicFlags (s : State) (w : Width) (res : Word) (o : Bool) : State :=
  if params.logicOpsWriteFlags then s.setFlags w res o else s

/-- The `W`-bit difference `(a - b) mod 2^W` (R170). -/
def difference (w : Width) (a b : Word) : Word := trunc w (a - b)

/-- OF after COMP: the signed overflow of `a - b` at the width `W` (R170). -/
def subOverflow (w : Width) (a b : Word) : Bool :=
  topBit w a != topBit w b && topBit w (difference w a b) != topBit w a

/-- The count SHL shifts by (R164, parameter `SHL_COUNT_MASKED`). -/
def shlCount (w : Width) (count : Word) : Nat :=
  if params.shlCountMasked then (trunc w count).toNat % w.bits else (trunc w count).toNat

/-- The `W`-bit result of SHL: 0 once the count reaches `W` (R164). -/
def shlResult (w : Width) (a count : Word) : Word :=
  if w.bits ≤ shlCount w count then 0 else trunc w (a <<< shlCount w count)

end Sys2Proof.Machine
end

