-- ==== Sys2Proof/Machine/Arithmetic.lean ====
section
/-! DEFINITION. TEST, XOR and SHL (spec 43_arithmetic.md R160 to R165), each once for every width and then at 128 bits. -/

namespace Sys2Proof.Machine

/-- TEST at the width `w`: the AND goes to TEMP and the flags, and no operand is written (R162). -/
def testAt (w : Width) (ra rb : RegOperand) (s : State) : Host.Outcome State Fault Refusal :=
  outcome do
    let a ← reg s ra
    let b ← reg s rb
    let res := readAt s w a &&& readAt s w b
    .ok (((s.setFlags w res false).advance (lengthOf w .rr)).withTemp res)

/-- XOR at the width `w`: the result is written, to FLAGS too where that is the operand, and then the three flags (R163). -/
def xorAt (w : Width) (ra rb : RegOperand) (s : State) : Host.Outcome State Fault Refusal :=
  outcome do
    let a ← reg s ra
    let b ← reg s rb
    let res := readAt s w a ^^^ readAt s w b
    checkReserved s w a res
    .ok (((s.writeAt w a res).setLogicFlags w res false).advanceUnlessIp a (lengthOf w .rr))

/-- SHL at the width `w`; OF takes a free value (R164). -/
def shlAt (w : Width) (ra : RegOperand) (count : Word) (s : State) : Host.Outcome State Fault Refusal :=
  outcome do
    let a ← reg s ra
    let res := shlResult w (readAt s w a) count
    checkReserved s w a res
    .ok (((s.writeAt w a res).setLogicFlags w res (Config.shlOverflow s.draws)).advanceUnlessIp a (lengthOf w .ri))

/-- TEST, opcode 0D (R162). -/
def execTest (ra rb : RegOperand) (s : State) : Host.Outcome State Fault Refusal := testAt .w128 ra rb s

/-- XOR, opcode 0E (R163). -/
def execXor (ra rb : RegOperand) (s : State) : Host.Outcome State Fault Refusal := xorAt .w128 ra rb s

/-- SHL, opcode 0F (R164). -/
def execShl (ra : RegOperand) (count : Word) (s : State) : Host.Outcome State Fault Refusal := shlAt .w128 ra count s

end Sys2Proof.Machine
end

