-- ==== Sys2Proof/Machine/ControlFlow.lean ====
section
/-! DEFINITION. JIE, JIL, JMP, JSR, RFS and U2K (spec 42_control_flow.md R150 to R156). -/

namespace Sys2Proof.Machine

/-- The end of a conditional jump: to the target, or past the 17 bytes of the instruction (R150, R151). -/
def jumpIf (s : State) (taken : Bool) (target : Word) : State :=
  if taken then s.jump target else s.advance (lengthOf .w128 .j)

/-- JIE, opcode 07: jump if ZF (R150). -/
def execJie (target : Word) (s : State) : Host.Outcome State Fault Refusal := outcome (.ok (jumpIf s s.zf target))

/-- JIL, opcode 08: jump if SF differs from OF (R151). -/
def execJil (target : Word) (s : State) : Host.Outcome State Fault Refusal :=
  outcome (.ok (jumpIf s (s.sf != s.of) target))

/-- JMP, opcode 09 (R152). -/
def execJmp (target : Word) (s : State) : Host.Outcome State Fault Refusal := outcome (.ok (s.jump target))

/-- JSR, opcode 0A: the address of the next instruction is pushed before the jump (R153). -/
def execJsr (target : Word) (s : State) : Host.Outcome State Fault Refusal :=
  outcome do
    let t ← pushValue s 16 (s.ip + BitVec.ofNat _ (lengthOf .w128 .j))
    .ok (t.jump target)

/-- RFS, opcode 0B: the return address is popped into `pc` (R154). -/
def execRfs (s : State) : Host.Outcome State Fault Refusal :=
  outcome do
    let ret ← memRead s s.sp 16
    .ok ((s.withSp (s.sp + 16)).jump ret)

/-- U2K, opcode 0C: the push is made at the caller's privilege level, then the level becomes privileged and `pc` becomes
`U2K_ENTRY`; without one the model refuses (R155). -/
def execU2k (s : State) : Host.Outcome State Fault Refusal :=
  match s.platform.u2kEntry with
  | none => .refused .noU2kEntry
  | some entry =>
    outcome do
      let t ← pushValue s 16 (s.ip + BitVec.ofNat _ (lengthOf .w128 .n))
      .ok ((t.withPl .privileged).jump entry)

end Sys2Proof.Machine
end

