-- ==== Sys2Proof/Machine/Miscellaneous.lean ====
section
/-! DEFINITION. COMP (spec 44_miscellaneous.md R170), once for every width and then at 128 bits. -/

namespace Sys2Proof.Machine

/-- COMP at the width `w`: register minus immediate goes to TEMP and the flags, and no operand is written (R170). -/
def compAt (w : Width) (ra : RegOperand) (imm : Word) (s : State) : Host.Outcome State Fault Refusal :=
  outcome do
    let r ← reg s ra
    let a := readAt s w r
    let b := trunc w imm
    let res := difference w a b
    .ok (((s.setFlags w res (subOverflow w a b)).advance (lengthOf w .ri)).withTemp res)

/-- COMP, opcode 10 (R170). -/
def execComp (ra : RegOperand) (imm : Word) (s : State) : Host.Outcome State Fault Refusal := compAt .w128 ra imm s

end Sys2Proof.Machine
end

