-- ==== Sys2Proof/Machine/Moves.lean ====
section
/-! DEFINITION. The five forms of MOVE (spec 40_moves.md R130 to R136), each once for every width and then at 128 bits. -/

namespace Sys2Proof.Machine

/-- MOVE register to register at the width `w` (R132). -/
def moveRegRegAt (w : Width) (rd rs : RegOperand) (s : State) : Host.Outcome State Fault Refusal :=
  outcome do
    let d ← reg s rd
    let r ← reg s rs
    deliver s w d (readAt s w r) (lengthOf w .rr)

/-- MOVE memory to register, absolute, at the width `w` (R133). -/
def moveRegMemAt (w : Width) (rd : RegOperand) (addr : Word) (s : State) : Host.Outcome State Fault Refusal :=
  outcome do
    let d ← reg s rd
    let v ← memRead s (absoluteAddress w addr) w.bytes
    deliver s w d v (lengthOf w .rm)

/-- MOVE memory to register, base plus immediate, at the width `w` (R134). -/
def moveRegBaseImmAt (w : Width) (rd rb : RegOperand) (imm : Word) (s : State) : Host.Outcome State Fault Refusal :=
  outcome do
    let d ← reg s rd
    let b ← reg s rb
    let v ← memRead s (baseImmAddress s w b imm) w.bytes
    deliver s w d v (lengthOf w .rri)

/-- MOVE memory to register, base plus index, at the width `w` (R135). -/
def moveRegBaseIndexAt (w : Width) (rd rb ri : RegOperand) (s : State) : Host.Outcome State Fault Refusal :=
  outcome do
    let d ← reg s rd
    let b ← reg s rb
    let i ← reg s ri
    let v ← memRead s (baseIndexAddress s w b i) w.bytes
    deliver s w d v (lengthOf w .rrr)

/-- MOVE register to memory, absolute, at the width `w` (R136). -/
def moveMemRegAt (w : Width) (addr : Word) (rs : RegOperand) (s : State) : Host.Outcome State Fault Refusal :=
  outcome do
    let r ← reg s rs
    let t ← memWrite s (absoluteAddress w addr) w.bytes (readAt s w r)
    .ok (t.advance (lengthOf w .mr))

/-- MOVE, opcode 00 (R132). -/
def execMoveRegReg (rd rs : RegOperand) (s : State) : Host.Outcome State Fault Refusal := moveRegRegAt .w128 rd rs s

/-- MOVE, opcode 01 (R133). -/
def execMoveRegMem (rd : RegOperand) (addr : Word) (s : State) : Host.Outcome State Fault Refusal :=
  moveRegMemAt .w128 rd addr s

/-- MOVE, opcode 02 (R134). -/
def execMoveRegBaseImm (rd rb : RegOperand) (imm : Word) (s : State) : Host.Outcome State Fault Refusal :=
  moveRegBaseImmAt .w128 rd rb imm s

/-- MOVE, opcode 03 (R135). -/
def execMoveRegBaseIndex (rd rb ri : RegOperand) (s : State) : Host.Outcome State Fault Refusal :=
  moveRegBaseIndexAt .w128 rd rb ri s

/-- MOVE, opcode 04 (R136). -/
def execMoveMemReg (addr : Word) (rs : RegOperand) (s : State) : Host.Outcome State Fault Refusal :=
  moveMemRegAt .w128 addr rs s

end Sys2Proof.Machine
end

