-- ==== Sys2Proof/Machine/Stack.lean ====
section
/-! DEFINITION. PUSH and POP (spec 41_stack.md R140 to R142), each once for every width and then at 128 bits. -/

namespace Sys2Proof.Machine

/-- PUSH at the width `w`: the operand is read before SP changes (R141). -/
def pushAt (w : Width) (r : RegOperand) (s : State) : Host.Outcome State Fault Refusal :=
  outcome do
    let x ← reg s r
    let t ← pushValue s w.bytes (readAt s w x)
    .ok (t.advance (lengthOf w .r))

/-- POP at the width `w`: the destination is written after SP has gone up, and a reserved value for CLR is found before
either (R142, R205). -/
def popAt (w : Width) (r : RegOperand) (s : State) : Host.Outcome State Fault Refusal :=
  outcome do
    let d ← reg s r
    let v ← memRead s s.sp w.bytes
    deliver (s.withSp (s.sp + BitVec.ofNat _ w.bytes)) w d v (lengthOf w .r)

/-- PUSH, opcode 05 (R141). -/
def execPush (r : RegOperand) (s : State) : Host.Outcome State Fault Refusal := pushAt .w128 r s

/-- POP, opcode 06 (R142). -/
def execPop (r : RegOperand) (s : State) : Host.Outcome State Fault Refusal := popAt .w128 r s

end Sys2Proof.Machine
end

