-- ==== Sys2Proof/Machine/Prefixes.lean ====
section
/-! DEFINITION. The four prefixes (spec 45_prefixes.md R175 to R177): the instruction that follows runs at the width of the
prefix, and nothing after it does. -/

namespace Sys2Proof.Machine

/-- An instruction whose operands have the width `w` (R176). -/
def execSized (w : Width) (body : Sized) (s : State) : Host.Outcome State Fault Refusal :=
  match body with
  | .moveRegReg rd rs => moveRegRegAt w rd rs s
  | .moveRegMem rd addr => moveRegMemAt w rd addr s
  | .moveRegBaseImm rd rb imm => moveRegBaseImmAt w rd rb imm s
  | .moveRegBaseIndex rd rb ri => moveRegBaseIndexAt w rd rb ri s
  | .moveMemReg addr rs => moveMemRegAt w addr rs s
  | .push r => pushAt w r s
  | .pop r => popAt w r s
  | .test ra rb => testAt w ra rb s
  | .xor ra rb => xorAt w ra rb s
  | .shl ra count => shlAt w ra count s
  | .comp ra imm => compAt w ra imm s

/-- Prefix byte 11 (R175). -/
def execPrefix8 (body : Sized) (s : State) : Host.Outcome State Fault Refusal := execSized .w8 body s

/-- Prefix byte 12 (R175). -/
def execPrefix16 (body : Sized) (s : State) : Host.Outcome State Fault Refusal := execSized .w16 body s

/-- Prefix byte 13 (R175). -/
def execPrefix32 (body : Sized) (s : State) : Host.Outcome State Fault Refusal := execSized .w32 body s

/-- Prefix byte 14 (R175). -/
def execPrefix64 (body : Sized) (s : State) : Host.Outcome State Fault Refusal := execSized .w64 body s

end Sys2Proof.Machine
end

