-- ==== Sys2Proof/Machine/Dispatch.lean ====
section
/-! DEFINITION. One arm per constructor of `Instr`, each one call of the instruction's meaning. -/

namespace Sys2Proof.Machine

def exec (i : Instr) (s : State) : Host.Outcome State Fault Refusal :=
  match i with
  | .moveRegReg rd rs => Sys2Proof.Machine.execMoveRegReg rd rs s
  | .moveRegMem rd addr => Sys2Proof.Machine.execMoveRegMem rd addr s
  | .moveRegBaseImm rd rb imm => Sys2Proof.Machine.execMoveRegBaseImm rd rb imm s
  | .moveRegBaseIndex rd rb ri => Sys2Proof.Machine.execMoveRegBaseIndex rd rb ri s
  | .moveMemReg addr rs => Sys2Proof.Machine.execMoveMemReg addr rs s
  | .push r => Sys2Proof.Machine.execPush r s
  | .pop r => Sys2Proof.Machine.execPop r s
  | .jie target => Sys2Proof.Machine.execJie target s
  | .jil target => Sys2Proof.Machine.execJil target s
  | .jmp target => Sys2Proof.Machine.execJmp target s
  | .jsr target => Sys2Proof.Machine.execJsr target s
  | .rfs => Sys2Proof.Machine.execRfs s
  | .u2k => Sys2Proof.Machine.execU2k s
  | .test ra rb => Sys2Proof.Machine.execTest ra rb s
  | .xor ra rb => Sys2Proof.Machine.execXor ra rb s
  | .shl ra count => Sys2Proof.Machine.execShl ra count s
  | .comp ra imm => Sys2Proof.Machine.execComp ra imm s
  | .prefix8 body => Sys2Proof.Machine.execPrefix8 body s
  | .prefix16 body => Sys2Proof.Machine.execPrefix16 body s
  | .prefix32 body => Sys2Proof.Machine.execPrefix32 body s
  | .prefix64 body => Sys2Proof.Machine.execPrefix64 body s

end Sys2Proof.Machine
end

