-- ==== Sys2Proof/Machine/Fetch.lean ====
section
/-! DEFINITION. Fetching one instruction (spec 30_encoding.md R119, 20_memory.md R58), and placing one where the fetch finds
it. -/

namespace Sys2Proof.Machine

/-- The fault that a rejection of the decoder raises (R110 to R113). `truncated` cannot arise here: the fetch takes every
byte the format calls for. -/
def decodeFault : DecodeError → Fault
  | .truncated => .illegalEncoding .undefinedOpcode
  | .undefinedOpcode _ => .illegalEncoding .undefinedOpcode
  | .doublePrefix _ => .illegalEncoding .doublePrefix
  | .invalidPrefixOpcode b => .ipo b
  | .prefixOnFixedWidth _ => .illegalEncoding .prefixOnFixedWidth

/-- The instruction bytes `k, k+1, ..., k+n-1`, fetched in increasing address order (R58). -/
def fetchBytes (s : State) : Nat → Nat → Except Fault (List Byte)
  | _, 0 => .ok []
  | k, n + 1 => do
    let b ← fetchByte s k
    let bs ← fetchBytes s (k + 1) n
    .ok (b :: bs)

/-- The rest of R119 after the opcode byte `b`, which is instruction byte `k`. -/
def fetchFrom (s : State) (w : Width) (k : Nat) (b : Byte) : Except Fault Instr :=
  match decodeOpcode w b with
  | .error e => .error (decodeFault e)
  | .ok op => do
    let bs ← fetchBytes s (k + 1) (op.format.operandBytes w)
    .ok (decodeOperands w op bs)

/-- The instruction at `pc`, fetched byte by byte and decoded (R119). -/
def fetchInstr (s : State) : Except Fault Instr := do
  let b0 ← fetchByte s 0
  match prefixWidth b0 with
  | none => fetchFrom s .w128 0 b0
  | some w => do
    let b1 ← fetchByte s 1
    fetchFrom s w 1 b1

/-- The instruction stream at `pc` becomes `bs`, with what a fetch of it needs: paging off (R241: a platform may "start it
with PGL = 0"), memory behind each byte, and no device there. Nothing else changes. -/
def placeBytes (s : State) (bs : List Byte) : State :=
  let pas := addressesFrom s.ip bs.length
  let missing := pas.filter fun pa => !s.inPhysMem pa
  { s with
    clr := s.clr &&& ~~~((0xF : Word) <<< params.pglLow)
    mem := s.mem.storeAll pas bs
    platform :=
      { s.platform with
        physMem := s.platform.physMem ++ missing.map fun pa => { base := pa.toNat, size := 1 }
        mmioRegions := s.platform.mmioRegions.filter fun r => !(pas.any fun pa => r.contains pa.toNat) } }

end Sys2Proof.Machine
end

