-- ==== Sys2Proof/Machine/Step.lean ====
section
/-! DEFINITION. One step of the machine, and the state with an instruction where the step fetches it. -/

namespace Sys2Proof.Machine

/-- One step: the instruction at `pc` is fetched and decoded (R119) and runs to its end before the next is fetched (R250).
A step that ends in a state counts as one draw of the free values. -/
def step (s : State) : Host.Outcome State Fault Refusal :=
  match fetchInstr s with
  | .error f => raise f
  | .ok i =>
    match exec i s with
    | .next t => .next t.tick
    | .fault f => .fault f
    | .refused r => .refused r

/-- The state whose next step runs the instruction that the opcode table's word `w` of `nbits` bits stands for: the program
is loaded by the platform (R243, R244). Log entry 16. -/
def State.withFetchWord (s : State) (nbits w : Nat) : State := placeBytes s (tableBytes nbits w)

end Sys2Proof.Machine
end

