-- ==== Sys2Proof/Safety.lean ====
section
/-! DEFINITION. What claims speak of: the invariant of the machine, runs that no fault ends (60_exceptions.md R210: "A
faulted state is never a good end of a run"), the end condition of 70_reset_and_hazards.md R247, and what an instruction
leaves unchanged. -/

namespace Sys2Proof.Machine

/-- The paging level is a legal one: 0 to 13 (R34). -/
def State.legalLevel (s : State) : Bool := decide (pglOf s.clr ≤ 13)

/-- Every written byte lies in `PHYS_MEM` (R52). -/
def State.memInPhys (s : State) : Bool :=
  s.mem.all fun c => s.platform.physMem.any fun r => r.contains c.1

/-- What every step keeps: memory in its canonical form and inside `PHYS_MEM`, and a legal paging level. -/
def State.inv (s : State) : Bool := s.mem.wf && s.memInPhys && s.legalLevel

/-- The first `n` steps from `s` all end in a state. -/
def SafeRun : Nat → State → Prop
  | 0, _ => True
  | n + 1, s => ∃ t, step s = .next t ∧ SafeRun n t

/-- The end condition of R247: `pc` is at a JMP whose target is its own address. -/
def AtSelfJump (s : State) : Prop := fetchInstr s = .ok (.jmp s.ip)

/-- `t` differs from `s` at most in the listed registers, in EADDR and TEMP (which hold any value after an instruction,
R36, R37) and in the physical bytes at `pas`. -/
def Frame (s t : State) (regs : List Reg) (pas : List Word) : Prop :=
  (∀ r : Reg, r ∉ regs → r ≠ .eaddr → r ≠ .temp → t.read r = s.read r) ∧
  (∀ (ev : ReadEvent) (pa : Word), pa ∉ pas → t.physByte ev pa = s.physByte ev pa) ∧
  t.pl = s.pl ∧ t.platform = s.platform ∧ t.draws = s.draws

/-- The bytes of `v` lie at the physical addresses `pas`, the least significant first: a byte where devices write too
promises nothing (R85). -/
def HoldsBytes (t : State) (pas : List Word) (v : Word) : Prop :=
  ∀ (k : Nat) (h : k < pas.length) (ev : ReadEvent), t.inMmio pas[k] = false →
    t.physByte ev pas[k] = v.extractLsb' (8 * k) 8

/-- ZF, SF and OF of FLAGS, and FLAGS[127:3] as `upper` has them (R30, R161). -/
def FlagsAre (t : State) (zf sf o : Bool) (upper : Word) : Prop :=
  t.flags.getLsbD 0 = zf ∧ t.flags.getLsbD 1 = sf ∧ t.flags.getLsbD 2 = o ∧
  ∀ i : Nat, 3 ≤ i → t.flags.getLsbD i = upper.getLsbD i

/-- `signed_W(v)` of R9. -/
def signedAt (w : Width) (v : Word) : Int := (v.setWidth w.bits).toInt

/-- The register operands of an instruction, in operand order (R107). -/
def operandsOf : Sized → List RegOperand
  | .moveRegReg rd rs => [rd, rs]
  | .moveRegMem rd _ => [rd]
  | .moveRegBaseImm rd rb _ => [rd, rb]
  | .moveRegBaseIndex rd rb ri => [rd, rb, ri]
  | .moveMemReg _ rs => [rs]
  | .push r => [r]
  | .pop r => [r]
  | .test ra rb => [ra, rb]
  | .xor ra rb => [ra, rb]
  | .shl ra _ => [ra]
  | .comp ra _ => [ra]

/-- The fault of the first register operand that fails its check (R205 step 6). -/
def firstOperandFault (s : State) : List RegOperand → Option Fault
  | [] => none
  | o :: os =>
    match reg s o with
    | .error f => some f
    | .ok _ => firstOperandFault s os

/-- The instruction and its width, for those whose operands have one. -/
def sizedOf : Instr → Option (Width × Sized)
  | .moveRegReg rd rs => some (.w128, .moveRegReg rd rs)
  | .moveRegMem rd addr => some (.w128, .moveRegMem rd addr)
  | .moveRegBaseImm rd rb imm => some (.w128, .moveRegBaseImm rd rb imm)
  | .moveRegBaseIndex rd rb ri => some (.w128, .moveRegBaseIndex rd rb ri)
  | .moveMemReg addr rs => some (.w128, .moveMemReg addr rs)
  | .push r => some (.w128, .push r)
  | .pop r => some (.w128, .pop r)
  | .jie _ => none
  | .jil _ => none
  | .jmp _ => none
  | .jsr _ => none
  | .rfs => none
  | .u2k => none
  | .test ra rb => some (.w128, .test ra rb)
  | .xor ra rb => some (.w128, .xor ra rb)
  | .shl ra count => some (.w128, .shl ra count)
  | .comp ra imm => some (.w128, .comp ra imm)
  | .prefix8 body => some (.w8, body)
  | .prefix16 body => some (.w16, body)
  | .prefix32 body => some (.w32, body)
  | .prefix64 body => some (.w64, body)

/-- The destination register operand, where the instruction names one. -/
def destinationOf : Sized → Option RegOperand
  | .moveRegReg rd _ => some rd
  | .moveRegMem rd _ => some rd
  | .moveRegBaseImm rd _ _ => some rd
  | .moveRegBaseIndex rd _ _ => some rd
  | .moveMemReg _ _ => none
  | .push _ => none
  | .pop r => some r
  | .test _ _ => none
  | .xor ra _ => some ra
  | .shl ra _ => some ra
  | .comp _ _ => none

/-- TEST, XOR, SHL and COMP: the instructions that set the flags (R31). -/
def setsFlags : Sized → Bool
  | .moveRegReg _ _ => false
  | .moveRegMem _ _ => false
  | .moveRegBaseImm _ _ _ => false
  | .moveRegBaseIndex _ _ _ => false
  | .moveMemReg _ _ => false
  | .push _ => false
  | .pop _ => false
  | .test _ _ => true
  | .xor _ _ => true
  | .shl _ _ => true
  | .comp _ _ => true

/-- MOVE form 04, PUSH, JSR and U2K: the instructions that write data memory (R53). -/
def writesMemory (i : Instr) : Bool :=
  match sizedOf i with
  | some (_, .moveMemReg _ _) => true
  | some (_, .push _) => true
  | some _ => false
  | none => decide (i = .u2k) || (match i with | .jsr _ => true | _ => false)

/-- MOVE forms 01, 02 and 03, POP and RFS: the instructions that read data memory (R53). -/
def readsMemory (i : Instr) : Bool :=
  match sizedOf i with
  | some (_, .moveRegMem _ _) => true
  | some (_, .moveRegBaseImm _ _ _) => true
  | some (_, .moveRegBaseIndex _ _ _) => true
  | some (_, .pop _) => true
  | some _ => false
  | none => decide (i = .rfs)

/-- The faults a data access of this kind can raise (R204): "read: #NCC #NPP #NZR #NNL #UPP #URP, PhysicalAccessFault", a
write with #UWP and a fetch with #NEP in the place of #URP. -/
def accessFault (acc : Access) : Fault → Bool
  | .ncc _ => true
  | .npp _ => true
  | .nzr _ => true
  | .nnl _ => true
  | .upp _ => true
  | .physicalAccessFault _ => true
  | .urp _ => decide (acc = .read)
  | .uwp _ => decide (acc = .write)
  | .nep _ => decide (acc = .exec)
  | .ipo _ => false
  | .upe _ => false
  | .illegalEncoding _ => false
  | .reservedValue _ => false

end Sys2Proof.Machine
end

