-- ==== Sys2Proof/Certificates/Slice0/Obligations.lean ====
section
/-! DEFINITION. The statements for the provers. Most rules of the spec complete a silent source by a decision of the spec's
own (92_eei_decisions.md, D1 to D42); the docstring of a statement that rests on one names it, and the statement has basis
'derived'. `Instr.ofSized w body` ranges over the plain constructor (`w = w128`) and over the constructors `prefix8`,
`prefix16`, `prefix32` and `prefix64` of the four prefixes. -/

open Sys2Proof Sys2Proof.Machine

/-! ### Encoding -/

/-- Decoding the encoding of any well-formed instruction gives it back, with every operand at every value its field holds,
and leaves the bytes after it. Rests on the spec's decisions D2, D4, D7, D8 (REGMAP, byte order, field sizes and order). -/
def Obligations.DecodeOfEncodeIsTheInstruction : Prop :=
  ∀ (i : Instr) (rest : List Byte), i.WellFormed → decode (encode i ++ rest) = .ok (i, rest)

/-- Bytes that decode to an instruction are its encoding: no two byte sequences stand for one instruction, and no byte of
one is ignored. Rests on D2, D4, D7, D8. -/
def Obligations.EncodeOfDecodeIsTheBytes : Prop :=
  ∀ (bs rest : List Byte) (i : Instr), decode bs = .ok (i, rest) → bs = encode i ++ rest

/-- What the decoder accepts is well-formed, has the length of R108, and is 1 to 19 bytes long. Rests on D7. -/
def Obligations.DecodedInstructionIsWellFormed : Prop :=
  ∀ (bs rest : List Byte) (i : Instr), decode bs = .ok (i, rest) →
    i.WellFormed ∧ bs.length = i.length + rest.length ∧ 1 ≤ i.length ∧ i.length ≤ 19

/-- Words written out from the spec's encodings decode to the instruction they stand for, one of each family. -/
def Obligations.SpecWordsDecode : Prop :=
  decode [0x00, 0x00, 0x01] = .ok (.moveRegReg (.named (.gpr 0)) (.named (.gpr 1)), []) ∧
  decode [0x11, 0x03, 0x03, 0x01, 0x02] =
    .ok (.prefix8 (.moveRegBaseIndex (.named (.gpr 3)) (.named (.gpr 1)) (.named (.gpr 2))), []) ∧
  decode [0x12, 0x04, 0x10, 0x20, 0x01] = .ok (.prefix16 (.moveMemReg 0x2010 (.named (.gpr 1))), []) ∧
  decode [0x05, 0x00] = .ok (.push (.named (.gpr 0)), []) ∧
  decode [0x09, 0x5C, 0x10, 0, 0, 0, 0, 0, 0, 0, 0, 0, 0, 0, 0, 0, 0] = .ok (.jmp 0x105C, []) ∧
  decode [0x0E, 0x00, 0x01] = .ok (.xor (.named (.gpr 0)) (.named (.gpr 1)), []) ∧
  decode [0x11, 0x10, 0x01, 0x40] = .ok (.prefix8 (.comp (.named (.gpr 1)) 0x40), [])

/-- R109: the complete map of first-position byte values, with the format of each opcode. -/
def Obligations.OpcodeMapIsTheSpecs : Prop :=
  (Opcode.ofByte 0x00 = some .moveRegReg ∧ Opcode.moveRegReg.format = .rr) ∧
  (Opcode.ofByte 0x01 = some .moveRegMem ∧ Opcode.moveRegMem.format = .rm) ∧
  (Opcode.ofByte 0x02 = some .moveRegBaseImm ∧ Opcode.moveRegBaseImm.format = .rri) ∧
  (Opcode.ofByte 0x03 = some .moveRegBaseIndex ∧ Opcode.moveRegBaseIndex.format = .rrr) ∧
  (Opcode.ofByte 0x04 = some .moveMemReg ∧ Opcode.moveMemReg.format = .mr) ∧
  (Opcode.ofByte 0x05 = some .push ∧ Opcode.push.format = .r) ∧
  (Opcode.ofByte 0x06 = some .pop ∧ Opcode.pop.format = .r) ∧
  (Opcode.ofByte 0x07 = some .jie ∧ Opcode.jie.format = .j) ∧
  (Opcode.ofByte 0x08 = some .jil ∧ Opcode.jil.format = .j) ∧
  (Opcode.ofByte 0x09 = some .jmp ∧ Opcode.jmp.format = .j) ∧
  (Opcode.ofByte 0x0A = some .jsr ∧ Opcode.jsr.format = .j) ∧
  (Opcode.ofByte 0x0B = some .rfs ∧ Opcode.rfs.format = .n) ∧
  (Opcode.ofByte 0x0C = some .u2k ∧ Opcode.u2k.format = .n) ∧
  (Opcode.ofByte 0x0D = some .test ∧ Opcode.test.format = .rr) ∧
  (Opcode.ofByte 0x0E = some .xor ∧ Opcode.xor.format = .rr) ∧
  (Opcode.ofByte 0x0F = some .shl ∧ Opcode.shl.format = .ri) ∧
  (Opcode.ofByte 0x10 = some .comp ∧ Opcode.comp.format = .ri) ∧
  (prefixWidth 0x11 = some .w8 ∧ prefixWidth 0x12 = some .w16 ∧ prefixWidth 0x13 = some .w32 ∧
    prefixWidth 0x14 = some .w64) ∧
  (∀ b : Byte, b.toNat ≤ 0x10 → prefixWidth b = none) ∧
  (∀ b : Byte, 0x11 ≤ b.toNat → Opcode.ofByte b = none) ∧
  (∀ b : Byte, 0x15 ≤ b.toNat → prefixWidth b = none)

/-- R175: a prefix byte gives its width to every operand of the instruction it stands before, an instruction without one has
128 bits, and the width does not outlast the instruction: the bytes left over are decoded at 128 bits again. -/
def Obligations.PrefixSelectsTheWidth : Prop :=
  (∀ (p : Byte) (w : Width), prefixWidth p = some w → w.bits = 8 * 2 ^ (p.toNat - 0x11)) ∧
  (∀ p : Byte, prefixWidth p = none ↔ ¬(0x11 ≤ p.toNat ∧ p.toNat ≤ 0x14)) ∧
  (∀ (p b : Byte) (bs : List Byte) (w : Width), prefixWidth p = some w → decode (p :: b :: bs) = decodeFrom w b bs) ∧
  (∀ (b : Byte) (bs : List Byte), prefixWidth b = none → decode (b :: bs) = decodeFrom .w128 b bs) ∧
  Width.w128.bits = 128 ∧
  (∀ (w : Width) (body : Sized) (s : State), exec (.ofSized w body) s = execSized w body s)

/-! ### Fetch, decode and step -/

/-- When the bytes at `pc` decode to an instruction, the step runs exactly it; the step adds only `tick`, which counts the
draw of the free values. Every decoded instruction is well-formed (`DecodedInstructionIsWellFormed`). -/
def Obligations.StepRunsTheDecodedInstruction : Prop :=
  ∀ (s : State) (bs : List Byte) (i : Instr),
    fetchBytes s 0 bs.length = .ok bs → decode bs = .ok (i, []) →
      step s = match exec i s with
        | .next t => .next { t with draws := t.draws + 1 }
        | .fault f => .fault f
        | .refused r => .refused r

/-- A fault met while the bytes of an instruction are fetched ends the step with that fault. The instruction bytes before byte
`k` have been fetched and begin the encoding of an instruction longer than `k` bytes, so byte `k` is still needed; its address
either fails its translation for execution, with `f`, or lies outside `PHYS_MEM`. The bytes after `k` play no part. Rests on
the spec's decisions D11, D23, D32 and D35. -/
def Obligations.FetchFaultEndsTheStep : Prop :=
  ∀ (s : State) (i : Instr) (k : Nat), i.WellFormed → k < i.length →
    fetchBytes s 0 k = .ok ((encode i).take k) →
      (∀ f, translateByte s .exec k (s.ip + BitVec.ofNat 128 k) = .error f → step s = .fault f) ∧
      (∀ pa, translateByte s .exec k (s.ip + BitVec.ofNat 128 k) = .ok pa → s.inPhysMem pa = false →
        step s = .fault (.physicalAccessFault pa))

/-- An opcode byte 15 to FF, with or without a prefix, stops the machine, whatever bytes follow and whether or not they
can be fetched. The fault is the spec's decision D10. -/
def Obligations.UndefinedOpcodeStops : Prop :=
  ∀ (s : State) (b : Byte), 0x15 ≤ b.toNat →
    (fetchByte s 0 = .ok b → step s = .fault (.illegalEncoding .undefinedOpcode)) ∧
    (∀ p : Byte, fetchByte s 0 = .ok p → 0x11 ≤ p.toNat → p.toNat ≤ 0x14 → fetchByte s 1 = .ok b →
      step s = .fault (.illegalEncoding .undefinedOpcode))

/-- R111: a prefix byte before RFS (0B) or U2K (0C), the instructions without operands, raises #IPO. -/
def Obligations.PrefixOnOperandlessRaisesIpo : Prop :=
  ∀ (s : State) (p b : Byte), fetchByte s 0 = .ok p → 0x11 ≤ p.toNat → p.toNat ≤ 0x14 → fetchByte s 1 = .ok b →
    (b = 0x0B ∨ b = 0x0C) → step s = .fault (.ipo b)

/-- A prefix byte before JIE, JIL, JMP or JSR, or before another prefix byte, stops the machine; no operand byte is fetched.
The faults are the spec's decisions D9 and D10. -/
def Obligations.PrefixOnJumpOrPrefixStops : Prop :=
  ∀ (s : State) (p b : Byte), fetchByte s 0 = .ok p → 0x11 ≤ p.toNat → p.toNat ≤ 0x14 → fetchByte s 1 = .ok b →
    (0x07 ≤ b.toNat → b.toNat ≤ 0x0A → step s = .fault (.illegalEncoding .prefixOnFixedWidth)) ∧
    (0x11 ≤ b.toNat → b.toNat ≤ 0x14 → step s = .fault (.illegalEncoding .doublePrefix))

/-! ### Register operands -/

/-- What `reg(b)` answers for every operand byte at both privilege levels. Rests on the spec's decisions D2, D3 and D36. -/
def Obligations.RegisterOperandChecks : Prop :=
  ∀ s : State,
    (∀ k : Fin 32, reg s (.ofByte (BitVec.ofNat 8 k)) = .ok (.gpr k)) ∧
    reg s (.ofByte 0x26) = .ok .clr ∧
    (∀ b r, (b, r) ∈ [((0x20 : Byte), Reg.sp), (0x21, .ip), (0x22, .ptp), (0x23, .flags)] →
      (s.pl = .unprivileged → reg s (.ofByte b) = .error (.upe r)) ∧
      (s.pl = .privileged → reg s (.ofByte b) = .ok r)) ∧
    (∀ b r, (b, r) ∈ [((0x24 : Byte), Reg.eaddr), (0x25, .temp)] →
      (s.pl = .unprivileged → reg s (.ofByte b) = .error (.upe r)) ∧
      (s.pl = .privileged → reg s (.ofByte b) = .error (.illegalEncoding .inaccessibleRegister))) ∧
    (∀ b : Byte, 0x27 ≤ b.toNat → reg s (.ofByte b) = .error (.illegalEncoding .reservedRegister))

/-- An instruction with a register operand that may not be named raises the fault of the first such operand, in operand
order, before it reads or writes anything. Rests on the spec's decisions D3 and D35. -/
def Obligations.FirstBadOperandIsReported : Prop :=
  ∀ (w : Width) (body : Sized) (s : State) (f : Fault),
    firstOperandFault s (operandsOf body) = some f → exec (.ofSized w body) s = .fault f

/-- A `W`-bit read gives the low `W` bits; a `W`-bit write sets them, clears the bits above and touches no other register.
Rests on the spec's decision D5. -/
def Obligations.NarrowReadsAndWrites : Prop :=
  ∀ (s : State) (w : Width) (r : Reg) (v : Word),
    (∀ i : Nat, (readAt s w r).getLsbD i = (decide (i < w.bits) && (s.read r).getLsbD i)) ∧
    (∀ i : Nat, ((s.writeAt w r v).read r).getLsbD i = (decide (i < w.bits) && v.getLsbD i)) ∧
    (∀ r' : Reg, r' ≠ r → (s.writeAt w r v).read r' = s.read r')

/-! ### Moves -/

/-- MOVE register to register completes, at every width: the destination holds the `W`-bit value with zeros above, and IP
moves past the instruction unless it is the destination. Rests on D5, D17, D31. -/
def Obligations.MoveRegRegCompletes : Prop :=
  ∀ (w : Width) (rd rs : RegOperand) (s : State) (d r : Reg),
    reg s rd = .ok d → reg s rs = .ok r → (d = .clr → (s.read r).toNat % 16 ≤ 13) →
      ∃ t, exec (.ofSized w (.moveRegReg rd rs)) s = .next t ∧ t.read d = trunc w (s.read r) ∧
        (d ≠ .ip → t.ip = s.ip + (if w = .w128 then 3 else 4)) ∧ Frame s t [d, .ip] []

/-- The three loading forms of MOVE complete where their bytes can be read: the destination holds the value at the effective
address, which is the address field, the base plus the immediate, or the base plus the index, each at the operand width.
Rests on D5, D6, D7, D15, D17, D31. -/
def Obligations.LoadsComplete : Prop :=
  ∀ (w : Width) (rd : RegOperand) (s : State) (d : Reg) (v : Word),
    reg s rd = .ok d → (d = .clr → v.toNat % 16 ≤ 13) →
      (∀ addr : Word, memRead s (trunc w addr) w.bytes = .ok v →
        ∃ t, exec (.ofSized w (.moveRegMem rd addr)) s = .next t ∧ t.read d = v ∧
          (d ≠ .ip → t.ip = s.ip + (if w = .w128 then 18 else 3 + BitVec.ofNat 128 w.bytes)) ∧ Frame s t [d, .ip] []) ∧
      (∀ (rb : RegOperand) (b : Reg) (imm : Word), reg s rb = .ok b →
        memRead s (trunc w (s.read b) + trunc w imm) w.bytes = .ok v →
        ∃ t, exec (.ofSized w (.moveRegBaseImm rd rb imm)) s = .next t ∧ t.read d = v ∧
          (d ≠ .ip → t.ip = s.ip + (if w = .w128 then 19 else 4 + BitVec.ofNat 128 w.bytes)) ∧ Frame s t [d, .ip] []) ∧
      (∀ (rb ri : RegOperand) (b i : Reg), reg s rb = .ok b → reg s ri = .ok i →
        memRead s (trunc w (s.read b) + trunc w (s.read i)) w.bytes = .ok v →
        ∃ t, exec (.ofSized w (.moveRegBaseIndex rd rb ri)) s = .next t ∧ t.read d = v ∧
          (d ≠ .ip → t.ip = s.ip + (if w = .w128 then 4 else 5)) ∧ Frame s t [d, .ip] [])

/-- MOVE register to memory completes where its bytes can be written: the low `W` bits of the register lie at the translated
addresses, and every other byte is as it was. Rests on D4, D6, D7. -/
def Obligations.StoreCompletes : Prop :=
  ∀ (w : Width) (addr : Word) (rs : RegOperand) (s : State) (r : Reg) (pas : List Word),
    reg s rs = .ok r → translateRange s .write 0 (trunc w addr) w.bytes = .ok pas →
      (∀ pa ∈ pas, s.inPhysMem pa = true) →
      ∃ t, exec (.ofSized w (.moveMemReg addr rs)) s = .next t ∧ pas.length = w.bytes ∧ HoldsBytes t pas (s.read r) ∧
        t.ip = s.ip + (if w = .w128 then 18 else 3 + BitVec.ofNat 128 w.bytes) ∧ Frame s t [.ip] pas

/-! ### The stack -/

/-- PUSH completes where the `n` bytes below SP can be written: the operand as it was before SP moved lies at the new SP.
Rests on the spec's decision D12. -/
def Obligations.PushCompletes : Prop :=
  ∀ (w : Width) (o : RegOperand) (s : State) (r : Reg) (pas : List Word),
    reg s o = .ok r → translateRange s .write 0 (s.sp - BitVec.ofNat 128 w.bytes) w.bytes = .ok pas →
      (∀ pa ∈ pas, s.inPhysMem pa = true) →
      ∃ t, exec (.ofSized w (.push o)) s = .next t ∧ t.sp = s.sp - BitVec.ofNat 128 w.bytes ∧
        pas.length = w.bytes ∧ HoldsBytes t pas (s.read r) ∧ t.ip = s.ip + (if w = .w128 then 2 else 3) ∧
        Frame s t [.sp, .ip] pas

/-- POP completes where the `n` bytes at SP can be read: SP goes up by `n` and then the destination is written, so that
`POP SP` keeps the popped value and `POP IP` jumps to it. Rests on the spec's decisions D12, D17 and D31. -/
def Obligations.PopCompletes : Prop :=
  ∀ (w : Width) (o : RegOperand) (s : State) (d : Reg) (v : Word),
    reg s o = .ok d → memRead s s.sp w.bytes = .ok v → (d = .clr → v.toNat % 16 ≤ 13) →
      ∃ t, exec (.ofSized w (.pop o)) s = .next t ∧ t.read d = v ∧
        (d ≠ .sp → t.sp = s.sp + BitVec.ofNat 128 w.bytes) ∧
        (d ≠ .ip → t.ip = s.ip + (if w = .w128 then 2 else 3)) ∧ Frame s t [d, .sp, .ip] []

/-- A POP after a PUSH of the same width gives back the value and SP, with paging off and no device (the stack discipline of
R140, the spec's decision D12). -/
def Obligations.PopReturnsWhatPushStored : Prop :=
  ∀ (w : Width) (j k : Fin 32) (s : State),
    s.clr.toNat % 16 = 0 → s.platform.mmioRegions = [] →
      (∀ pa ∈ addressesFrom (s.sp - BitVec.ofNat 128 w.bytes) w.bytes, s.inPhysMem pa = true) →
      ∃ t u, exec (.ofSized w (.push (.named (.gpr j)))) s = .next t ∧
        exec (.ofSized w (.pop (.named (.gpr k)))) t = .next u ∧
        u.read (.gpr k) = trunc w (s.read (.gpr j)) ∧ u.sp = s.sp

/-! ### Control flow -/

/-- JIE, JIL and JMP complete in every state: JIE jumps exactly when ZF is 1, JIL exactly when SF differs from OF, JMP
always, each to its target itself; not taken, IP moves past 17 bytes. The places of the flags are the spec's decision D13. -/
def Obligations.JumpsComplete : Prop :=
  ∀ (s : State) (x : Word),
    (∃ t, exec (.jie x) s = .next t ∧ Frame s t [.ip] [] ∧
      t.ip = if s.flags.getLsbD 0 = true then x else s.ip + 17) ∧
    (∃ t, exec (.jil x) s = .next t ∧ Frame s t [.ip] [] ∧
      t.ip = if s.flags.getLsbD 1 ≠ s.flags.getLsbD 2 then x else s.ip + 17) ∧
    (∃ t, exec (.jmp x) s = .next t ∧ Frame s t [.ip] [] ∧ t.ip = x)

/-- JSR completes where the 16 bytes below SP can be written: they hold `IP + 17`, SP is 16 lower and IP is the target.
Rests on the spec's decision D12. -/
def Obligations.JsrCompletes : Prop :=
  ∀ (s : State) (x : Word) (pas : List Word),
    translateRange s .write 0 (s.sp - 16) 16 = .ok pas → (∀ pa ∈ pas, s.inPhysMem pa = true) →
      ∃ t, exec (.jsr x) s = .next t ∧ t.ip = x ∧ t.sp = s.sp - 16 ∧ pas.length = 16 ∧
        HoldsBytes t pas (s.ip + 17) ∧ Frame s t [.sp, .ip] pas

/-- RFS completes where the 16 bytes at SP can be read: IP is their value and SP is 16 higher; the privilege level stays.
Rests on the spec's decision D12. -/
def Obligations.RfsCompletes : Prop :=
  ∀ (s : State) (v : Word), memRead s s.sp 16 = .ok v →
    ∃ t, exec .rfs s = .next t ∧ t.ip = v ∧ t.sp = s.sp + 16 ∧ Frame s t [.sp, .ip] []

/-- RFS after JSR goes on at the instruction after the JSR, with SP as before, with paging off and no device. -/
def Obligations.RfsReturnsPastTheJsr : Prop :=
  ∀ (s : State) (x : Word),
    s.clr.toNat % 16 = 0 → s.platform.mmioRegions = [] →
      (∀ pa ∈ addressesFrom (s.sp - 16) 16, s.inPhysMem pa = true) →
      ∃ t u, exec (.jsr x) s = .next t ∧ t.ip = x ∧ exec .rfs t = .next u ∧ u.ip = s.ip + 17 ∧ u.sp = s.sp ∧ u.pl = s.pl

/-- U2K completes at both levels where the platform gives an entry and the 16 bytes below SP can be written: they hold
`IP + 1`, the level is privileged and IP is the entry. Rests on the spec's decision D29. -/
def Obligations.U2kCompletes : Prop :=
  ∀ (s : State) (entry : Word) (pas : List Word),
    s.platform.u2kEntry = some entry → translateRange s .write 0 (s.sp - 16) 16 = .ok pas →
      (∀ pa ∈ pas, s.inPhysMem pa = true) →
      ∃ t, exec .u2k s = .next t ∧ t.pl = .privileged ∧ t.ip = entry ∧ t.sp = s.sp - 16 ∧ pas.length = 16 ∧
        HoldsBytes t pas (s.ip + 1) ∧ Frame (s.withPl .privileged) t [.sp, .ip] pas

/-- U2K without an entry is refused, and no other step is. The spec's decision D29. -/
def Obligations.OnlyU2kWithoutEntryIsRefused : Prop :=
  (∀ s : State, s.platform.u2kEntry = none → exec .u2k s = .refused .noU2kEntry) ∧
  (∀ (s : State) (q : Refusal), step s = .refused q →
    q = .noU2kEntry ∧ fetchInstr s = .ok .u2k ∧ s.platform.u2kEntry = none)

/-! ### Arithmetic -/

/-- TEST completes at every width: TEMP and the flags take the AND of the `W`-bit operands, no operand is written, OF is 0
and FLAGS[127:3] stay. Rests on the spec's decisions D13 and D14. -/
def Obligations.TestCompletes : Prop :=
  ∀ (w : Width) (oa ob : RegOperand) (s : State) (a b : Reg), reg s oa = .ok a → reg s ob = .ok b →
    let res := trunc w (s.read a &&& s.read b)
    ∃ t, exec (.ofSized w (.test oa ob)) s = .next t ∧ t.temp = res ∧
      FlagsAre t (decide (res = 0)) (res.getLsbD (w.bits - 1)) false s.flags ∧
      t.ip = s.ip + (if w = .w128 then 3 else 4) ∧ Frame s t [.flags, .ip] []

/-- XOR completes at every width: the first operand holds the XOR of the `W`-bit operands with zeros above, and the three
flags follow it; where the first operand is FLAGS the result is written first and the flags win on bits 2:0. Rests on the
spec's decisions D5, D13, D14, D17 and D31. -/
def Obligations.XorCompletes : Prop :=
  ∀ (w : Width) (oa ob : RegOperand) (s : State) (a b : Reg), reg s oa = .ok a → reg s ob = .ok b →
    let res := trunc w (s.read a ^^^ s.read b)
    (a = .clr → res.toNat % 16 ≤ 13) →
    ∃ t, exec (.ofSized w (.xor oa ob)) s = .next t ∧ (a ≠ .flags → t.read a = res) ∧
      FlagsAre t (decide (res = 0)) (res.getLsbD (w.bits - 1)) false (if a = .flags then res else s.flags) ∧
      (a ≠ .ip → t.ip = s.ip + (if w = .w128 then 3 else 4)) ∧ Frame s t [a, .flags, .ip] []

/-- SHL completes at every width: the operand holds its `W`-bit value times `2^c` modulo `2^W`, 0 once `c` reaches `W`; ZF and
SF follow it, and nothing is said of OF, which takes a free value (log entry 14). Rests on the spec's decisions D5, D13,
D14, D16, D17 and D31. -/
def Obligations.ShlCompletes : Prop :=
  ∀ (w : Width) (oa : RegOperand) (count : Word) (s : State) (a : Reg), reg s oa = .ok a →
    let c := count.toNat % 2 ^ w.bits
    let res : Word := if w.bits ≤ c then 0 else BitVec.ofNat 128 ((s.read a).toNat % 2 ^ w.bits * 2 ^ c % 2 ^ w.bits)
    (a = .clr → res.toNat % 16 ≤ 13) →
    ∃ t, exec (.ofSized w (.shl oa count)) s = .next t ∧ (a ≠ .flags → t.read a = res) ∧
      (∃ o, FlagsAre t (decide (res = 0)) (res.getLsbD (w.bits - 1)) o (if a = .flags then res else s.flags)) ∧
      (a ≠ .ip → t.ip = s.ip + (if w = .w128 then 18 else 3 + BitVec.ofNat 128 w.bytes)) ∧
      Frame s t [a, .flags, .ip] []

/-- COMP completes at every width: TEMP and the flags take the register minus the immediate, OF is 1 exactly when the
difference of the signed values does not fit, and no operand is written. Rests on the spec's decisions D13 and D14. -/
def Obligations.CompCompletes : Prop :=
  ∀ (w : Width) (oa : RegOperand) (imm : Word) (s : State) (r : Reg), reg s oa = .ok r →
    let a := trunc w (s.read r)
    let b := trunc w imm
    let res := BitVec.ofNat 128 ((a.toNat + 2 ^ w.bits - b.toNat) % 2 ^ w.bits)
    let exact := signedAt w a - signedAt w b
    ∃ t, exec (.ofSized w (.comp oa imm)) s = .next t ∧ t.temp = res ∧
      FlagsAre t (decide (res = 0)) (res.getLsbD (w.bits - 1))
        (decide (exact < -2 ^ (w.bits - 1) ∨ 2 ^ (w.bits - 1) ≤ exact)) s.flags ∧
      t.ip = s.ip + (if w = .w128 then 18 else 3 + BitVec.ofNat 128 w.bytes) ∧ Frame s t [.flags, .ip] []

/-- After COMP, JIE is taken exactly when the operands are equal and JIL exactly when the register is less than the immediate
as signed `W`-bit numbers (the spec's inference R171 from its decision D14). -/
def Obligations.CompDecidesTheJumps : Prop :=
  ∀ (w : Width) (oa : RegOperand) (imm : Word) (s : State) (r : Reg) (x : Word), reg s oa = .ok r →
    ∃ t u v, exec (.ofSized w (.comp oa imm)) s = .next t ∧
      exec (.jie x) t = .next u ∧ exec (.jil x) t = .next v ∧
      u.ip = (if trunc w (s.read r) = trunc w imm then x else t.ip + 17) ∧
      v.ip = (if signedAt w (s.read r) < signedAt w imm then x else t.ip + 17)

/-! ### Traps of the instructions -/

/-- An instruction that would write a paging level of 14 or 15 to CLR raises `ReservedValue`, POP before SP moves. Rests on
the spec's decisions D17 and D35. -/
def Obligations.ReservedPagingLevelStops : Prop :=
  ∀ (w : Width) (s : State) (rd : RegOperand), reg s rd = .ok .clr →
    (∀ rs r, reg s rs = .ok r → 13 < (s.read r).toNat % 16 →
      exec (.ofSized w (.moveRegReg rd rs)) s = .fault (.reservedValue .clrPgl)) ∧
    (∀ addr v, memRead s (trunc w addr) w.bytes = .ok v → 13 < v.toNat % 16 →
      exec (.ofSized w (.moveRegMem rd addr)) s = .fault (.reservedValue .clrPgl)) ∧
    (∀ rb b imm v, reg s rb = .ok b → memRead s (trunc w (s.read b) + trunc w imm) w.bytes = .ok v → 13 < v.toNat % 16 →
      exec (.ofSized w (.moveRegBaseImm rd rb imm)) s = .fault (.reservedValue .clrPgl)) ∧
    (∀ rb ri b i v, reg s rb = .ok b → reg s ri = .ok i →
      memRead s (trunc w (s.read b) + trunc w (s.read i)) w.bytes = .ok v → 13 < v.toNat % 16 →
      exec (.ofSized w (.moveRegBaseIndex rd rb ri)) s = .fault (.reservedValue .clrPgl)) ∧
    (∀ v, memRead s s.sp w.bytes = .ok v → 13 < v.toNat % 16 →
      exec (.ofSized w (.pop rd)) s = .fault (.reservedValue .clrPgl)) ∧
    (∀ rb b, reg s rb = .ok b → 13 < (s.clr ^^^ s.read b).toNat % 16 →
      exec (.ofSized w (.xor rd rb)) s = .fault (.reservedValue .clrPgl)) ∧
    (∀ count : Word, count.toNat % 2 ^ w.bits < 4 → 13 < s.clr.toNat * 2 ^ (count.toNat % 2 ^ w.bits) % 16 →
      exec (.ofSized w (.shl rd count)) s = .fault (.reservedValue .clrPgl))

/-- A data access that raises a fault ends its instruction with that fault: the loads, POP, RFS, the store, PUSH, JSR and
U2K. -/
def Obligations.AccessFaultEndsTheInstruction : Prop :=
  ∀ (w : Width) (s : State) (o : RegOperand) (r : Reg) (f : Fault), reg s o = .ok r →
    (∀ addr, memRead s (trunc w addr) w.bytes = .error f → exec (.ofSized w (.moveRegMem o addr)) s = .fault f) ∧
    (∀ rb b imm, reg s rb = .ok b → memRead s (trunc w (s.read b) + trunc w imm) w.bytes = .error f →
      exec (.ofSized w (.moveRegBaseImm o rb imm)) s = .fault f) ∧
    (∀ rb ri b i, reg s rb = .ok b → reg s ri = .ok i →
      memRead s (trunc w (s.read b) + trunc w (s.read i)) w.bytes = .error f →
      exec (.ofSized w (.moveRegBaseIndex o rb ri)) s = .fault f) ∧
    (memRead s s.sp w.bytes = .error f → exec (.ofSized w (.pop o)) s = .fault f) ∧
    (memRead s s.sp 16 = .error f → exec .rfs s = .fault f) ∧
    (∀ addr, memWrite s (trunc w addr) w.bytes (trunc w (s.read r)) = .error f →
      exec (.ofSized w (.moveMemReg addr o)) s = .fault f) ∧
    (memWrite s (s.sp - BitVec.ofNat 128 w.bytes) w.bytes (trunc w (s.read r)) = .error f →
      exec (.ofSized w (.push o)) s = .fault f) ∧
    (∀ x, memWrite s (s.sp - 16) 16 (s.ip + 17) = .error f → exec (.jsr x) s = .fault f) ∧
    (∀ entry, s.platform.u2kEntry = some entry → memWrite s (s.sp - 16) 16 (s.ip + 1) = .error f →
      exec .u2k s = .fault f)

/-- Which instruction can raise what, after its fetch, at a legal paging level: the fault of its first bad register operand;
a fault of a data read or a data write, for those that make one; `ReservedValue`, for those with CLR as destination; and
nothing else. The spec's table R204, which it derives from its instruction rules and decisions. -/
def Obligations.EachInstructionRaisesOnlyItsFaults : Prop :=
  ∀ (i : Instr) (s : State) (f : Fault), s.clr.toNat % 16 ≤ 13 → exec i s = .fault f →
    (∃ w body, sizedOf i = some (w, body) ∧ firstOperandFault s (operandsOf body) = some f ∧
      ((∃ r, f = .upe r) ∨ f = .illegalEncoding .reservedRegister ∨ f = .illegalEncoding .inaccessibleRegister)) ∨
    (readsMemory i = true ∧ accessFault .read f = true) ∨
    (writesMemory i = true ∧ accessFault .write f = true) ∨
    (f = .reservedValue .clrPgl ∧ ∃ w body, sizedOf i = some (w, body) ∧ destinationOf body = some (.named .clr))

/-- Which fault a fetch can raise, at a legal paging level: a fault of an `exec` access, or one of the decoder's. The spec's
table R204. -/
def Obligations.FetchRaisesOnlyItsFaults : Prop :=
  ∀ (s : State) (f : Fault), s.clr.toNat % 16 ≤ 13 → fetchInstr s = .error f →
    accessFault .exec f = true ∨ f = .ipo 0x0B ∨ f = .ipo 0x0C ∨
    f = .illegalEncoding .undefinedOpcode ∨ f = .illegalEncoding .doublePrefix ∨ f = .illegalEncoding .prefixOnFixedWidth

/-! ### Memory and translation -/

/-- R61: at paging level 0 the physical address is the virtual address, for every access, address and privilege level:
nothing is checked and no table is read. (`pglOf` reads the level from CLR, wherever its bits are.) -/
def Obligations.LevelZeroIsIdentity : Prop :=
  ∀ (s : State) (acc : Access) (k : Nat) (va : Word), pglOf s.clr = 0 → translateByte s acc k va = .ok va

/-- At paging level 1 the address is PTP plus the offset, and #NCC is the only interrupt. The spec's inference R71 from its
decision D18. -/
def Obligations.LevelOneReadsNoTable : Prop :=
  ∀ (s : State) (acc : Access) (k : Nat) (va : Word), s.clr.toNat % 16 = 1 →
    ((∀ i, 12 ≤ i → i < 128 → va.getLsbD i = va.getLsbD 11) →
      translateByte s acc k va = .ok (s.ptp + BitVec.ofNat 128 (va.toNat % 4096))) ∧
    ((∃ i, 12 ≤ i ∧ i < 128 ∧ va.getLsbD i ≠ va.getLsbD 11) → translateByte s acc k va = .error (.ncc va))

/-- At levels 1 to 13 an access raises #NCC exactly when a bit above the translated part differs from its top bit. Rests on
the spec's decisions D18 and D22. -/
def Obligations.NonCanonicalRaisesNcc : Prop :=
  ∀ (s : State) (acc : Access) (k : Nat) (va : Word) (n : Nat), s.clr.toNat % 16 = n → 1 ≤ n → n ≤ 13 →
    (translateByte s acc k va = .error (.ncc va) ↔
      ∃ i, 12 + 9 * (n - 1) ≤ i ∧ i < 128 ∧ va.getLsbD i ≠ va.getLsbD (12 + 9 * (n - 1) - 1))

/-- A canonical address at levels 1 to 13 is walked from PTP through `N-1` tables, and after the last the page offset is
added. Rests on the spec's decisions D18 and D20. -/
def Obligations.WalkStartsAtPtp : Prop :=
  ∀ (s : State) (acc : Access) (k : Nat) (va : Word) (n : Nat), s.clr.toNat % 16 = n → 1 ≤ n → n ≤ 13 →
    (∀ i, 12 + 9 * (n - 1) ≤ i → i < 128 → va.getLsbD i = va.getLsbD (12 + 9 * (n - 1) - 1)) →
      translateByte s acc k va = walk s acc k va (n - 1) s.ptp ∧
      ∀ base : Word, walk s acc k va 0 base = .ok (base + BitVec.ofNat 128 (va.toNat % 4096))

/-- One table of a walk, with `m + 1` tables left: the entry lies at `base` plus 8 times the index `va[12+9m+8 : 12+9m]`. Where
one of its 8 bytes is outside `PHYS_MEM` the walk raises `PhysicalAccessFault` of the entry's address; else the entry is those
8 bytes, the lowest address in the lowest bits, and its checks come in their order, and the next table when none fails. Rests
on the spec's decisions D4, D19, D20, D21, D23, D27 and D39. -/
def Obligations.EntryChecksInOrder : Prop :=
  ∀ (s : State) (acc : Access) (k : Nat) (va : Word) (m : Nat) (base : Word),
    let at' := base + 8 * BitVec.ofNat 128 (va.toNat / 2 ^ (12 + 9 * m) % 512)
    ((∃ j < 8, s.inPhysMem (at' + BitVec.ofNat 128 j) = false) →
      walk s acc k va (m + 1) base = .error (.physicalAccessFault at')) ∧
    ∀ e : Word, (∀ j < 8, s.inPhysMem (at' + BitVec.ofNat 128 j) = true) →
    (∀ j < 8, e.extractLsb' (8 * j) 8 = s.physByte ⟨acc, k, m + 2⟩ (at' + BitVec.ofNat 128 j)) →
    e.toNat < 2 ^ 64 →
    let present := e.getLsbD 1 = true
    let nlt := e.toNat / 2 ^ 5 % 2 ^ 40
    let clean := present ∧ e.toNat / 2 ^ 45 % 2 ^ 19 = 0
    let linked := clean ∧ nlt ≠ 0
    let open' := linked ∧ ¬(e.getLsbD 3 = true ∧ s.pl = .unprivileged)
    let out := walk s acc k va (m + 1) base
    (¬present → out = .error (.npp va)) ∧
    (present → ¬clean → out = .error (.nzr va)) ∧
    (clean → ¬linked → out = .error (.nnl va)) ∧
    (linked → ¬open' → out = .error (.upp va)) ∧
    (open' → acc = .read → e.getLsbD 0 = false → out = .error (.urp va)) ∧
    (open' → acc = .write → e.getLsbD 2 = false → out = .error (.uwp va)) ∧
    (open' → acc = .exec → e.getLsbD 4 = true → out = .error (.nep va)) ∧
    (open' → (acc = .read → e.getLsbD 0 = true) → (acc = .write → e.getLsbD 2 = true) →
      (acc = .exec → e.getLsbD 4 = false) → out = walk s acc k va m (BitVec.ofNat 128 (nlt * 4096)))

/-- R67: RED = 1 and WRT = 1 allow and NEX = 1 forbids; an all-zero entry is not present. (`params.pte` says where the bits
are.) -/
def Obligations.NexForbidsWhereRedAndWrtAllow : Prop :=
  ∀ (e va : Word) (acc : Access) (pl : Privilege),
    (entryDenies e .read va = none ↔ e.getLsbD params.pte.red = true) ∧
    (entryDenies e .write va = none ↔ e.getLsbD params.pte.wrt = true) ∧
    (entryDenies e .exec va = none ↔ e.getLsbD params.pte.nex = false) ∧
    entryFault 0 acc pl va = some (.npp va)

/-- With tables, a translated address is a page number below `2^40` times 4096 plus the offset: at most 52 bits. Rests on the
spec's decisions D18 and D20. -/
def Obligations.TranslatedAddressHasFiftyTwoBits : Prop :=
  ∀ (s : State) (acc : Access) (k : Nat) (va pa : Word), 2 ≤ s.clr.toNat % 16 → translateByte s acc k va = .ok pa →
    ∃ nlt : Nat, 0 < nlt ∧ nlt < 2 ^ 40 ∧ pa.toNat = nlt * 4096 + va.toNat % 4096

/-- With tables and no device, translation maps a page to a page: two addresses of one page go to one page. Rests on the
spec's decision D18. -/
def Obligations.TranslationMapsAPageToAPage : Prop :=
  ∀ (s : State) (acc : Access) (k k' : Nat) (va va' pa : Word), 2 ≤ s.clr.toNat % 16 → s.platform.mmioRegions = [] →
    translateByte s acc k va = .ok pa → va.toNat / 4096 = va'.toNat / 4096 →
      ∃ pa', translateByte s acc k' va' = .ok pa' ∧ pa'.toNat / 4096 = pa.toNat / 4096

/-- A data access raises the fault of the first of its bytes, in increasing address order, that cannot be translated; a byte
outside `PHYS_MEM` faults after all are translated. Rests on the spec's decisions D23, D24 and D35. -/
def Obligations.FirstFaultOfAnAccess : Prop :=
  ∀ (s : State) (va v : Word) (n k : Nat) (f : Fault), k < n →
    ((∀ j, j < k → ∃ pa, translateByte s .read j (va + BitVec.ofNat 128 j) = .ok pa) →
      translateByte s .read k (va + BitVec.ofNat 128 k) = .error f → memRead s va n = .error f) ∧
    ((∀ j, j < k → ∃ pa, translateByte s .write j (va + BitVec.ofNat 128 j) = .ok pa) →
      translateByte s .write k (va + BitVec.ofNat 128 k) = .error f → memWrite s va n v = .error f) ∧
    (∀ pas : List Word, ∀ h : k < pas.length, (∀ j (hj : j < k), s.inPhysMem (pas[j]'(hj.trans h)) = true) →
      s.inPhysMem pas[k] = false →
      (translateRange s .read 0 va n = .ok pas → memRead s va n = .error (.physicalAccessFault pas[k])) ∧
      (translateRange s .write 0 va n = .ok pas → memWrite s va n v = .error (.physicalAccessFault pas[k])))

/-- A data read whose bytes are all translated and in `PHYS_MEM` gives them, the lowest address in the lowest bits, and zeros
above. Rests on the spec's decisions D4 and D24. -/
def Obligations.MemReadAssemblesTheBytes : Prop :=
  ∀ (s : State) (va : Word) (n : Nat) (pas : List Word), n ≤ 16 → translateRange s .read 0 va n = .ok pas →
    (∀ pa ∈ pas, s.inPhysMem pa = true) →
    pas.length = n ∧ ∃ v, memRead s va n = .ok v ∧
      (∀ (k : Nat) (h : k < pas.length), v.extractLsb' (8 * k) 8 = s.physByte ⟨.read, k, 0⟩ pas[k]) ∧
      v.toNat < 2 ^ (8 * n)

/-- After a 16-byte write of `v` at `a`, a 1-byte read at `a + k` gives bits `8k+7 : 8k` of `v`, with paging off and no
device. Rests on the spec's decision D4. -/
def Obligations.NarrowReadSeesTheBytesItNames : Prop :=
  ∀ (s t : State) (a v : Word) (k : Nat), s.clr.toNat % 16 = 0 → s.platform.mmioRegions = [] → k < 16 →
    memWrite s a 16 v = .ok t → memRead t (a + BitVec.ofNat 128 k) 1 = .ok ((v.extractLsb' (8 * k) 8).setWidth 128)

/-- A stored byte is what the next fetch of its address finds, with paging off and no device. Rests on the spec's
decision D26. -/
def Obligations.StoreIsSeenByTheNextFetch : Prop :=
  ∀ (s t : State) (a v : Word) (w : Width) (k : Nat), s.clr.toNat % 16 = 0 → s.platform.mmioRegions = [] →
    k < w.bytes → memWrite s a w.bytes v = .ok t →
      fetchByte (t.withIp (a + BitVec.ofNat 128 k)) 0 = .ok (v.extractLsb' (8 * k) 8)

/-! ### The whole machine -/

/-- What the spec gives for reset: paging level 13 and the privileged level (its decision D30), and no MMIO region (D34). -/
def Obligations.ResetValuesOfTheSpec : Prop :=
  State.reset.clr.toNat % 16 = 13 ∧ State.reset.pl = .privileged ∧ State.reset.platform.mmioRegions = []

/-- The machine after reset meets the invariant: memory in canonical form and inside `PHYS_MEM`, a legal paging level. -/
def Obligations.ResetMeetsTheInvariant : Prop := State.reset.inv = true

/-- Every step keeps the invariant, from every state that meets it: memory stays in canonical form and inside `PHYS_MEM`, and
CLR never takes a reserved paging level. Rests on the spec's decisions D17 and D23. -/
def Obligations.StepKeepsTheInvariant : Prop :=
  ∀ s t : State, s.inv = true → step s = .next t → t.inv = true

/-- No step changes `PHYS_MEM`, `MMIO_REGIONS` or `U2K_ENTRY`, and each counts one draw (the model's own, log entry 18). -/
def Obligations.StepKeepsThePlatform : Prop :=
  ∀ s t : State, step s = .next t → t.platform = s.platform ∧ t.draws = s.draws + 1

/-- The level never goes from privileged to unprivileged, and only U2K makes it privileged. The spec's decision D28. -/
def Obligations.PrivilegeIsNeverLowered : Prop :=
  ∀ s t : State, step s = .next t →
    (s.pl = .privileged → t.pl = .privileged) ∧
    (s.pl = .unprivileged → (t.pl = .privileged ↔ fetchInstr s = .ok .u2k))

/-- R226: what differs between the levels, in full. Naming PTP, SP, IP, FLAGS, EADDR or TEMP raises #UPE; an access through an
entry with PVP = 1 raises #UPP where no earlier check does; and nothing else depends on the level: unless an unprivileged
step raises one of those two, it is the privileged step of the same state, but for the level itself. -/
def Obligations.LevelsDifferOnlyInUpeAndUpp : Prop :=
  ∀ s : State, s.pl = .unprivileged →
    (∀ r ∈ [Reg.ptp, .sp, .ip, .flags, .eaddr, .temp], reg s (.named r) = .error (.upe r)) ∧
    (∀ (e va : Word) (acc : Access), e.getLsbD 1 = true → e.toNat / 2 ^ 45 % 2 ^ 19 = 0 → e.toNat / 2 ^ 5 % 2 ^ 40 ≠ 0 →
      e.getLsbD 3 = true → entryFault e acc s.pl va = some (.upp va)) ∧
    ((∃ r, step s = .fault (.upe r)) ∨ (∃ va, step s = .fault (.upp va)) ∨
      match step (s.withPl .privileged) with
      | .next u => ∃ t, step s = .next t ∧ u = t.withPl .privileged
      | .fault f => step s = .fault f
      | .refused r => step s = .refused r)

/-- An unprivileged step changes neither PTP nor FLAGS[127:3], and SP and IP only as PUSH, POP, JSR, RFS and U2K, and the
advance and the jumps, do: no unprivileged instruction writes them as a named operand. Rests on D13. -/
def Obligations.UnprivilegedStepProtectsTheRegisters : Prop :=
  ∀ (s t : State) (i : Instr), s.pl = .unprivileged → fetchInstr s = .ok i → step s = .next t →
    t.ptp = s.ptp ∧ (∀ n : Nat, 3 ≤ n → t.flags.getLsbD n = s.flags.getLsbD n) ∧
    (∀ (w : Width) (body : Sized), sizedOf i = some (w, body) →
      t.ip = s.ip + BitVec.ofNat 128 i.length ∧
      ((∀ o, body ≠ .push o) → (∀ o, body ≠ .pop o) → t.sp = s.sp))

/-- FLAGS changes only through TEST, XOR, SHL and COMP, and through a privileged instruction that names it as its destination;
the four leave FLAGS[127:3] unless they name it. Rests on the spec's decisions D13, D14 and D15. -/
def Obligations.OnlyTheAluAndPrivilegedWritesChangeFlags : Prop :=
  ∀ (s t : State) (i : Instr), fetchInstr s = .ok i → step s = .next t →
    (t.flags ≠ s.flags → ∃ w body, sizedOf i = some (w, body) ∧
      (setsFlags body = true ∨ (s.pl = .privileged ∧ destinationOf body = some (.named .flags)))) ∧
    ((∀ w body, sizedOf i = some (w, body) → destinationOf body ≠ some (.named .flags)) →
      ∀ n : Nat, 3 ≤ n → t.flags.getLsbD n = s.flags.getLsbD n)

/-- Only MOVE form 04, PUSH, JSR and U2K write data memory: after any other instruction every byte outside the devices'
regions reads as before. -/
def Obligations.OnlyStoringInstructionsChangeMemory : Prop :=
  ∀ (s t : State) (i : Instr), fetchInstr s = .ok i → writesMemory i = false → step s = .next t →
    ∀ (ev : ReadEvent) (pa : Word), s.inMmio pa = false → t.physByte ev pa = s.physByte ev pa

/-- EADDR and TEMP are never observed: the step of a state does not depend on what they hold. The spec's decision D41. -/
def Obligations.HiddenRegistersAreNotObserved : Prop :=
  ∀ (s : State) (x y : Word), step ((s.withEaddr x).withTemp y) = step s

/-- PTP has no effect on an unprivileged program while paging is off: two states that differ only in PTP take the same step
and then differ only in PTP. -/
def Obligations.PtpHasNoEffectAtLevelZero : Prop :=
  ∀ (s : State) (v : Word), s.clr.toNat % 16 = 0 → s.pl = .unprivileged →
    step (s.withPtp v) = match step s with
      | .next t => .next (t.withPtp v)
      | .fault f => .fault f
      | .refused r => .refused r

/-- The end condition of the spec's programs (its decision D37): at a JMP to its own address the machine runs for ever without
a fault, with no device. -/
def Obligations.SelfJumpRunsForEver : Prop :=
  ∀ (s : State), AtSelfJump s → s.platform.mmioRegions = [] → ∀ n : Nat, SafeRun n s
end

