-- ==== Sys2Proof/Laws/State.lean ====
section
/-! SUPPORT. One lemma per field of State per update of it, true by `rfl`, and reading a register after writing one. -/

namespace Sys2Proof.Machine

/-! ### withGpr -/

@[simp] theorem State.withGpr_gpr (s : State) (k : Fin 32) (v : Word) : (s.withGpr k v).gpr = s.gpr.set k v := rfl
@[simp] theorem State.withGpr_sp (s : State) (k : Fin 32) (v : Word) : (s.withGpr k v).sp = s.sp := rfl
@[simp] theorem State.withGpr_ip (s : State) (k : Fin 32) (v : Word) : (s.withGpr k v).ip = s.ip := rfl
@[simp] theorem State.withGpr_ptp (s : State) (k : Fin 32) (v : Word) : (s.withGpr k v).ptp = s.ptp := rfl
@[simp] theorem State.withGpr_flags (s : State) (k : Fin 32) (v : Word) : (s.withGpr k v).flags = s.flags := rfl
@[simp] theorem State.withGpr_clr (s : State) (k : Fin 32) (v : Word) : (s.withGpr k v).clr = s.clr := rfl
@[simp] theorem State.withGpr_eaddr (s : State) (k : Fin 32) (v : Word) : (s.withGpr k v).eaddr = s.eaddr := rfl
@[simp] theorem State.withGpr_temp (s : State) (k : Fin 32) (v : Word) : (s.withGpr k v).temp = s.temp := rfl
@[simp] theorem State.withGpr_pl (s : State) (k : Fin 32) (v : Word) : (s.withGpr k v).pl = s.pl := rfl
@[simp] theorem State.withGpr_mem (s : State) (k : Fin 32) (v : Word) : (s.withGpr k v).mem = s.mem := rfl
@[simp] theorem State.withGpr_platform (s : State) (k : Fin 32) (v : Word) : (s.withGpr k v).platform = s.platform := rfl
@[simp] theorem State.withGpr_draws (s : State) (k : Fin 32) (v : Word) : (s.withGpr k v).draws = s.draws := rfl

/-! ### withSp -/

@[simp] theorem State.withSp_gpr (s : State) (v : Word) : (s.withSp v).gpr = s.gpr := rfl
@[simp] theorem State.withSp_sp (s : State) (v : Word) : (s.withSp v).sp = v := rfl
@[simp] theorem State.withSp_ip (s : State) (v : Word) : (s.withSp v).ip = s.ip := rfl
@[simp] theorem State.withSp_ptp (s : State) (v : Word) : (s.withSp v).ptp = s.ptp := rfl
@[simp] theorem State.withSp_flags (s : State) (v : Word) : (s.withSp v).flags = s.flags := rfl
@[simp] theorem State.withSp_clr (s : State) (v : Word) : (s.withSp v).clr = s.clr := rfl
@[simp] theorem State.withSp_eaddr (s : State) (v : Word) : (s.withSp v).eaddr = s.eaddr := rfl
@[simp] theorem State.withSp_temp (s : State) (v : Word) : (s.withSp v).temp = s.temp := rfl
@[simp] theorem State.withSp_pl (s : State) (v : Word) : (s.withSp v).pl = s.pl := rfl
@[simp] theorem State.withSp_mem (s : State) (v : Word) : (s.withSp v).mem = s.mem := rfl
@[simp] theorem State.withSp_platform (s : State) (v : Word) : (s.withSp v).platform = s.platform := rfl
@[simp] theorem State.withSp_draws (s : State) (v : Word) : (s.withSp v).draws = s.draws := rfl

/-! ### withIp -/

@[simp] theorem State.withIp_gpr (s : State) (v : Word) : (s.withIp v).gpr = s.gpr := rfl
@[simp] theorem State.withIp_sp (s : State) (v : Word) : (s.withIp v).sp = s.sp := rfl
@[simp] theorem State.withIp_ip (s : State) (v : Word) : (s.withIp v).ip = v := rfl
@[simp] theorem State.withIp_ptp (s : State) (v : Word) : (s.withIp v).ptp = s.ptp := rfl
@[simp] theorem State.withIp_flags (s : State) (v : Word) : (s.withIp v).flags = s.flags := rfl
@[simp] theorem State.withIp_clr (s : State) (v : Word) : (s.withIp v).clr = s.clr := rfl
@[simp] theorem State.withIp_eaddr (s : State) (v : Word) : (s.withIp v).eaddr = s.eaddr := rfl
@[simp] theorem State.withIp_temp (s : State) (v : Word) : (s.withIp v).temp = s.temp := rfl
@[simp] theorem State.withIp_pl (s : State) (v : Word) : (s.withIp v).pl = s.pl := rfl
@[simp] theorem State.withIp_mem (s : State) (v : Word) : (s.withIp v).mem = s.mem := rfl
@[simp] theorem State.withIp_platform (s : State) (v : Word) : (s.withIp v).platform = s.platform := rfl
@[simp] theorem State.withIp_draws (s : State) (v : Word) : (s.withIp v).draws = s.draws := rfl

/-! ### withPtp -/

@[simp] theorem State.withPtp_gpr (s : State) (v : Word) : (s.withPtp v).gpr = s.gpr := rfl
@[simp] theorem State.withPtp_sp (s : State) (v : Word) : (s.withPtp v).sp = s.sp := rfl
@[simp] theorem State.withPtp_ip (s : State) (v : Word) : (s.withPtp v).ip = s.ip := rfl
@[simp] theorem State.withPtp_ptp (s : State) (v : Word) : (s.withPtp v).ptp = v := rfl
@[simp] theorem State.withPtp_flags (s : State) (v : Word) : (s.withPtp v).flags = s.flags := rfl
@[simp] theorem State.withPtp_clr (s : State) (v : Word) : (s.withPtp v).clr = s.clr := rfl
@[simp] theorem State.withPtp_eaddr (s : State) (v : Word) : (s.withPtp v).eaddr = s.eaddr := rfl
@[simp] theorem State.withPtp_temp (s : State) (v : Word) : (s.withPtp v).temp = s.temp := rfl
@[simp] theorem State.withPtp_pl (s : State) (v : Word) : (s.withPtp v).pl = s.pl := rfl
@[simp] theorem State.withPtp_mem (s : State) (v : Word) : (s.withPtp v).mem = s.mem := rfl
@[simp] theorem State.withPtp_platform (s : State) (v : Word) : (s.withPtp v).platform = s.platform := rfl
@[simp] theorem State.withPtp_draws (s : State) (v : Word) : (s.withPtp v).draws = s.draws := rfl

/-! ### withFlags -/

@[simp] theorem State.withFlags_gpr (s : State) (v : Word) : (s.withFlags v).gpr = s.gpr := rfl
@[simp] theorem State.withFlags_sp (s : State) (v : Word) : (s.withFlags v).sp = s.sp := rfl
@[simp] theorem State.withFlags_ip (s : State) (v : Word) : (s.withFlags v).ip = s.ip := rfl
@[simp] theorem State.withFlags_ptp (s : State) (v : Word) : (s.withFlags v).ptp = s.ptp := rfl
@[simp] theorem State.withFlags_flags (s : State) (v : Word) : (s.withFlags v).flags = v := rfl
@[simp] theorem State.withFlags_clr (s : State) (v : Word) : (s.withFlags v).clr = s.clr := rfl
@[simp] theorem State.withFlags_eaddr (s : State) (v : Word) : (s.withFlags v).eaddr = s.eaddr := rfl
@[simp] theorem State.withFlags_temp (s : State) (v : Word) : (s.withFlags v).temp = s.temp := rfl
@[simp] theorem State.withFlags_pl (s : State) (v : Word) : (s.withFlags v).pl = s.pl := rfl
@[simp] theorem State.withFlags_mem (s : State) (v : Word) : (s.withFlags v).mem = s.mem := rfl
@[simp] theorem State.withFlags_platform (s : State) (v : Word) : (s.withFlags v).platform = s.platform := rfl
@[simp] theorem State.withFlags_draws (s : State) (v : Word) : (s.withFlags v).draws = s.draws := rfl

/-! ### withClr -/

@[simp] theorem State.withClr_gpr (s : State) (v : Word) : (s.withClr v).gpr = s.gpr := rfl
@[simp] theorem State.withClr_sp (s : State) (v : Word) : (s.withClr v).sp = s.sp := rfl
@[simp] theorem State.withClr_ip (s : State) (v : Word) : (s.withClr v).ip = s.ip := rfl
@[simp] theorem State.withClr_ptp (s : State) (v : Word) : (s.withClr v).ptp = s.ptp := rfl
@[simp] theorem State.withClr_flags (s : State) (v : Word) : (s.withClr v).flags = s.flags := rfl
@[simp] theorem State.withClr_clr (s : State) (v : Word) : (s.withClr v).clr = v := rfl
@[simp] theorem State.withClr_eaddr (s : State) (v : Word) : (s.withClr v).eaddr = s.eaddr := rfl
@[simp] theorem State.withClr_temp (s : State) (v : Word) : (s.withClr v).temp = s.temp := rfl
@[simp] theorem State.withClr_pl (s : State) (v : Word) : (s.withClr v).pl = s.pl := rfl
@[simp] theorem State.withClr_mem (s : State) (v : Word) : (s.withClr v).mem = s.mem := rfl
@[simp] theorem State.withClr_platform (s : State) (v : Word) : (s.withClr v).platform = s.platform := rfl
@[simp] theorem State.withClr_draws (s : State) (v : Word) : (s.withClr v).draws = s.draws := rfl

/-! ### withEaddr -/

@[simp] theorem State.withEaddr_gpr (s : State) (v : Word) : (s.withEaddr v).gpr = s.gpr := rfl
@[simp] theorem State.withEaddr_sp (s : State) (v : Word) : (s.withEaddr v).sp = s.sp := rfl
@[simp] theorem State.withEaddr_ip (s : State) (v : Word) : (s.withEaddr v).ip = s.ip := rfl
@[simp] theorem State.withEaddr_ptp (s : State) (v : Word) : (s.withEaddr v).ptp = s.ptp := rfl
@[simp] theorem State.withEaddr_flags (s : State) (v : Word) : (s.withEaddr v).flags = s.flags := rfl
@[simp] theorem State.withEaddr_clr (s : State) (v : Word) : (s.withEaddr v).clr = s.clr := rfl
@[simp] theorem State.withEaddr_eaddr (s : State) (v : Word) : (s.withEaddr v).eaddr = v := rfl
@[simp] theorem State.withEaddr_temp (s : State) (v : Word) : (s.withEaddr v).temp = s.temp := rfl
@[simp] theorem State.withEaddr_pl (s : State) (v : Word) : (s.withEaddr v).pl = s.pl := rfl
@[simp] theorem State.withEaddr_mem (s : State) (v : Word) : (s.withEaddr v).mem = s.mem := rfl
@[simp] theorem State.withEaddr_platform (s : State) (v : Word) : (s.withEaddr v).platform = s.platform := rfl
@[simp] theorem State.withEaddr_draws (s : State) (v : Word) : (s.withEaddr v).draws = s.draws := rfl

/-! ### withTemp -/

@[simp] theorem State.withTemp_gpr (s : State) (v : Word) : (s.withTemp v).gpr = s.gpr := rfl
@[simp] theorem State.withTemp_sp (s : State) (v : Word) : (s.withTemp v).sp = s.sp := rfl
@[simp] theorem State.withTemp_ip (s : State) (v : Word) : (s.withTemp v).ip = s.ip := rfl
@[simp] theorem State.withTemp_ptp (s : State) (v : Word) : (s.withTemp v).ptp = s.ptp := rfl
@[simp] theorem State.withTemp_flags (s : State) (v : Word) : (s.withTemp v).flags = s.flags := rfl
@[simp] theorem State.withTemp_clr (s : State) (v : Word) : (s.withTemp v).clr = s.clr := rfl
@[simp] theorem State.withTemp_eaddr (s : State) (v : Word) : (s.withTemp v).eaddr = s.eaddr := rfl
@[simp] theorem State.withTemp_temp (s : State) (v : Word) : (s.withTemp v).temp = v := rfl
@[simp] theorem State.withTemp_pl (s : State) (v : Word) : (s.withTemp v).pl = s.pl := rfl
@[simp] theorem State.withTemp_mem (s : State) (v : Word) : (s.withTemp v).mem = s.mem := rfl
@[simp] theorem State.withTemp_platform (s : State) (v : Word) : (s.withTemp v).platform = s.platform := rfl
@[simp] theorem State.withTemp_draws (s : State) (v : Word) : (s.withTemp v).draws = s.draws := rfl

/-! ### withPl -/

@[simp] theorem State.withPl_gpr (s : State) (p : Privilege) : (s.withPl p).gpr = s.gpr := rfl
@[simp] theorem State.withPl_sp (s : State) (p : Privilege) : (s.withPl p).sp = s.sp := rfl
@[simp] theorem State.withPl_ip (s : State) (p : Privilege) : (s.withPl p).ip = s.ip := rfl
@[simp] theorem State.withPl_ptp (s : State) (p : Privilege) : (s.withPl p).ptp = s.ptp := rfl
@[simp] theorem State.withPl_flags (s : State) (p : Privilege) : (s.withPl p).flags = s.flags := rfl
@[simp] theorem State.withPl_clr (s : State) (p : Privilege) : (s.withPl p).clr = s.clr := rfl
@[simp] theorem State.withPl_eaddr (s : State) (p : Privilege) : (s.withPl p).eaddr = s.eaddr := rfl
@[simp] theorem State.withPl_temp (s : State) (p : Privilege) : (s.withPl p).temp = s.temp := rfl
@[simp] theorem State.withPl_pl (s : State) (p : Privilege) : (s.withPl p).pl = p := rfl
@[simp] theorem State.withPl_mem (s : State) (p : Privilege) : (s.withPl p).mem = s.mem := rfl
@[simp] theorem State.withPl_platform (s : State) (p : Privilege) : (s.withPl p).platform = s.platform := rfl
@[simp] theorem State.withPl_draws (s : State) (p : Privilege) : (s.withPl p).draws = s.draws := rfl

/-! ### withMem -/

@[simp] theorem State.withMem_gpr (s : State) (m : Memory) : (s.withMem m).gpr = s.gpr := rfl
@[simp] theorem State.withMem_sp (s : State) (m : Memory) : (s.withMem m).sp = s.sp := rfl
@[simp] theorem State.withMem_ip (s : State) (m : Memory) : (s.withMem m).ip = s.ip := rfl
@[simp] theorem State.withMem_ptp (s : State) (m : Memory) : (s.withMem m).ptp = s.ptp := rfl
@[simp] theorem State.withMem_flags (s : State) (m : Memory) : (s.withMem m).flags = s.flags := rfl
@[simp] theorem State.withMem_clr (s : State) (m : Memory) : (s.withMem m).clr = s.clr := rfl
@[simp] theorem State.withMem_eaddr (s : State) (m : Memory) : (s.withMem m).eaddr = s.eaddr := rfl
@[simp] theorem State.withMem_temp (s : State) (m : Memory) : (s.withMem m).temp = s.temp := rfl
@[simp] theorem State.withMem_pl (s : State) (m : Memory) : (s.withMem m).pl = s.pl := rfl
@[simp] theorem State.withMem_mem (s : State) (m : Memory) : (s.withMem m).mem = m := rfl
@[simp] theorem State.withMem_platform (s : State) (m : Memory) : (s.withMem m).platform = s.platform := rfl
@[simp] theorem State.withMem_draws (s : State) (m : Memory) : (s.withMem m).draws = s.draws := rfl

/-! ### tick -/

@[simp] theorem State.tick_gpr (s : State) : s.tick.gpr = s.gpr := rfl
@[simp] theorem State.tick_sp (s : State) : s.tick.sp = s.sp := rfl
@[simp] theorem State.tick_ip (s : State) : s.tick.ip = s.ip := rfl
@[simp] theorem State.tick_ptp (s : State) : s.tick.ptp = s.ptp := rfl
@[simp] theorem State.tick_flags (s : State) : s.tick.flags = s.flags := rfl
@[simp] theorem State.tick_clr (s : State) : s.tick.clr = s.clr := rfl
@[simp] theorem State.tick_eaddr (s : State) : s.tick.eaddr = s.eaddr := rfl
@[simp] theorem State.tick_temp (s : State) : s.tick.temp = s.temp := rfl
@[simp] theorem State.tick_pl (s : State) : s.tick.pl = s.pl := rfl
@[simp] theorem State.tick_mem (s : State) : s.tick.mem = s.mem := rfl
@[simp] theorem State.tick_platform (s : State) : s.tick.platform = s.platform := rfl
@[simp] theorem State.tick_draws (s : State) : s.tick.draws = s.draws + 1 := rfl

/-! ### settle -/

@[simp] theorem State.settle_gpr (s : State) : s.settle.gpr = s.gpr := rfl
@[simp] theorem State.settle_sp (s : State) : s.settle.sp = s.sp := rfl
@[simp] theorem State.settle_ip (s : State) : s.settle.ip = s.ip := rfl
@[simp] theorem State.settle_ptp (s : State) : s.settle.ptp = s.ptp := rfl
@[simp] theorem State.settle_flags (s : State) : s.settle.flags = s.flags := rfl
@[simp] theorem State.settle_clr (s : State) : s.settle.clr = s.clr := rfl
@[simp] theorem State.settle_eaddr (s : State) : s.settle.eaddr = Config.eaddrAfter s.draws := rfl
@[simp] theorem State.settle_temp (s : State) : s.settle.temp = Config.tempAfter s.draws := rfl
@[simp] theorem State.settle_pl (s : State) : s.settle.pl = s.pl := rfl
@[simp] theorem State.settle_mem (s : State) : s.settle.mem = s.mem := rfl
@[simp] theorem State.settle_platform (s : State) : s.settle.platform = s.platform := rfl
@[simp] theorem State.settle_draws (s : State) : s.settle.draws = s.draws := rfl

/-! ### advance -/

@[simp] theorem State.advance_gpr (s : State) (len : Nat) : (s.advance len).gpr = s.gpr := rfl
@[simp] theorem State.advance_sp (s : State) (len : Nat) : (s.advance len).sp = s.sp := rfl
@[simp] theorem State.advance_ip (s : State) (len : Nat) : (s.advance len).ip = s.ip + BitVec.ofNat 128 len := rfl
@[simp] theorem State.advance_ptp (s : State) (len : Nat) : (s.advance len).ptp = s.ptp := rfl
@[simp] theorem State.advance_flags (s : State) (len : Nat) : (s.advance len).flags = s.flags := rfl
@[simp] theorem State.advance_clr (s : State) (len : Nat) : (s.advance len).clr = s.clr := rfl
@[simp] theorem State.advance_eaddr (s : State) (len : Nat) : (s.advance len).eaddr = Config.eaddrAfter s.draws := rfl
@[simp] theorem State.advance_temp (s : State) (len : Nat) : (s.advance len).temp = Config.tempAfter s.draws := rfl
@[simp] theorem State.advance_pl (s : State) (len : Nat) : (s.advance len).pl = s.pl := rfl
@[simp] theorem State.advance_mem (s : State) (len : Nat) : (s.advance len).mem = s.mem := rfl
@[simp] theorem State.advance_platform (s : State) (len : Nat) : (s.advance len).platform = s.platform := rfl
@[simp] theorem State.advance_draws (s : State) (len : Nat) : (s.advance len).draws = s.draws := rfl

/-! ### jump -/

@[simp] theorem State.jump_gpr (s : State) (target : Word) : (s.jump target).gpr = s.gpr := rfl
@[simp] theorem State.jump_sp (s : State) (target : Word) : (s.jump target).sp = s.sp := rfl
@[simp] theorem State.jump_ip (s : State) (target : Word) : (s.jump target).ip = target := rfl
@[simp] theorem State.jump_ptp (s : State) (target : Word) : (s.jump target).ptp = s.ptp := rfl
@[simp] theorem State.jump_flags (s : State) (target : Word) : (s.jump target).flags = s.flags := rfl
@[simp] theorem State.jump_clr (s : State) (target : Word) : (s.jump target).clr = s.clr := rfl
@[simp] theorem State.jump_eaddr (s : State) (target : Word) : (s.jump target).eaddr = Config.eaddrAfter s.draws := rfl
@[simp] theorem State.jump_temp (s : State) (target : Word) : (s.jump target).temp = Config.tempAfter s.draws := rfl
@[simp] theorem State.jump_pl (s : State) (target : Word) : (s.jump target).pl = s.pl := rfl
@[simp] theorem State.jump_mem (s : State) (target : Word) : (s.jump target).mem = s.mem := rfl
@[simp] theorem State.jump_platform (s : State) (target : Word) : (s.jump target).platform = s.platform := rfl
@[simp] theorem State.jump_draws (s : State) (target : Word) : (s.jump target).draws = s.draws := rfl

/-! ### The register file -/

/-- A register just written reads as the value written. -/
@[simp] theorem State.read_write_same (s : State) (r : Reg) (v : Word) : (s.write r v).read r = v := by
  cases r <;> simp [State.write, State.read]

/-- Writing a register leaves every other register as it was. -/
theorem State.read_write_other (s : State) {r r' : Reg} (v : Word) (h : r' ≠ r) : (s.write r v).read r' = s.read r' := by
  cases r <;> cases r' <;> simp_all [State.write, State.read, Fin.ext_iff, eq_comm]

/-- Writing a register leaves everything that is no register as it was. -/
theorem State.write_rest (s : State) (r : Reg) (v : Word) :
    (s.write r v).pl = s.pl ∧ (s.write r v).mem = s.mem ∧ (s.write r v).platform = s.platform ∧
      (s.write r v).draws = s.draws := by
  cases r <;> simp [State.write]

@[simp] theorem State.write_pl (s : State) (r : Reg) (v : Word) : (s.write r v).pl = s.pl := (s.write_rest r v).1
@[simp] theorem State.write_mem (s : State) (r : Reg) (v : Word) : (s.write r v).mem = s.mem := (s.write_rest r v).2.1
@[simp] theorem State.write_platform (s : State) (r : Reg) (v : Word) : (s.write r v).platform = s.platform :=
  (s.write_rest r v).2.2.1
@[simp] theorem State.write_draws (s : State) (r : Reg) (v : Word) : (s.write r v).draws = s.draws :=
  (s.write_rest r v).2.2.2

@[simp] theorem State.writeAt_pl (s : State) (w : Width) (r : Reg) (v : Word) : (s.writeAt w r v).pl = s.pl := by
  simp [State.writeAt]
@[simp] theorem State.writeAt_mem (s : State) (w : Width) (r : Reg) (v : Word) : (s.writeAt w r v).mem = s.mem := by
  simp [State.writeAt]
@[simp] theorem State.writeAt_platform (s : State) (w : Width) (r : Reg) (v : Word) :
    (s.writeAt w r v).platform = s.platform := by simp [State.writeAt]
@[simp] theorem State.writeAt_draws (s : State) (w : Width) (r : Reg) (v : Word) :
    (s.writeAt w r v).draws = s.draws := by simp [State.writeAt]

/-- The registers after the end of an instruction that writes `rd`: IP moves on unless it is `rd`. -/
theorem State.advanceUnlessIp_eq (s : State) (rd : Reg) (len : Nat) :
    s.advanceUnlessIp rd len =
      (s.withIp (if rd = .ip then s.ip else s.ip + BitVec.ofNat 128 len)).settle := by
  unfold State.advanceUnlessIp State.advance
  split <;> rfl

@[simp] theorem State.advanceUnlessIp_gpr (s : State) (rd : Reg) (len : Nat) :
    (s.advanceUnlessIp rd len).gpr = s.gpr := by
  rw [State.advanceUnlessIp_eq]; rfl
@[simp] theorem State.advanceUnlessIp_sp (s : State) (rd : Reg) (len : Nat) :
    (s.advanceUnlessIp rd len).sp = s.sp := by
  rw [State.advanceUnlessIp_eq]; rfl
@[simp] theorem State.advanceUnlessIp_ip (s : State) (rd : Reg) (len : Nat) :
    (s.advanceUnlessIp rd len).ip = if rd = .ip then s.ip else s.ip + BitVec.ofNat 128 len := by
  rw [State.advanceUnlessIp_eq]; rfl
@[simp] theorem State.advanceUnlessIp_ptp (s : State) (rd : Reg) (len : Nat) :
    (s.advanceUnlessIp rd len).ptp = s.ptp := by
  rw [State.advanceUnlessIp_eq]; rfl
@[simp] theorem State.advanceUnlessIp_flags (s : State) (rd : Reg) (len : Nat) :
    (s.advanceUnlessIp rd len).flags = s.flags := by
  rw [State.advanceUnlessIp_eq]; rfl
@[simp] theorem State.advanceUnlessIp_clr (s : State) (rd : Reg) (len : Nat) :
    (s.advanceUnlessIp rd len).clr = s.clr := by
  rw [State.advanceUnlessIp_eq]; rfl
@[simp] theorem State.advanceUnlessIp_eaddr (s : State) (rd : Reg) (len : Nat) :
    (s.advanceUnlessIp rd len).eaddr = Config.eaddrAfter s.draws := by
  rw [State.advanceUnlessIp_eq]; rfl
@[simp] theorem State.advanceUnlessIp_temp (s : State) (rd : Reg) (len : Nat) :
    (s.advanceUnlessIp rd len).temp = Config.tempAfter s.draws := by
  rw [State.advanceUnlessIp_eq]; rfl
@[simp] theorem State.advanceUnlessIp_pl (s : State) (rd : Reg) (len : Nat) :
    (s.advanceUnlessIp rd len).pl = s.pl := by
  rw [State.advanceUnlessIp_eq]; rfl
@[simp] theorem State.advanceUnlessIp_mem (s : State) (rd : Reg) (len : Nat) :
    (s.advanceUnlessIp rd len).mem = s.mem := by
  rw [State.advanceUnlessIp_eq]; rfl
@[simp] theorem State.advanceUnlessIp_platform (s : State) (rd : Reg) (len : Nat) :
    (s.advanceUnlessIp rd len).platform = s.platform := by
  rw [State.advanceUnlessIp_eq]; rfl
@[simp] theorem State.advanceUnlessIp_draws (s : State) (rd : Reg) (len : Nat) :
    (s.advanceUnlessIp rd len).draws = s.draws := by
  rw [State.advanceUnlessIp_eq]; rfl

/-! ### Parameters -/

@[simp] theorem params_narrowWrite : params.narrowWrite = .zero := rfl
@[simp] theorem params_narrowAddrExt : params.narrowAddrExt = .zero := rfl
@[simp] theorem params_memField : params.memField = .operandWidth := rfl
@[simp] theorem params_endian : params.endian = .little := rfl
@[simp] theorem params_logicOpsWriteFlags : params.logicOpsWriteFlags = true := rfl
@[simp] theorem params_shlCountMasked : params.shlCountMasked = false := rfl
@[simp] theorem params_clrUnprivileged : params.clrUnprivileged = .allowed := rfl
@[simp] theorem params_zfBit : params.zfBit = 0 := rfl
@[simp] theorem params_sfBit : params.sfBit = 1 := rfl
@[simp] theorem params_ofBit : params.ofBit = 2 := rfl
@[simp] theorem params_pglLow : params.pglLow = 0 := rfl
@[simp] theorem params_maxPgl : params.maxPgl = 13 := rfl
@[simp] theorem params_pte : params.pte = {} := rfl
@[simp] theorem params_paging : params.paging = {} := rfl
@[simp] theorem params_resetPgl : params.resetPgl = 13 := rfl
@[simp] theorem params_resetPl : params.resetPl = .privileged := rfl

/-- Level `N` walks `N - 1` tables (R62). -/
@[simp] theorem tablesWalked_eq (level : Nat) : tablesWalked level = level - 1 := rfl

/-- `U = 12 + 9*(N-1)` (R62). -/
@[simp] theorem translatedBits_eq (level : Nat) : translatedBits level = 12 + 9 * (level - 1) := rfl

/-- PTP is used as it stands (R32). -/
@[simp] theorem tableRoot_eq (ptp : Word) : tableRoot ptp = ptp := by simp [tableRoot]

/-- The index of R63. -/
theorem tableIndex_eq (m : Nat) (va : Word) : tableIndex m va = bitField va (12 + 9 * m) 9 := rfl

/-- An entry has 8 bytes (R66). -/
@[simp] theorem entryAddress_eq (m : Nat) (va base : Word) : entryAddress m va base = base + 8 * tableIndex m va := rfl

/-- The address field of a memory operand has the bytes of the operand width (R105). -/
@[simp] theorem addressBytes_eq (w : Width) : addressBytes w = w.bytes := rfl

/-- A narrow write clears the upper bits (R23). -/
@[simp] theorem narrowWrite_eq (w : Width) (old v : Word) : narrowWrite w old v = trunc w v := rfl

/-- A narrow address is zero-extended (R131). -/
@[simp] theorem widen_eq (w : Width) (v : Word) : widen w v = trunc w v := rfl

@[simp] theorem absoluteAddress_eq (w : Width) (addr : Word) : absoluteAddress w addr = trunc w addr := rfl

/-! ### Reading a register after the end of an instruction -/

theorem State.read_settle (s : State) {r : Reg} (h1 : r ≠ .eaddr) (h2 : r ≠ .temp) : s.settle.read r = s.read r := by
  cases r <;> simp_all [State.read]

theorem State.read_advance (s : State) (len : Nat) {r : Reg} (h1 : r ≠ .eaddr) (h2 : r ≠ .temp) (h3 : r ≠ .ip) :
    (s.advance len).read r = s.read r := by
  cases r <;> simp_all [State.read]

theorem State.read_jump (s : State) (target : Word) {r : Reg} (h1 : r ≠ .eaddr) (h2 : r ≠ .temp) (h3 : r ≠ .ip) :
    (s.jump target).read r = s.read r := by
  cases r <;> simp_all [State.read]

theorem State.read_advanceUnlessIp (s : State) (rd : Reg) (len : Nat) {r : Reg} (h1 : r ≠ .eaddr) (h2 : r ≠ .temp)
    (h3 : r ≠ .ip ∨ rd = .ip) : (s.advanceUnlessIp rd len).read r = s.read r := by
  unfold State.advanceUnlessIp
  split
  · exact State.read_settle s h1 h2
  · exact State.read_advance s len h1 h2 (by tauto)

theorem State.read_writeAt_same (s : State) (w : Width) (r : Reg) (v : Word) : (s.writeAt w r v).read r = trunc w v := by
  simp [State.writeAt, narrowWrite, params]

theorem State.read_writeAt_other (s : State) (w : Width) (v : Word) {r r' : Reg} (h : r' ≠ r) :
    (s.writeAt w r v).read r' = s.read r' := by
  simp [State.writeAt, State.read_write_other _ _ h]

end Sys2Proof.Machine
end

