-- ==== Sys2Proof/Laws/Bytes.lean ====
section
/-! SUPPORT. Byte order: the value of bytes and the bytes of a value are inverse, and byte `k` is bits `8k+7 : 8k` (R55). -/

namespace Sys2Proof.Machine

@[simp] theorem leBytes_length (n v : Nat) : (leBytes n v).length = n := by
  induction n generalizing v with
  | zero => rfl
  | succ n ih => simp [leBytes, ih]

/-- The bytes of a number stand for it modulo their range. -/
theorem leNat_leBytes (n v : Nat) : leNat (leBytes n v) = v % 256 ^ n := by
  induction n generalizing v with
  | zero => simp [leBytes, leNat, Nat.mod_one]
  | succ n ih =>
    simp only [leBytes, leNat, ih, BitVec.toNat_ofNat]
    exact (Nat.mod_mul (x := v) (a := 256) (b := 256 ^ n) ▸ by rw [Nat.pow_succ'])

/-- The number of some bytes has those bytes. -/
theorem leBytes_leNat (bs : List Byte) : leBytes bs.length (leNat bs) = bs := by
  induction bs with
  | nil => rfl
  | cons b bs ih =>
    have hb := b.isLt
    have h1 : (b.toNat + 256 * leNat bs) / 256 = leNat bs := by omega
    have h2 : BitVec.ofNat 8 (b.toNat + 256 * leNat bs) = b := by
      apply BitVec.eq_of_toNat_eq
      simp only [BitVec.toNat_ofNat]
      omega
    simp only [List.length_cons, leBytes, leNat, h1, h2, ih]

theorem leNat_lt (bs : List Byte) : leNat bs < 256 ^ bs.length := by
  have h := leNat_leBytes bs.length (leNat bs)
  rw [leBytes_leNat] at h
  rw [h]
  exact Nat.mod_lt _ (Nat.pow_pos (by decide))

theorem leBytes_getElem (n v k : Nat) (h : k < (leBytes n v).length) :
    (leBytes n v)[k] = BitVec.ofNat 8 (v / 256 ^ k) := by
  induction n generalizing v k with
  | zero => simp [leBytes] at h
  | succ n ih =>
    cases k with
    | zero => simp [leBytes]
    | succ k =>
      simp only [leBytes, List.getElem_cons_succ, ih, Nat.div_div_eq_div_mul]
      rw [Nat.pow_succ, Nat.mul_comm]

@[simp] theorem byteOrder_eq (bs : List Byte) : byteOrder bs = bs := rfl

@[simp] theorem toBytes_length (n : Nat) (v : Word) : (toBytes n v).length = n := by simp [toBytes]

/-- A value that fits its field is the value of its bytes. -/
theorem fromBytes_toBytes {n : Nat} {v : Word} (h : v.toNat < 2 ^ (8 * n)) : fromBytes (toBytes n v) = v := by
  apply BitVec.eq_of_toNat_eq
  rw [Nat.pow_mul] at h
  simp only [fromBytes, toBytes, byteOrder_eq, leNat_leBytes, BitVec.toNat_ofNat]
  rw [Nat.mod_eq_of_lt h, Nat.mod_eq_of_lt v.isLt]

theorem fromBytes_toNat {bs : List Byte} (h : bs.length ≤ 16) : (fromBytes bs).toNat = leNat bs := by
  have h1 := leNat_lt bs
  have h2 : 256 ^ bs.length ≤ 256 ^ 16 := Nat.pow_le_pow_right (by decide) h
  simp only [fromBytes, byteOrder_eq, BitVec.toNat_ofNat]
  exact Nat.mod_eq_of_lt (by omega)

/-- At most 16 bytes are the bytes of their value. -/
theorem toBytes_fromBytes {bs : List Byte} (h : bs.length ≤ 16) : toBytes bs.length (fromBytes bs) = bs := by
  rw [toBytes, fromBytes_toNat h, byteOrder_eq, leBytes_leNat]

theorem fromBytes_lt {bs : List Byte} (h : bs.length ≤ 16) : (fromBytes bs).toNat < 2 ^ (8 * bs.length) := by
  rw [fromBytes_toNat h, Nat.pow_mul]
  exact leNat_lt bs

/-- Byte `k` of a value is its bits `8k+7 : 8k`. -/
theorem toBytes_getElem (n : Nat) (v : Word) (k : Nat) (h : k < (toBytes n v).length) :
    (toBytes n v)[k] = v.extractLsb' (8 * k) 8 := by
  apply BitVec.eq_of_toNat_eq
  simp only [toBytes, byteOrder_eq, leBytes_getElem, BitVec.toNat_ofNat, BitVec.extractLsb'_toNat,
    Nat.shiftRight_eq_div_pow, Nat.pow_mul]

/-- Bits `8k+7 : 8k` of the value of at most 16 bytes are byte `k`. -/
theorem fromBytes_extract {bs : List Byte} (h : bs.length ≤ 16) (k : Nat) (hk : k < bs.length) :
    (fromBytes bs).extractLsb' (8 * k) 8 = bs[k] := by
  have h1 : (toBytes bs.length (fromBytes bs))[k]'(by simpa using hk) = bs[k] := by
    simp only [toBytes_fromBytes h]
  rw [← h1, toBytes_getElem]

/-- The value of one byte is the byte. -/
@[simp] theorem fromBytes_singleton (b : Byte) : fromBytes [b] = b.setWidth 128 := by
  apply BitVec.eq_of_toNat_eq
  simp [fromBytes_toNat, leNat]
  omega

end Sys2Proof.Machine
end

