-- ==== Sys2Proof/Laws/Decode.lean ====
section
/-! SUPPORT. The tables of the decoder and the encoder read backwards: register operands, opcodes, prefixes and fields. -/

namespace Sys2Proof

open Sys2Proof.Machine

/-- `REGMAP` as the numbers of R104. -/
theorem regMap_eq (b : Byte) :
    regMap b =
      if h : b.toNat < 32 then some (.gpr ⟨b.toNat, h⟩)
      else
        match b.toNat with
        | 0x20 => some .sp
        | 0x21 => some .ip
        | 0x22 => some .ptp
        | 0x23 => some .flags
        | 0x24 => some .eaddr
        | 0x25 => some .temp
        | 0x26 => some .clr
        | _ => none := by
  revert b
  decide

theorem regByte_gpr (k : Fin 32) : regByte (.gpr k) = BitVec.ofNat 8 k.val := by
  revert k
  decide

theorem regMap_regByte (r : Reg) : regMap (regByte r) = some r := by
  cases r with
  | gpr k =>
    revert k
    decide
  | _ => decide

theorem regByte_regMap {b : Byte} {r : Reg} (h : regMap b = some r) : regByte r = b := by
  have all : ∀ b : Byte, ∀ r ∈ regMap b, regByte r = b := by decide
  exact all b r h

theorem regMap_eq_none {b : Byte} : regMap b = none ↔ 0x27 ≤ b.toNat := by
  revert b
  decide

/-- A register operand byte read from a byte is written back as that byte. -/
@[simp] theorem toByte_ofByte (b : Byte) : (RegOperand.ofByte b).toByte = b := by
  unfold RegOperand.ofByte
  split
  · rename_i h
    exact regByte_regMap h
  · rfl

/-- A well-formed register operand is read back from its byte. -/
theorem ofByte_toByte {o : RegOperand} (h : o.wf = true) : RegOperand.ofByte o.toByte = o := by
  cases o with
  | named r => simp [RegOperand.toByte, RegOperand.ofByte, regMap_regByte]
  | unassigned b =>
    have : regMap b = none := by simpa [RegOperand.wf] using h
    simp [RegOperand.toByte, RegOperand.ofByte, this]

/-- An unassigned register operand is well-formed exactly for the bytes 27 to FF (R104). -/
theorem unassigned_wf (b : Byte) : (RegOperand.unassigned b).wf = true ↔ 0x27 ≤ b.toNat := by
  simp only [RegOperand.wf, Option.isNone_iff_eq_none, regMap_eq_none]

theorem ofByte_wf (b : Byte) : (RegOperand.ofByte b).wf = true := by
  unfold RegOperand.ofByte
  split
  · rfl
  · rename_i h
    simp [RegOperand.wf, h]

@[simp] theorem opcode_ofByte_toByte (op : Opcode) : Opcode.ofByte op.toByte = some op := by cases op <;> rfl

theorem opcode_toByte_ofByte {b : Byte} {op : Opcode} (h : Opcode.ofByte b = some op) : op.toByte = b := by
  revert h
  unfold Opcode.ofByte
  split <;> intro h <;> cases h
  all_goals
    rename_i hb
    apply BitVec.eq_of_toNat_eq
    rw [hb]
    rfl

@[simp] theorem prefixWidth_opcode (op : Opcode) : prefixWidth op.toByte = none := by cases op <;> rfl

/-- A byte selects a width exactly when it is the prefix byte of that width. -/
theorem prefixWidth_eq_some {b : Byte} {w : Width} : prefixWidth b = some w ↔ prefixBytes w = [b] := by
  constructor
  · unfold prefixWidth
    split <;> intro h <;> cases h
    all_goals
      rename_i hb
      simp only [prefixBytes, List.cons.injEq, and_true]
      apply BitVec.eq_of_toNat_eq
      rw [hb]
      rfl
  · intro h
    cases w <;> simp only [prefixBytes, List.cons.injEq, and_true, reduceCtorEq] at h <;> subst h <;> rfl

theorem prefixWidth_ne_w128 (b : Byte) : prefixWidth b ≠ some .w128 := by
  intro h
  simpa [prefixBytes] using prefixWidth_eq_some.mp h

/-- An address or immediate field is read back from its bytes. -/
theorem fromBytes_field {n : Nat} {v : Word} (h : fitsBytes n v = true) : fromBytes (toBytes n v) = v :=
  fromBytes_toBytes (by simpa [fitsBytes] using h)

theorem fitsBytes_fromBytes {bs : List Byte} {n : Nat} (h : bs.length = n) (hn : n ≤ 16) :
    fitsBytes n (fromBytes bs) = true := by
  subst h
  simpa [fitsBytes] using fromBytes_lt hn

theorem Width.bytes_le (w : Width) : w.bytes ≤ 16 := by cases w <;> decide

end Sys2Proof
end

