-- ==== Sys2Proof/Laws/Memory.lean ====
section
/-! SUPPORT. The memory map: reading after writing, and the canonical form that every operation keeps. -/

namespace Sys2Proof.Machine

/-- A byte just written reads as the value written. -/
@[simp] theorem Memory.lookup_store_same (m : Memory) (pa : Nat) (v : Byte) :
    Memory.lookup (Memory.store m pa v) pa = some v := by
  induction m with
  | nil => simp [Memory.store, Memory.lookup]
  | cons c m ih =>
    obtain ⟨a, b⟩ := c
    simp only [Memory.store]
    split
    · simp [Memory.lookup]
    · split
      · simp [Memory.lookup]
      · rename_i h
        simp [Memory.lookup, Ne.symm h, ih]

/-- Writing one byte leaves every other byte as it was. -/
theorem Memory.lookup_store_other (m : Memory) {pa pa' : Nat} (v : Byte) (h : pa' ≠ pa) :
    Memory.lookup (Memory.store m pa v) pa' = Memory.lookup m pa' := by
  induction m with
  | nil => simp [Memory.store, Memory.lookup, Ne.symm h]
  | cons c m ih =>
    obtain ⟨a, b⟩ := c
    simp only [Memory.store]
    split
    · simp [Memory.lookup, Ne.symm h]
    · split
      · rename_i he
        subst he
        simp [Memory.lookup, Ne.symm h]
      · simp [Memory.lookup, ih]

/-- Writing bytes leaves every byte outside their addresses as it was. -/
theorem Memory.lookup_storeAll_other (m : Memory) (pas : List Word) (vs : List Byte) (pa : Word) (h : pa ∉ pas) :
    Memory.lookup (Memory.storeAll m pas vs) pa.toNat = Memory.lookup m pa.toNat := by
  induction pas generalizing m vs with
  | nil => simp [Memory.storeAll]
  | cons q pas ih =>
    cases vs with
    | nil => simp [Memory.storeAll]
    | cons v vs =>
      simp only [List.mem_cons, not_or] at h
      rw [Memory.storeAll, ih _ _ h.2, Memory.lookup_store_other _ _ (fun e => h.1 (BitVec.eq_of_toNat_eq e))]

/-- The bytes written at distinct addresses read as the values written. -/
theorem Memory.lookup_storeAll_mem (m : Memory) (pas : List Word) (vs : List Byte) (hd : pas.Nodup)
    (k : Nat) (hk : k < pas.length) (hv : k < vs.length) :
    Memory.lookup (Memory.storeAll m pas vs) pas[k].toNat = some vs[k] := by
  induction pas generalizing m vs k with
  | nil => simp at hk
  | cons q pas ih =>
    cases vs with
    | nil => simp at hv
    | cons v vs =>
      rw [List.nodup_cons] at hd
      cases k with
      | zero => simp [Memory.storeAll, Memory.lookup_storeAll_other _ _ _ _ hd.1]
      | succ k => simpa [Memory.storeAll] using ih _ vs hd.2 k (by simpa using hk) (by simpa using hv)

/-- The canonical form, one entry taken off. -/
theorem Memory.risingFrom_cons (low : Option Nat) (a : Nat) (b : Byte) (m : Memory) :
    Memory.risingFrom low ((a, b) :: m) =
      (low.all (fun l => decide (l < a)) && decide (a < 2 ^ 128) && Memory.risingFrom (some a) m) := by
  cases low <;> simp [Memory.risingFrom]

/-- A list that rises above an address rises above a smaller one. -/
theorem Memory.risingFrom_weaken (m : Memory) {low low' : Nat} (h : low ≤ low')
    (hm : Memory.risingFrom (some low') m = true) : Memory.risingFrom (some low) m = true := by
  cases m with
  | nil => rfl
  | cons c m =>
    obtain ⟨a, b⟩ := c
    simp only [Memory.risingFrom_cons, Option.all_some, Bool.and_eq_true, decide_eq_true_eq] at hm ⊢
    exact ⟨⟨by omega, hm.1.2⟩, hm.2⟩

/-- Writing a byte keeps the canonical form above any address below it. -/
theorem Memory.risingFrom_store (m : Memory) (low : Option Nat) (pa : Nat) (v : Byte)
    (hl : low.all (fun l => decide (l < pa)) = true) (hpa : pa < 2 ^ 128) (hm : Memory.risingFrom low m = true) :
    Memory.risingFrom low (Memory.store m pa v) = true := by
  induction m generalizing low with
  | nil => simp only [Memory.store, Memory.risingFrom_cons, hl, hpa, Memory.risingFrom, decide_true, Bool.and_self]
  | cons c m ih =>
    obtain ⟨a, b⟩ := c
    simp only [Memory.risingFrom_cons, Bool.and_eq_true, decide_eq_true_eq] at hm
    simp only [Memory.store]
    split
    · rename_i h
      simp only [Memory.risingFrom_cons, hl, hpa, Option.all_some, h, hm.1.2, hm.2, decide_true, Bool.and_self]
    · split
      · rename_i h
        subst h
        simp only [Memory.risingFrom_cons, hl, hpa, hm.2, decide_true, Bool.and_self]
      · simp only [Memory.risingFrom_cons, hm.1.1, hm.1.2, Bool.and_eq_true, decide_eq_true_eq, true_and]
        exact ih _ (by simp; omega) hm.2

/-- Writing a byte at a physical address keeps the canonical form. -/
theorem Memory.wf_store (m : Memory) (pa : Word) (v : Byte) (hm : m.wf = true) :
    Memory.wf (Memory.store m pa.toNat v) = true :=
  Memory.risingFrom_store m none pa.toNat v rfl pa.isLt hm

/-- Writing bytes keeps the canonical form. -/
theorem Memory.wf_storeAll (m : Memory) (pas : List Word) (vs : List Byte) (hm : m.wf = true) :
    Memory.wf (Memory.storeAll m pas vs) = true := by
  induction pas generalizing m vs with
  | nil => simpa [Memory.storeAll] using hm
  | cons q pas ih =>
    cases vs with
    | nil => simpa [Memory.storeAll] using hm
    | cons v vs => exact ih _ _ (Memory.wf_store m q v hm)

/-- The memory of the machine after reset is in the canonical form. -/
theorem Memory.wf_reset : State.reset.mem.wf = true := rfl

end Sys2Proof.Machine
end

