-- ==== Sys2Proof/Laws/Ops.lean ====
section
/-! SUPPORT. What each shared operation can do, said once: later proofs cite these lemmas and do not unfold the operation. -/

namespace Sys2Proof.Machine

/-! ### Sequencing -/

/-- A sequence ends well exactly when both parts do. -/
theorem bind_eq_ok {ε α β : Type} {x : Except ε α} {f : α → Except ε β} {b : β} :
    (x >>= f) = .ok b ↔ ∃ a, x = .ok a ∧ f a = .ok b := by
  cases x with
  | error e => simp [bind, Except.bind]
  | ok a => simp [bind, Except.bind]

/-- A sequence faults exactly when its first part does, or its first part ends well and its second faults. -/
theorem bind_eq_error {ε α β : Type} {x : Except ε α} {f : α → Except ε β} {e : ε} :
    (x >>= f) = .error e ↔ x = .error e ∨ ∃ a, x = .ok a ∧ f a = .error e := by
  cases x with
  | error e' => simp [bind, Except.bind]
  | ok a => simp [bind, Except.bind]

@[simp] theorem ok_bind {ε α β : Type} (a : α) (f : α → Except ε β) : ((Except.ok a : Except ε α) >>= f) = f a := rfl

@[simp] theorem error_bind {ε α β : Type} (e : ε) (f : α → Except ε β) :
    ((Except.error e : Except ε α) >>= f) = .error e := rfl

@[simp] theorem outcome_ok (t : State) : outcome (.ok t) = .next t := rfl
@[simp] theorem outcome_error (f : Fault) : outcome (.error f) = .fault f := rfl

theorem outcome_eq_next {x : Except Fault State} {t : State} : outcome x = .next t ↔ x = .ok t := by
  cases x <;> simp [outcome, raise]

theorem outcome_eq_fault {x : Except Fault State} {f : Fault} : outcome x = .fault f ↔ x = .error f := by
  cases x <;> simp [outcome, raise]

theorem outcome_ne_refused (x : Except Fault State) (r : Refusal) : outcome x ≠ .refused r := by
  cases x <;> simp [outcome, raise]

/-! ### Widths and paging level -/

theorem bits_pos (w : Width) : 8 ≤ w.bits := by cases w <;> decide
theorem bits_le (w : Width) : w.bits ≤ 128 := by cases w <;> decide

theorem trunc_getLsbD (w : Width) (v : Word) (i : Nat) :
    (trunc w v).getLsbD i = (decide (i < w.bits) && v.getLsbD i) := by
  have := bits_le w
  simp only [trunc, BitVec.getLsbD_setWidth]
  by_cases h : i < w.bits
  · simp [h, show i < 128 by omega]
  · simp [h]

theorem trunc_toNat (w : Width) (v : Word) : (trunc w v).toNat = v.toNat % 2 ^ w.bits := by
  have h1 := Nat.mod_lt v.toNat (Nat.two_pow_pos w.bits)
  have h2 : 2 ^ w.bits ≤ 2 ^ 128 := Nat.pow_le_pow_right (by decide) (bits_le w)
  simp only [trunc, BitVec.toNat_setWidth]
  exact Nat.mod_eq_of_lt (by omega)

@[simp] theorem trunc_w128 (v : Word) : trunc .w128 v = v := by
  simp [trunc, Width.bits, Width.bytes]

theorem pglOf_eq (v : Word) : pglOf v = v.toNat % 16 := by
  simp [pglOf, bitField, BitVec.extractLsb'_toNat]
  omega

theorem pglOf_trunc (w : Width) (v : Word) : pglOf (trunc w v) = v.toNat % 16 := by
  rw [pglOf_eq, trunc_toNat]
  cases w <;> simp only [Width.bits, Width.bytes] <;> omega

theorem pageOffset_eq (va : Word) : pageOffset va = BitVec.ofNat 128 (va.toNat % 4096) := by
  apply BitVec.eq_of_toNat_eq
  simp [pageOffset, bitField, BitVec.extractLsb'_toNat]

/-! ### Register operands -/

/-- A register operand that passes its check names the register, which is not EADDR or TEMP, and at the unprivileged level
not one of the closed ones. -/
theorem reg_eq_ok {s : State} {o : RegOperand} {r : Reg} :
    reg s o = .ok r ↔
      o = .named r ∧ ¬(s.pl = .unprivileged ∧ closedToUnprivileged r = true) ∧ r ≠ .eaddr ∧ r ≠ .temp := by
  cases o with
  | unassigned b => simp [reg]
  | named r' =>
    simp only [reg, RegOperand.named.injEq]
    constructor
    · intro h
      split at h
      · cases h
      · split at h
        · cases h
        · cases h
          simp_all
    · rintro ⟨rfl, h1, h2, h3⟩
      simp [h1, h2, h3]

/-- The check of an operand depends on the privilege level only. -/
theorem reg_congr {s s' : State} (h : s'.pl = s.pl) (o : RegOperand) : reg s' o = reg s o := by
  cases o <;> simp [reg, h]

/-- An unprivileged operand is a general register or CLR. -/
theorem reg_unprivileged {s : State} {o : RegOperand} {r : Reg} (hp : s.pl = .unprivileged) (h : reg s o = .ok r) :
    (∃ k, r = .gpr k) ∨ r = .clr := by
  obtain ⟨-, h1, -⟩ := reg_eq_ok.mp h
  cases r <;> simp_all [closedToUnprivileged]

/-! ### Destination writes -/

theorem checkReserved_eq_ok {s : State} {w : Width} {rd : Reg} {v : Word} :
    checkReserved s w rd v = .ok () ↔ (rd = .clr → v.toNat % 16 ≤ 13) := by
  simp only [checkReserved, params_maxPgl, narrowWrite_eq, pglOf_trunc]
  split
  · rename_i h
    simp [h.1, h.2]
  · rename_i h
    simp only [true_iff]
    intro e
    simp only [e, true_and] at h
    omega

theorem checkReserved_eq_error {s : State} {w : Width} {rd : Reg} {v : Word} {f : Fault} :
    checkReserved s w rd v = .error f ↔ f = .reservedValue .clrPgl ∧ rd = .clr ∧ 13 < v.toNat % 16 := by
  simp only [checkReserved, params_maxPgl, narrowWrite_eq, pglOf_trunc]
  split
  · rename_i h
    simp [h.1, h.2, eq_comm]
  · rename_i h
    simp only [reduceCtorEq, false_iff]
    tauto

/-- What the end of a destination write can be. -/
theorem deliver_eq_ok {s : State} {w : Width} {rd : Reg} {v : Word} {len : Nat} {t : State} :
    deliver s w rd v len = .ok t ↔
      (rd = .clr → v.toNat % 16 ≤ 13) ∧ t = (s.writeAt w rd v).advanceUnlessIp rd len := by
  simp only [deliver, bind_eq_ok, Except.ok.injEq]
  exact ⟨fun ⟨_, h, e⟩ => ⟨checkReserved_eq_ok.mp h, e.symm⟩, fun ⟨h, e⟩ => ⟨(), checkReserved_eq_ok.mpr h, e.symm⟩⟩

theorem deliver_eq_error {s : State} {w : Width} {rd : Reg} {v : Word} {len : Nat} {f : Fault} :
    deliver s w rd v len = .error f ↔ f = .reservedValue .clrPgl ∧ rd = .clr ∧ 13 < v.toNat % 16 := by
  simp [deliver, bind_eq_error, checkReserved_eq_error]

/-! ### What an access depends on -/

theorem State.inPhysMem_congr {s s' : State} (h : s'.platform = s.platform) : s'.inPhysMem = s.inPhysMem := by
  funext pa
  simp [State.inPhysMem, h]

/-- A byte depends on memory, the platform and the draw number. -/
theorem State.physByte_congr {s s' : State} (hm : s'.mem = s.mem) (hp : s'.platform = s.platform)
    (hd : s'.draws = s.draws) : s'.physByte = s.physByte := by
  funext ev pa
  simp [State.physByte, State.inMmio, hm, hp, hd]

theorem physRead_congr {s s' : State} (hm : s'.mem = s.mem) (hp : s'.platform = s.platform)
    (hd : s'.draws = s.draws) (ev : ReadEvent) (pa : Word) (n : Nat) : physRead s' ev pa n = physRead s ev pa n := by
  simp [physRead, State.inPhysMem_congr hp, State.physByte_congr hm hp hd]

@[simp] theorem addressesFrom_length (pa : Word) (n : Nat) : (addressesFrom pa n).length = n := by
  induction n generalizing pa with
  | zero => rfl
  | succ n ih => simp [addressesFrom, ih]

theorem addressesFrom_getElem (pa : Word) (n k : Nat) (h : k < (addressesFrom pa n).length) :
    (addressesFrom pa n)[k] = pa + BitVec.ofNat 128 k := by
  induction n generalizing pa k with
  | zero => simp [addressesFrom] at h
  | succ n ih =>
    cases k with
    | zero => simp [addressesFrom]
    | succ k =>
      simp only [addressesFrom, List.getElem_cons_succ, ih]
      rw [BitVec.add_assoc, BitVec.ofNat_add, BitVec.add_comm (BitVec.ofNat 128 k)]
      rfl

/-- A physical read needs memory behind each of its bytes. -/
theorem addressesFrom_all {p : Word → Bool} {pa : Word} {n : Nat} :
    (addressesFrom pa n).all p = true ↔ ∀ j < n, p (pa + BitVec.ofNat 128 j) = true := by
  rw [List.all_eq_true]
  constructor
  · intro h j hj
    have hj' : j < (addressesFrom pa n).length := by simpa using hj
    rw [← addressesFrom_getElem pa n j hj']
    exact h _ (List.getElem_mem _)
  · intro h x hx
    obtain ⟨j, hj, rfl⟩ := List.mem_iff_getElem.mp hx
    rw [addressesFrom_getElem]
    exact h j (by simpa using hj)

/-- `PhysRead` raises one fault, and raises it when one of its bytes has no memory (R52). -/
theorem physRead_eq_error {s : State} {ev : ReadEvent} {pa : Word} {n : Nat} {f : Fault} :
    physRead s ev pa n = .error f ↔
      f = .physicalAccessFault pa ∧ ∃ j < n, s.inPhysMem (pa + BitVec.ofNat 128 j) = false := by
  unfold physRead
  split
  · rename_i h
    simp only [reduceCtorEq, false_iff, not_and, not_exists]
    intro _ j hj
    rw [addressesFrom_all.mp h j hj]
    simp
  · rename_i h
    rw [addressesFrom_all] at h
    simp only [Except.error.injEq, eq_comm (a := f), iff_self_and]
    push Not at h
    obtain ⟨j, hj, h⟩ := h
    exact fun _ => ⟨j, hj, by simpa using h⟩

/-- `PhysRead` answers the value whose bytes are those of memory, the lowest address in the lowest bits (R52, R55). -/
theorem physRead_eq_ok {s : State} {ev : ReadEvent} {pa : Word} {n : Nat} {v : Word} (hn : n ≤ 16) :
    physRead s ev pa n = .ok v ↔
      (∀ j < n, s.inPhysMem (pa + BitVec.ofNat 128 j) = true) ∧
      (∀ j < n, v.extractLsb' (8 * j) 8 = s.physByte ev (pa + BitVec.ofNat 128 j)) ∧ v.toNat < 2 ^ (8 * n) := by
  unfold physRead
  split
  · rename_i h
    rw [addressesFrom_all] at h
    have hl : ((addressesFrom pa n).map (s.physByte ev)).length = n := by simp
    simp only [Except.ok.injEq]
    constructor
    · rintro rfl
      have lt := fromBytes_lt (bs := (addressesFrom pa n).map (s.physByte ev)) (by omega)
      refine ⟨h, fun j hj => ?_, by rwa [hl] at lt⟩
      rw [fromBytes_extract (by omega) j (by omega), List.getElem_map, addressesFrom_getElem]
    · rintro ⟨-, hb, hv⟩
      rw [← fromBytes_toBytes hv]
      congr 1
      apply List.ext_getElem (by simp)
      intro j hj hj'
      have hj : j < n := by omega
      rw [List.getElem_map, addressesFrom_getElem, toBytes_getElem, hb j hj]
  · rename_i h
    rw [addressesFrom_all] at h
    simp only [reduceCtorEq, false_iff, not_and]
    exact fun h' => absurd h' h

theorem walk_congr {s s' : State} (hl : s'.pl = s.pl) (hm : s'.mem = s.mem) (hp : s'.platform = s.platform)
    (hd : s'.draws = s.draws) (acc : Access) (k : Nat) (va : Word) (m : Nat) (base : Word) :
    walk s' acc k va m base = walk s acc k va m base := by
  induction m generalizing base with
  | zero => rfl
  | succ m ih => simp only [walk, physRead_congr hm hp hd, hl, ih]

/-- Translation depends on CLR, PTP, the privilege level, memory, the platform and the draw number. -/
theorem translateByte_congr {s s' : State} (hc : s'.clr = s.clr) (ht : s'.ptp = s.ptp) (hl : s'.pl = s.pl)
    (hm : s'.mem = s.mem) (hp : s'.platform = s.platform) (hd : s'.draws = s.draws) (acc : Access) (k : Nat) (va : Word) :
    translateByte s' acc k va = translateByte s acc k va := by
  simp only [translateByte, hc, ht, walk_congr hl hm hp hd]

theorem translateRange_congr {s s' : State} {acc : Access}
    (h : ∀ k va, translateByte s' acc k va = translateByte s acc k va) (k : Nat) (va : Word) (n : Nat) :
    translateRange s' acc k va n = translateRange s acc k va n := by
  induction n generalizing k va with
  | zero => rfl
  | succ n ih => simp only [translateRange, h, ih]

theorem checkPhys_congr {s s' : State} (hp : s'.platform = s.platform) (pas : List Word) :
    checkPhys s' pas = checkPhys s pas := by
  induction pas with
  | nil => rfl
  | cons pa pas ih => simp only [checkPhys, State.inPhysMem_congr hp, ih]

theorem physBytes_congr {s s' : State} (h : s'.physByte = s.physByte) (acc : Access) (k : Nat) (pas : List Word) :
    physBytes s' acc k pas = physBytes s acc k pas := by
  induction pas generalizing k with
  | nil => rfl
  | cons pa pas ih => simp only [physBytes, h, ih]

theorem memRead_congr {s s' : State} (h : ∀ k va, translateByte s' .read k va = translateByte s .read k va)
    (hm : s'.mem = s.mem) (hp : s'.platform = s.platform) (hd : s'.draws = s.draws) (va : Word) (n : Nat) :
    memRead s' va n = memRead s va n := by
  simp only [memRead, translateRange_congr h, checkPhys_congr hp,
    physBytes_congr (State.physByte_congr hm hp hd)]

/-! ### The access primitives -/

theorem checkPhys_eq_ok {s : State} {pas : List Word} :
    checkPhys s pas = .ok () ↔ ∀ pa ∈ pas, s.inPhysMem pa = true := by
  induction pas with
  | nil => simp [checkPhys]
  | cons pa pas ih => cases h : s.inPhysMem pa <;> simp [checkPhys, h, ih]

/-- The translated addresses are as many as the bytes, each the translation of its byte. -/
theorem translateRange_eq_ok {s : State} {acc : Access} {k : Nat} {va : Word} {n : Nat} {pas : List Word} :
    translateRange s acc k va n = .ok pas ↔
      pas.length = n ∧ ∀ (j : Nat) (h : j < pas.length),
        translateByte s acc (k + j) (va + BitVec.ofNat 128 j) = .ok pas[j] := by
  induction n generalizing k va pas with
  | zero =>
    simp only [translateRange, Except.ok.injEq]
    constructor
    · rintro rfl
      simp
    · rintro ⟨h, -⟩
      exact (List.length_eq_zero_iff.mp h).symm
  | succ n ih =>
    have shift : ∀ j : Nat, va + 1 + BitVec.ofNat 128 j = va + BitVec.ofNat 128 (j + 1) := by
      intro j
      rw [BitVec.add_assoc, BitVec.ofNat_add, BitVec.add_comm (BitVec.ofNat 128 j)]
      rfl
    simp only [translateRange, bind_eq_ok, ih, Except.ok.injEq]
    constructor
    · rintro ⟨pa, h1, pas', ⟨h2, h3⟩, rfl⟩
      refine ⟨by simp [h2], ?_⟩
      intro j hj
      cases j with
      | zero => simpa using h1
      | succ j =>
        have := h3 j (by simpa using hj)
        rw [shift] at this
        simpa [Nat.add_assoc, Nat.add_comm 1] using this
    · rintro ⟨h1, h2⟩
      cases pas with
      | nil => simp at h1
      | cons pa pas' =>
        refine ⟨pa, by have := h2 0 (by simp); rw [List.getElem_cons_zero] at this; simpa using this, pas', ⟨by simpa using h1, ?_⟩, rfl⟩
        intro j hj
        have := h2 (j + 1) (by simpa using hj)
        rw [shift]
        simpa [Nat.add_assoc, Nat.add_comm 1] using this

/-- What a data read that ends well answers. -/
theorem memRead_eq_ok {s : State} {va : Word} {n : Nat} {v : Word} :
    memRead s va n = .ok v ↔
      ∃ pas, translateRange s .read 0 va n = .ok pas ∧ (∀ pa ∈ pas, s.inPhysMem pa = true) ∧
        v = fromBytes (physBytes s .read 0 pas) := by
  simp only [memRead, bind_eq_ok, Except.ok.injEq]
  exact ⟨fun ⟨pas, h, _, h', e⟩ => ⟨pas, h, checkPhys_eq_ok.mp h', e.symm⟩,
    fun ⟨pas, h, h', e⟩ => ⟨pas, h, (), checkPhys_eq_ok.mpr h', e.symm⟩⟩

/-- What a data write that ends well does: it changes memory, at the translated addresses, and nothing else. -/
theorem memWrite_eq_ok {s t : State} {va : Word} {n : Nat} {v : Word} :
    memWrite s va n v = .ok t ↔
      ∃ pas, translateRange s .write 0 va n = .ok pas ∧ (∀ pa ∈ pas, s.inPhysMem pa = true) ∧
        t = s.withMem (s.mem.storeAll pas (toBytes n v)) := by
  simp only [memWrite, bind_eq_ok, Except.ok.injEq]
  exact ⟨fun ⟨pas, h, _, h', e⟩ => ⟨pas, h, checkPhys_eq_ok.mp h', e.symm⟩,
    fun ⟨pas, h, h', e⟩ => ⟨pas, h, (), checkPhys_eq_ok.mpr h', e.symm⟩⟩

/-- What a push that ends well does: it changes memory and SP, and nothing else. -/
theorem pushValue_eq_ok {s t : State} {n : Nat} {v : Word} :
    pushValue s n v = .ok t ↔
      ∃ pas, translateRange s .write 0 (s.sp - BitVec.ofNat 128 n) n = .ok pas ∧
        (∀ pa ∈ pas, s.inPhysMem pa = true) ∧
        t = (s.withMem (s.mem.storeAll pas (toBytes n v))).withSp (s.sp - BitVec.ofNat 128 n) := by
  simp only [pushValue, bind_eq_ok, memWrite_eq_ok]
  constructor
  · rintro ⟨u, ⟨pas, h1, h2, rfl⟩, h⟩
    exact ⟨pas, h1, h2, (Except.ok.inj h).symm⟩
  · rintro ⟨pas, h1, h2, rfl⟩
    exact ⟨_, ⟨pas, h1, h2, rfl⟩, rfl⟩

/-! ### The step -/

/-- A step that ends in a state ran one fetched instruction to a state and counted one draw. -/
theorem step_eq_next {s t : State} :
    step s = .next t ↔ ∃ i u, fetchInstr s = .ok i ∧ exec i s = .next u ∧ t = u.tick := by
  unfold step
  split
  · rename_i f h
    simp [h, raise]
  · rename_i i h
    split <;> rename_i h' <;> simp [h, h', eq_comm]

/-- The prefix constructors and the plain ones run the same instruction at their width. -/
theorem exec_ofSized (w : Width) (body : Sized) (s : State) : exec (.ofSized w body) s = execSized w body s := by
  cases w <;> cases body <;> rfl

end Sys2Proof.Machine
end

