-- ==== Sys2Proof/Laws/Execute.lean ====
section
/-! SUPPORT. What each meaning can answer, said once: exactly when it ends in a state, and which state that is. -/

namespace Sys2Proof.Machine

theorem moveRegRegAt_eq_next {w : Width} {rd rs : RegOperand} {s t : State} :
    moveRegRegAt w rd rs s = .next t ↔ ∃ d r, reg s rd = .ok d ∧ reg s rs = .ok r ∧
      (d = .clr → (readAt s w r).toNat % 16 ≤ 13) ∧
      t = (s.writeAt w d (readAt s w r)).advanceUnlessIp d (lengthOf w .rr) := by
  simp only [moveRegRegAt, outcome_eq_next, bind_eq_ok, deliver_eq_ok]
  exact ⟨fun ⟨d, h1, r, h2, h3, h4⟩ => ⟨d, r, h1, h2, h3, h4⟩, fun ⟨d, r, h1, h2, h3, h4⟩ => ⟨d, h1, r, h2, h3, h4⟩⟩

theorem moveRegMemAt_eq_next {w : Width} {rd : RegOperand} {addr : Word} {s t : State} :
    moveRegMemAt w rd addr s = .next t ↔ ∃ d v, reg s rd = .ok d ∧
      memRead s (absoluteAddress w addr) w.bytes = .ok v ∧ (d = .clr → v.toNat % 16 ≤ 13) ∧
      t = (s.writeAt w d v).advanceUnlessIp d (lengthOf w .rm) := by
  simp only [moveRegMemAt, outcome_eq_next, bind_eq_ok, deliver_eq_ok]
  exact ⟨fun ⟨d, h1, v, h2, h3, h4⟩ => ⟨d, v, h1, h2, h3, h4⟩, fun ⟨d, v, h1, h2, h3, h4⟩ => ⟨d, h1, v, h2, h3, h4⟩⟩

theorem moveRegBaseImmAt_eq_next {w : Width} {rd rb : RegOperand} {imm : Word} {s t : State} :
    moveRegBaseImmAt w rd rb imm s = .next t ↔ ∃ d b v, reg s rd = .ok d ∧ reg s rb = .ok b ∧
      memRead s (baseImmAddress s w b imm) w.bytes = .ok v ∧ (d = .clr → v.toNat % 16 ≤ 13) ∧
      t = (s.writeAt w d v).advanceUnlessIp d (lengthOf w .rri) := by
  simp only [moveRegBaseImmAt, outcome_eq_next, bind_eq_ok, deliver_eq_ok]
  exact ⟨fun ⟨d, h1, b, h2, v, h3, h4⟩ => ⟨d, b, v, h1, h2, h3, h4⟩,
    fun ⟨d, b, v, h1, h2, h3, h4⟩ => ⟨d, h1, b, h2, v, h3, h4⟩⟩

theorem moveRegBaseIndexAt_eq_next {w : Width} {rd rb ri : RegOperand} {s t : State} :
    moveRegBaseIndexAt w rd rb ri s = .next t ↔ ∃ d b i v, reg s rd = .ok d ∧ reg s rb = .ok b ∧ reg s ri = .ok i ∧
      memRead s (baseIndexAddress s w b i) w.bytes = .ok v ∧ (d = .clr → v.toNat % 16 ≤ 13) ∧
      t = (s.writeAt w d v).advanceUnlessIp d (lengthOf w .rrr) := by
  simp only [moveRegBaseIndexAt, outcome_eq_next, bind_eq_ok, deliver_eq_ok]
  exact ⟨fun ⟨d, h1, b, h2, i, h3, v, h4, h5⟩ => ⟨d, b, i, v, h1, h2, h3, h4, h5⟩,
    fun ⟨d, b, i, v, h1, h2, h3, h4, h5⟩ => ⟨d, h1, b, h2, i, h3, v, h4, h5⟩⟩

theorem moveMemRegAt_eq_next {w : Width} {addr : Word} {rs : RegOperand} {s t : State} :
    moveMemRegAt w addr rs s = .next t ↔ ∃ r u, reg s rs = .ok r ∧
      memWrite s (absoluteAddress w addr) w.bytes (readAt s w r) = .ok u ∧ t = u.advance (lengthOf w .mr) := by
  simp only [moveMemRegAt, outcome_eq_next, bind_eq_ok, Except.ok.injEq]
  exact ⟨fun ⟨r, h1, u, h2, h3⟩ => ⟨r, u, h1, h2, h3.symm⟩, fun ⟨r, u, h1, h2, h3⟩ => ⟨r, h1, u, h2, h3.symm⟩⟩

theorem pushAt_eq_next {w : Width} {o : RegOperand} {s t : State} :
    pushAt w o s = .next t ↔ ∃ r u, reg s o = .ok r ∧ pushValue s w.bytes (readAt s w r) = .ok u ∧
      t = u.advance (lengthOf w .r) := by
  simp only [pushAt, outcome_eq_next, bind_eq_ok, Except.ok.injEq]
  exact ⟨fun ⟨r, h1, u, h2, h3⟩ => ⟨r, u, h1, h2, h3.symm⟩, fun ⟨r, u, h1, h2, h3⟩ => ⟨r, h1, u, h2, h3.symm⟩⟩

theorem popAt_eq_next {w : Width} {o : RegOperand} {s t : State} :
    popAt w o s = .next t ↔ ∃ d v, reg s o = .ok d ∧ memRead s s.sp w.bytes = .ok v ∧
      (d = .clr → v.toNat % 16 ≤ 13) ∧
      t = ((s.withSp (s.sp + BitVec.ofNat 128 w.bytes)).writeAt w d v).advanceUnlessIp d (lengthOf w .r) := by
  simp only [popAt, outcome_eq_next, bind_eq_ok, deliver_eq_ok]
  exact ⟨fun ⟨d, h1, v, h2, h3, h4⟩ => ⟨d, v, h1, h2, h3, h4⟩, fun ⟨d, v, h1, h2, h3, h4⟩ => ⟨d, h1, v, h2, h3, h4⟩⟩

theorem testAt_eq_next {w : Width} {oa ob : RegOperand} {s t : State} :
    testAt w oa ob s = .next t ↔ ∃ a b, reg s oa = .ok a ∧ reg s ob = .ok b ∧
      t = ((s.setFlags w (readAt s w a &&& readAt s w b) false).advance (lengthOf w .rr)).withTemp
        (readAt s w a &&& readAt s w b) := by
  simp only [testAt, outcome_eq_next, bind_eq_ok, Except.ok.injEq]
  exact ⟨fun ⟨a, h1, b, h2, h3⟩ => ⟨a, b, h1, h2, h3.symm⟩, fun ⟨a, b, h1, h2, h3⟩ => ⟨a, h1, b, h2, h3.symm⟩⟩

theorem xorAt_eq_next {w : Width} {oa ob : RegOperand} {s t : State} :
    xorAt w oa ob s = .next t ↔ ∃ a b, reg s oa = .ok a ∧ reg s ob = .ok b ∧
      (a = .clr → (readAt s w a ^^^ readAt s w b).toNat % 16 ≤ 13) ∧
      t = ((s.writeAt w a (readAt s w a ^^^ readAt s w b)).setLogicFlags w (readAt s w a ^^^ readAt s w b)
        false).advanceUnlessIp a (lengthOf w .rr) := by
  simp only [xorAt, outcome_eq_next, bind_eq_ok, Except.ok.injEq]
  exact ⟨fun ⟨a, h1, b, h2, _, h3, h4⟩ => ⟨a, b, h1, h2, checkReserved_eq_ok.mp h3, h4.symm⟩,
    fun ⟨a, b, h1, h2, h3, h4⟩ => ⟨a, h1, b, h2, (), checkReserved_eq_ok.mpr h3, h4.symm⟩⟩

theorem shlAt_eq_next {w : Width} {oa : RegOperand} {count : Word} {s t : State} :
    shlAt w oa count s = .next t ↔ ∃ a, reg s oa = .ok a ∧
      (a = .clr → (shlResult w (readAt s w a) count).toNat % 16 ≤ 13) ∧
      t = ((s.writeAt w a (shlResult w (readAt s w a) count)).setLogicFlags w (shlResult w (readAt s w a) count)
        (Config.shlOverflow s.draws)).advanceUnlessIp a (lengthOf w .ri) := by
  simp only [shlAt, outcome_eq_next, bind_eq_ok, Except.ok.injEq]
  exact ⟨fun ⟨a, h1, _, h3, h4⟩ => ⟨a, h1, checkReserved_eq_ok.mp h3, h4.symm⟩,
    fun ⟨a, h1, h3, h4⟩ => ⟨a, h1, (), checkReserved_eq_ok.mpr h3, h4.symm⟩⟩

theorem compAt_eq_next {w : Width} {oa : RegOperand} {imm : Word} {s t : State} :
    compAt w oa imm s = .next t ↔ ∃ r, reg s oa = .ok r ∧
      t = ((s.setFlags w (difference w (readAt s w r) (trunc w imm)) (subOverflow w (readAt s w r)
        (trunc w imm))).advance (lengthOf w .ri)).withTemp (difference w (readAt s w r) (trunc w imm)) := by
  simp only [compAt, outcome_eq_next, bind_eq_ok, Except.ok.injEq]
  exact ⟨fun ⟨r, h1, h2⟩ => ⟨r, h1, h2.symm⟩, fun ⟨r, h1, h2⟩ => ⟨r, h1, h2.symm⟩⟩

theorem execJsr_eq_next {x : Word} {s t : State} :
    execJsr x s = .next t ↔ ∃ u, pushValue s 16 (s.ip + 17) = .ok u ∧ t = u.jump x := by
  simp only [execJsr, outcome_eq_next, bind_eq_ok, Except.ok.injEq]
  exact ⟨fun ⟨u, h1, h2⟩ => ⟨u, h1, h2.symm⟩, fun ⟨u, h1, h2⟩ => ⟨u, h1, h2.symm⟩⟩

theorem execRfs_eq_next {s t : State} :
    execRfs s = .next t ↔ ∃ v, memRead s s.sp 16 = .ok v ∧ t = (s.withSp (s.sp + 16)).jump v := by
  simp only [execRfs, outcome_eq_next, bind_eq_ok, Except.ok.injEq]
  exact ⟨fun ⟨v, h1, h2⟩ => ⟨v, h1, h2.symm⟩, fun ⟨v, h1, h2⟩ => ⟨v, h1, h2.symm⟩⟩

theorem execU2k_eq_next {s t : State} :
    execU2k s = .next t ↔ ∃ entry u, s.platform.u2kEntry = some entry ∧ pushValue s 16 (s.ip + 1) = .ok u ∧
      t = (u.withPl .privileged).jump entry := by
  unfold execU2k
  split
  · rename_i h
    simp [h]
  · rename_i entry h
    simp only [outcome_eq_next, bind_eq_ok, Except.ok.injEq, h, Option.some.injEq]
    exact ⟨fun ⟨u, h1, h2⟩ => ⟨entry, u, rfl, h1, h2.symm⟩, fun ⟨_, u, e, h1, h2⟩ => ⟨u, h1, by rw [e]; exact h2.symm⟩⟩

/-- An instruction whose operands have a width is never refused. -/
theorem execSized_ne_refused (w : Width) (body : Sized) (s : State) (r : Refusal) : execSized w body s ≠ .refused r := by
  cases body <;> exact outcome_ne_refused _ r

end Sys2Proof.Machine
end

