-- ==== Sys2Proof/Laws/Fetch.lean ====
section
/-! SUPPORT. What fetching instruction bytes answers, and which byte's fault it reports. -/

namespace Sys2Proof.Machine

/-- A byte's fetch faults where its translation does, and where its physical address has no memory (R58, R52). -/
theorem fetchByte_eq_error {s : State} {k : Nat} {f : Fault} :
    fetchByte s k = .error f ↔
      translateByte s .exec k (s.ip + BitVec.ofNat 128 k) = .error f ∨
      ∃ pa, translateByte s .exec k (s.ip + BitVec.ofNat 128 k) = .ok pa ∧ s.inPhysMem pa = false ∧
        f = .physicalAccessFault pa := by
  simp only [fetchByte, bind_eq_error, physRead_eq_error, reduceCtorEq, and_false, exists_false, or_false]
  refine or_congr_right (exists_congr fun pa => and_congr_right fun _ => ?_)
  rw [and_comm]
  refine and_congr_left fun _ => ⟨fun ⟨j, hj, h⟩ => ?_, fun h => ⟨0, by omega, by simpa using h⟩⟩
  obtain rfl : j = 0 := by omega
  simpa using h

/-- Fetched bytes are the first of them and the rest. -/
theorem fetchBytes_eq_cons {s : State} {k n : Nat} {b : Byte} {bs : List Byte} :
    fetchBytes s k (n + 1) = .ok (b :: bs) ↔ fetchByte s k = .ok b ∧ fetchBytes s (k + 1) n = .ok bs := by
  simp only [fetchBytes, bind_eq_ok, Except.ok.injEq, List.cons.injEq]
  constructor
  · rintro ⟨_, h, _, h', rfl, rfl⟩
    exact ⟨h, h'⟩
  · rintro ⟨h, h'⟩
    exact ⟨b, h, bs, h', rfl, rfl⟩

/-- The first byte whose fetch faults gives the fault of the whole fetch. -/
theorem fetchBytes_first_fault {s : State} {k j n : Nat} {bs : List Byte} {f : Fault} (hj : j < n)
    (h : fetchBytes s k j = .ok bs) (hf : fetchByte s (k + j) = .error f) : fetchBytes s k n = .error f := by
  induction j generalizing k n bs with
  | zero =>
    obtain ⟨n, rfl⟩ := Nat.exists_eq_succ_of_ne_zero (by omega : n ≠ 0)
    simp only [fetchBytes, show fetchByte s k = .error f from hf, error_bind]
  | succ j ih =>
    obtain ⟨n, rfl⟩ := Nat.exists_eq_succ_of_ne_zero (by omega : n ≠ 0)
    simp only [fetchBytes, bind_eq_ok] at h
    obtain ⟨b, hb, bs', hbs, -⟩ := h
    have hrest := ih (by omega : j < n) hbs (by rwa [show k + 1 + j = k + (j + 1) by omega])
    simp only [fetchBytes, hb, ok_bind, hrest, error_bind]

end Sys2Proof.Machine
end

