-- ==== Sys2Proof/Laws/PerInstr.lean ====
section
/-! SUPPORT. The per-instruction family: every encoding has the length R108 gives its instruction. -/

namespace Sys2Proof.Laws.EncodedLength

open Sys2Proof Sys2Proof.Machine

/-- The encoding of the instruction has its length (R108). -/
def Statement (i : Instr) : Prop := (encode i).length = i.length

/-- The encoding at a width has the length of the format at that width. -/
theorem sized (w : Width) (body : Sized) : (encodeSized w body).length = lengthOf w body.format := by
  cases body <;> simp [encodeSized, lengthOf, Sized.format, Format.operandBytes, addressBytes, params] <;> omega

theorem moveRegReg (rd rs : RegOperand) : Statement (.moveRegReg rd rs) := sized .w128 (.moveRegReg rd rs)

theorem moveRegMem (rd : RegOperand) (addr : Word) : Statement (.moveRegMem rd addr) := sized .w128 (.moveRegMem rd addr)

theorem moveRegBaseImm (rd rb : RegOperand) (imm : Word) : Statement (.moveRegBaseImm rd rb imm) := sized .w128 (.moveRegBaseImm rd rb imm)

theorem moveRegBaseIndex (rd rb ri : RegOperand) : Statement (.moveRegBaseIndex rd rb ri) := sized .w128 (.moveRegBaseIndex rd rb ri)

theorem moveMemReg (addr : Word) (rs : RegOperand) : Statement (.moveMemReg addr rs) := sized .w128 (.moveMemReg addr rs)

theorem push (r : RegOperand) : Statement (.push r) := sized .w128 (.push r)

theorem pop (r : RegOperand) : Statement (.pop r) := sized .w128 (.pop r)

theorem jie (target : Word) : Statement (.jie target) := by
  simp [Statement, encode, Instr.length, lengthOf, Format.operandBytes, prefixBytes]

theorem jil (target : Word) : Statement (.jil target) := by
  simp [Statement, encode, Instr.length, lengthOf, Format.operandBytes, prefixBytes]

theorem jmp (target : Word) : Statement (.jmp target) := by
  simp [Statement, encode, Instr.length, lengthOf, Format.operandBytes, prefixBytes]

theorem jsr (target : Word) : Statement (.jsr target) := by
  simp [Statement, encode, Instr.length, lengthOf, Format.operandBytes, prefixBytes]

theorem rfs : Statement .rfs := rfl

theorem u2k : Statement .u2k := rfl

theorem test (ra rb : RegOperand) : Statement (.test ra rb) := sized .w128 (.test ra rb)

theorem xor (ra rb : RegOperand) : Statement (.xor ra rb) := sized .w128 (.xor ra rb)

theorem shl (ra : RegOperand) (count : Word) : Statement (.shl ra count) := sized .w128 (.shl ra count)

theorem comp (ra : RegOperand) (imm : Word) : Statement (.comp ra imm) := sized .w128 (.comp ra imm)

theorem prefix8 (body : Sized) : Statement (.prefix8 body) := sized .w8 body

theorem prefix16 (body : Sized) : Statement (.prefix16 body) := sized .w16 body

theorem prefix32 (body : Sized) : Statement (.prefix32 body) := sized .w32 body

theorem prefix64 (body : Sized) : Statement (.prefix64 body) := sized .w64 body

end Sys2Proof.Laws.EncodedLength
end

