-- ==== Sys2Proof/Laws/Translate.lean ====
section
/-! SUPPORT. What `translateByte`, `walk` and the checks of one entry answer, each said once and in numbers. -/

namespace Sys2Proof.Machine

/-- A bit field as a number. -/
theorem bitField_toNat (e : Word) (low len : Nat) (h : len ≤ 128) :
    (bitField e low len).toNat = e.toNat / 2 ^ low % 2 ^ len := by
  simp only [bitField, BitVec.toNat_setWidth, BitVec.extractLsb'_toNat, Nat.shiftRight_eq_div_pow]
  apply Nat.mod_eq_of_lt
  exact lt_of_lt_of_le (Nat.mod_lt _ (Nat.two_pow_pos _)) (Nat.pow_le_pow_right (by decide) h)

theorem bitField_eq_zero (e : Word) (low len : Nat) (h : len ≤ 128) :
    bitField e low len = 0 ↔ e.toNat / 2 ^ low % 2 ^ len = 0 := by
  rw [← BitVec.toNat_inj, bitField_toNat _ _ _ h]
  rfl

/-- The address an entry names as a number: its page number times 4096. -/
theorem entryTarget_toNat (e : Word) : (entryTarget e).toNat = e.toNat / 2 ^ 5 % 2 ^ 40 * 4096 := by
  simp [entryTarget, bitField, BitVec.extractLsb'_toNat, params, Nat.shiftLeft_eq, Nat.shiftRight_eq_div_pow]
  omega

/-- The index into a table as a number. -/
theorem tableIndex_toNat (m : Nat) (va : Word) : (tableIndex m va).toNat = va.toNat / 2 ^ (12 + 9 * m) % 512 := by
  rw [tableIndex_eq]
  exact bitField_toNat _ _ _ (by omega)

/-- The checks of an entry, in their order. -/
theorem entryFault_eq (e : Word) (acc : Access) (pl : Privilege) (va : Word) :
    entryFault e acc pl va =
      if e.getLsbD 1 = false then some (.npp va)
      else if e.toNat / 2 ^ 45 % 2 ^ 19 ≠ 0 then some (.nzr va)
      else if e.toNat / 2 ^ 5 % 2 ^ 40 = 0 then some (.nnl va)
      else if e.getLsbD 3 = true ∧ pl = .unprivileged then some (.upp va)
      else entryDenies e acc va := by
  unfold entryFault
  simp only [params, bitField_eq_zero _ 45 19 (by omega), bitField_eq_zero _ 5 40 (by omega), ne_eq]
  cases h : e.getLsbD 1 <;> simp

/-- One table of a walk: the entry is read and checked, and the walk goes on at the address it names. -/
theorem walk_succ (s : State) (acc : Access) (k : Nat) (va : Word) (m : Nat) (base : Word) :
    walk s acc k va (m + 1) base =
      match physRead s ⟨acc, k, m + 2⟩ (base + 8 * tableIndex m va) 8 with
      | .error f => .error f
      | .ok e =>
        match entryFault e acc s.pl va with
        | some f => .error f
        | none => walk s acc k va m (entryTarget e) := by
  rw [walk, entryAddress_eq, params_pte]
  cases physRead s ⟨acc, k, m + 2⟩ (base + 8 * tableIndex m va) 8 <;> rfl

/-- The cases of a translation. -/
theorem translateByte_eq (s : State) (acc : Access) (k : Nat) (va : Word) :
    translateByte s acc k va =
      if pglOf s.clr = 0 then .ok va
      else if 13 < pglOf s.clr then .error (.reservedValue .clrPgl)
      else if canonical (pglOf s.clr) va = true then walk s acc k va (pglOf s.clr - 1) s.ptp
      else .error (.ncc va) := by
  unfold translateByte
  cases h : canonical (pglOf s.clr) va <;> simp [h]

end Sys2Proof.Machine
end

