-- ==== Sys2Proof/Tests/Slice0.lean ====
section
/-! SUPPORT. The model's own tests. Part 1: each check of WellFormed refuses an ill-formed term. Part 2: words written out
from the encodings of the spec decode to their instructions. Part 3: one step on a small state; the expected results are
the vectors of 95_test_vectors.md (named M, K, J, A, C, E, T there). Part 4: for every statement with hypotheses, values
that meet them (`witness_<name of the statement>`). -/

namespace Sys2Proof.Tests

open Sys2Proof Sys2Proof.Machine

/-! ### Helpers -/

/-- `R1` is `r 0`. -/
def r (k : Fin 32) : RegOperand := .named (.gpr k)

/-- The state with bytes of memory written. -/
def bytesAt (s : State) (a : Word) (bs : List Byte) : State :=
  s.withMem (s.mem.storeAll (addressesFrom a bs.length) bs)

/-- The conventions of 95_test_vectors.md: privileged, paging off, `pc = 0x1000`, every byte in `PHYS_MEM`, FLAGS = 0. -/
def at1000 (code : List Byte) : State :=
  bytesAt { State.reset with
    clr := 0
    ip := 0x1000
    platform := { State.reset.platform with u2kEntry := some 0xF000 } } 0x1000 code

/-- The same at the unprivileged level. -/
def user (code : List Byte) : State := (at1000 code).withPl .unprivileged

/-- A number of equal bytes. -/
def many (n : Nat) (b : Byte) : List Byte := List.replicate n b

def ends (o : Host.Outcome State Fault Refusal) (p : State → Bool) : Bool :=
  match o with
  | .next t => p t
  | .fault _ => false
  | .refused _ => false

def faults (o : Host.Outcome State Fault Refusal) (f : Fault) : Bool :=
  match o with
  | .next _ => false
  | .fault g => decide (g = f)
  | .refused _ => false

/-- The bytes of memory from an address up. -/
def holds (t : State) (a : Word) (bs : List Byte) : Bool :=
  decide ((addressesFrom a bs.length).map (fun pa => t.mem.lookup pa.toNat) = bs.map some)

def answers {α : Type} [DecidableEq α] (x : Except Fault α) (v : α) : Bool :=
  match x with
  | .ok a => decide (a = v)
  | .error _ => false

def stops {α : Type} (x : Except Fault α) (f : Fault) : Bool :=
  match x with
  | .ok _ => false
  | .error g => decide (g = f)

/-! ### Part 1. WellFormed -/

/-- The byte 26 names CLR, so an unassigned operand with it is ill-formed, in every position. -/
theorem test_wf_register_operands :
    [Instr.moveRegReg (.unassigned 0x26) (r 0), .moveRegReg (r 0) (.unassigned 0x26), .moveRegMem (.unassigned 0) 0,
      .moveRegBaseImm (.unassigned 0) (r 0) 0, .moveRegBaseImm (r 0) (.unassigned 0) 0,
      .moveRegBaseIndex (.unassigned 0) (r 0) (r 0), .moveRegBaseIndex (r 0) (.unassigned 0) (r 0),
      .moveRegBaseIndex (r 0) (r 0) (.unassigned 0), .moveMemReg 0 (.unassigned 0), .push (.unassigned 0x1F),
      .pop (.unassigned 0x20), .test (.unassigned 0) (r 0), .test (r 0) (.unassigned 0), .xor (.unassigned 0) (r 0),
      .xor (r 0) (.unassigned 0), .shl (.unassigned 0) 0, .comp (.unassigned 0) 0].all (fun i => !i.wf) = true := by decide

/-- A field wider than the operand width is ill-formed, in every format that has one and at every narrow width. -/
theorem test_wf_fields :
    [Instr.prefix8 (.moveRegMem (r 0) 0x100), .prefix8 (.moveRegBaseImm (r 0) (r 0) 0x100), .prefix8 (.moveMemReg 0x100 (r 0)),
      .prefix8 (.shl (r 0) 0x100), .prefix8 (.comp (r 0) 0x100), .prefix16 (.comp (r 0) 0x10000),
      .prefix32 (.comp (r 0) 0x100000000), .prefix64 (.comp (r 0) 0x10000000000000000)].all (fun i => !i.wf) = true := by
  decide

/-- The largest value of each field, and an unassigned register byte, are well-formed. -/
theorem test_wf_accepts :
    [Instr.prefix8 (.comp (r 0) 0xFF), .prefix16 (.comp (r 0) 0xFFFF), .prefix32 (.comp (r 0) 0xFFFFFFFF),
      .prefix64 (.comp (r 0) 0xFFFFFFFFFFFFFFFF), .comp (.unassigned 0x27) (BitVec.allOnes 128),
      .push (.unassigned 0xFF)].all Instr.wf = true := by decide

/-! ### Part 2. Decoding words of the spec -/

def reads (bs : List Byte) (i : Instr) : Bool :=
  match decode bs with
  | .ok (j, rest) => decide (j = i) && rest.isEmpty
  | .error _ => false

/-- `MOVE R1, R2` (R132). -/
theorem test_decode_moveRegReg : reads [0x00, 0x00, 0x01] (.moveRegReg (r 0) (r 1)) = true := by decide

/-- Vector M6. -/
theorem test_decode_moveRegMem :
    reads ([0x01, 0x00, 0xF9, 0x2F] ++ many 14 0) (.moveRegMem (r 0) 0x2FF9) = true := by decide

/-- Vector M3. -/
theorem test_decode_moveRegBaseImm :
    reads ([0x02, 0x02, 0x01, 0xF0] ++ many 15 0xFF) (.moveRegBaseImm (r 2) (r 1) (0 - 16)) = true := by decide

/-- `MOVE R4, [R2 + R3]` (R135). -/
theorem test_decode_moveRegBaseIndex :
    reads [0x03, 0x03, 0x01, 0x02] (.moveRegBaseIndex (r 3) (r 1) (r 2)) = true := by decide

/-- `MOVE [0x2010], R2`, program P1. -/
theorem test_decode_moveMemReg :
    reads ([0x04, 0x10, 0x20] ++ many 14 0 ++ [0x01]) (.moveMemReg 0x2010 (r 1)) = true := by decide

/-- Vectors K1 and K3: `PUSH R1` and `POP SP`. -/
theorem test_decode_stack : (reads [0x05, 0x00] (.push (r 0)) && reads [0x06, 0x20] (.pop (.named .sp))) = true := by decide

/-- The four jumps with the target 0x2000, and `RFS` and `U2K` (95_test_vectors.md 2.3). -/
theorem test_decode_control :
    (reads ([0x07, 0x00, 0x20] ++ many 14 0) (.jie 0x2000) && reads ([0x08, 0x00, 0x20] ++ many 14 0) (.jil 0x2000) &&
      reads ([0x09, 0x00, 0x20] ++ many 14 0) (.jmp 0x2000) && reads ([0x0A, 0x00, 0x20] ++ many 14 0) (.jsr 0x2000) &&
      reads [0x0B] .rfs && reads [0x0C] .u2k) = true := by decide

/-- Vectors A4, A7, A9 and C2. -/
theorem test_decode_alu :
    (reads [0x0D, 0x00, 0x01] (.test (r 0) (r 1)) && reads [0x0E, 0x23, 0x00] (.xor (.named .flags) (r 0)) &&
      reads ([0x0F, 0x00, 0x7F] ++ many 15 0) (.shl (r 0) 127) &&
      reads ([0x10, 0x00, 0x40] ++ many 15 0) (.comp (r 0) 0x40)) = true := by decide

/-- Vectors M4, M1, M2 and K6: one word of each prefix. -/
theorem test_decode_prefixes :
    (reads [0x11, 0x02, 0x03, 0x01, 0x10] (.prefix8 (.moveRegBaseImm (r 3) (r 1) 0x10)) &&
      reads [0x12, 0x00, 0x04, 0x05] (.prefix16 (.moveRegReg (r 4) (r 5))) &&
      reads [0x13, 0x01, 0x00, 0x00, 0x20, 0x00, 0x00] (.prefix32 (.moveRegMem (r 0) 0x2000)) &&
      reads [0x14, 0x05, 0x00] (.prefix64 (.push (r 0)))) = true := by decide

/-- The opcode table's numbering: byte 0 of the word is the first byte, and the bits above the row's are 0. -/
theorem test_table_words :
    decodeTableWord 24 0x010000 = some (.moveRegReg (r 0) (r 1)) ∧
    decodeTableWord 16 0x0011 = some (.prefix8 (.moveRegReg (r 0) (r 0))) ∧ decodeTableWord 8 0x15 = none := by decide

/-- `step` runs the placed word as the first instruction after reset. -/
theorem test_withFetchWord :
    ends (step (State.reset.withFetchWord 24 0x012100)) (fun t => decide (t.ip = t.read (.gpr 1))) = true := by decide

/-! ### Part 3. One step -/

/-- M8: `MOVE IP, R1` is a jump. -/
theorem test_moveRegReg_to_ip :
    ends (step ((at1000 [0x00, 0x21, 0x00]).write (.gpr 0) 0x5000)) (fun t => decide (t.ip = 0x5000)) = true := by decide

/-- M7: `MOVE R1, IP` reads the address of the instruction. -/
theorem test_moveRegReg_from_ip :
    ends (step (at1000 [0x00, 0x00, 0x21])) (fun t => decide (t.read (.gpr 0) = 0x1000 ∧ t.ip = 0x1003)) = true := by decide

/-- M6: a misaligned load across a page boundary. -/
theorem test_moveRegMem :
    ends (step (bytesAt (at1000 ([0x01, 0x00, 0xF9, 0x2F] ++ many 14 0)) 0x2FF9 [0, 1, 2, 3, 4, 5, 6, 7, 8, 9, 10, 11, 12, 13, 14, 15]))
      (fun t => decide (t.read (.gpr 0) = 0x0F0E0D0C0B0A09080706050403020100 ∧ t.ip = 0x1012)) = true := by decide

/-- M13: the first byte outside `PHYS_MEM`. -/
theorem test_moveRegMem_outside :
    faults (step { at1000 ([0x01, 0x00, 0x00, 0x90] ++ many 14 0) with
      platform := { physMem := [⟨0x1000, 0x100⟩], mmioRegions := [], u2kEntry := none } })
      (.physicalAccessFault 0x9000) = true := by decide

/-- M3: the sum of base and displacement wraps at 128 bits. -/
theorem test_moveRegBaseImm :
    ends (step (bytesAt ((at1000 ([0x02, 0x02, 0x01, 0xF0] ++ many 15 0xFF)).write (.gpr 1) 0x3010) 0x3000
      ([0xEF, 0xCD, 0xAB, 0x89, 0x67, 0x45, 0x23, 0x01] ++ many 8 0)))
      (fun t => decide (t.read (.gpr 2) = 0x0123456789ABCDEF ∧ t.ip = 0x1013)) = true := by decide

/-- P3: `MOVE R4, [R1 + R2]`, here without the prefix, with both registers in the sum. -/
theorem test_moveRegBaseIndex :
    ends (step (bytesAt (((at1000 [0x03, 0x03, 0x00, 0x01]).write (.gpr 0) 0x3000).write (.gpr 1) 8) 0x3008
      (many 8 0x11 ++ many 8 0))) (fun t => decide (t.read (.gpr 3) = 0x1111111111111111 ∧ t.ip = 0x1004)) = true := by decide

/-- P1: the store of 16 bytes, least significant first. -/
theorem test_moveMemReg :
    ends (step ((at1000 ([0x04, 0x10, 0x20] ++ many 14 0 ++ [0x01])).write (.gpr 1) 0x40))
      (fun t => holds t 0x2010 ([0x40] ++ many 15 0) && decide (t.ip = 0x1012)) = true := by decide

/-- K1: a push at SP = 0 wraps to the top of the address space. -/
theorem test_push_wraps :
    ends (step ((at1000 [0x05, 0x00]).write (.gpr 0) 0x77))
      (fun t => holds t (0 - 16) ([0x77] ++ many 15 0) && decide (t.sp = 0 - 16 ∧ t.ip = 0x1002)) = true := by decide

/-- K2: `PUSH SP` stores the old SP. -/
theorem test_push_sp :
    ends (step ((at1000 [0x05, 0x20]).write .sp 0x8000))
      (fun t => holds t 0x7FF0 ([0x00, 0x80] ++ many 14 0) && decide (t.sp = 0x7FF0)) = true := by decide

/-- K3: `POP SP` keeps the popped value. -/
theorem test_pop_sp :
    ends (step (bytesAt ((at1000 [0x06, 0x20]).write .sp 0x7FF0) 0x7FF0 ([0x00, 0x90] ++ many 14 0)))
      (fun t => decide (t.sp = 0x9000)) = true := by decide

/-- K7: a reserved paging level faults. -/
theorem test_pop_reserved :
    faults (step (bytesAt ((at1000 [0x06, 0x26]).write .sp 0x7FF0) 0x7FF0 ([0x1F] ++ many 15 0)))
      (.reservedValue .clrPgl) = true := by decide

/-- The JIE column of the table of 95_test_vectors.md 2.3. -/
theorem test_jie :
    ([0, 1, 2, 3, 4, 5, 6, 7].map fun f => ends (step ((at1000 ([0x07, 0x00, 0x20] ++ many 14 0)).write .flags f))
      (fun t => decide (t.ip = 0x2000))) = [false, true, false, true, false, true, false, true] := by decide

/-- The JIL column of the same table. -/
theorem test_jil :
    ([0, 1, 2, 3, 4, 5, 6, 7].map fun f => ends (step ((at1000 ([0x08, 0x00, 0x20] ++ many 14 0)).write .flags f))
      (fun t => decide (t.ip = 0x2000))) = [false, false, true, true, true, true, false, false] := by decide

/-- P1: the JMP at its end. -/
theorem test_jmp :
    ends (step (at1000 ([0x09, 0x00, 0x10] ++ many 14 0))) (fun t => decide (t.ip = 0x1000)) = true := by decide

/-- S1, the source's figure: JSR pushes its own address plus 17. -/
theorem test_jsr :
    ends (step ((at1000 ([0x0A, 0x00, 0x11] ++ many 14 0)).write .sp 0x8000))
      (fun t => holds t 0x7FF0 ([0x11, 0x10] ++ many 14 0) && decide (t.sp = 0x7FF0 ∧ t.ip = 0x1100)) = true := by decide

/-- J2: the return address wraps, and so do the instruction's bytes. -/
theorem test_jsr_wraps :
    ends (step (bytesAt (((at1000 []).write .ip (0 - 21)).write .sp 0x8000) (0 - 21) ([0x0A, 0x00, 0x20] ++ many 14 0)))
      (fun t => holds t 0x7FF0 ([0xFC] ++ many 15 0xFF) && decide (t.ip = 0x2000)) = true := by decide

/-- J3. -/
theorem test_rfs :
    ends (step (bytesAt ((at1000 [0x0B]).write .sp 0x7FF0) 0x7FF0 ([0x11, 0x10] ++ many 14 0)))
      (fun t => decide (t.ip = 0x1011 ∧ t.sp = 0x8000)) = true := by decide

/-- J7: U2K from the unprivileged level. -/
theorem test_u2k :
    ends (step ((user [0x0C]).write .sp 0x8000))
      (fun t => holds t 0x7FF0 ([0x01, 0x10] ++ many 14 0) &&
        decide (t.sp = 0x7FF0 ∧ t.ip = 0xF000 ∧ t.pl = .privileged)) = true := by decide

/-- A4: TEST keeps FLAGS[127:3]. -/
theorem test_test :
    ends (step ((((at1000 [0x0D, 0x00, 0x01]).write (.gpr 0) 3).write (.gpr 1) 5).write .flags 0xFFF8))
      (fun t => decide (t.flags = 0xFFF8 ∧ t.temp = 1)) = true := by decide

/-- A2: SF is bit 127. -/
theorem test_test_sign :
    ends (step ((at1000 [0x0D, 0x00, 0x00]).write (.gpr 0) (BitVec.twoPow 128 127))) (fun t => decide (t.flags = 2)) = true := by
  decide

/-- A6. -/
theorem test_xor :
    ends (step (((at1000 [0x0E, 0x00, 0x01]).write (.gpr 0) (BitVec.twoPow 128 127)).write (.gpr 1) 1))
      (fun t => decide (t.read (.gpr 0) = BitVec.twoPow 128 127 + 1 ∧ t.flags = 2)) = true := by decide

/-- A7: with FLAGS as the destination the result is written first and the flags after it. -/
theorem test_xor_flags :
    ends (step (((at1000 [0x0E, 0x23, 0x00]).write (.gpr 0) 0xFF).write .flags 0xF0)) (fun t => decide (t.flags = 8)) = true := by
  decide

/-- A9: ZF = 0 and SF = 1, and OF is not looked at. -/
theorem test_shl :
    ends (step ((at1000 ([0x0F, 0x00, 0x7F] ++ many 15 0)).write (.gpr 0) 3))
      (fun t => decide (t.read (.gpr 0) = BitVec.twoPow 128 127 ∧ t.ip = 0x1012)) = true := by decide

/-- A10: a count of 128 gives 0. -/
theorem test_shl_full :
    ends (step ((at1000 ([0x0F, 0x00, 0x80] ++ many 15 0)).write (.gpr 0) 3)) (fun t => decide (t.read (.gpr 0) = 0)) = true := by
  decide

/-- C4: the most negative value minus 1 overflows. -/
theorem test_comp_min :
    ends (step ((at1000 ([0x10, 0x00, 0x01] ++ many 15 0)).write (.gpr 0) (BitVec.twoPow 128 127)))
      (fun t => decide (t.temp = BitVec.twoPow 128 127 - 1 ∧ t.flags = 4 ∧ t.ip = 0x1012)) = true := by decide

/-- C5: the most positive value minus -1 overflows. -/
theorem test_comp_max :
    ends (step ((at1000 ([0x10, 0x00] ++ many 16 0xFF)).write (.gpr 0) (BitVec.twoPow 128 127 - 1)))
      (fun t => decide (t.flags = 6)) = true := by decide

/-- M4: a narrow base is truncated before the sum, and the sum does not wrap at 8 bits. -/
theorem test_prefix8_address :
    ends (step (bytesAt ((at1000 [0x11, 0x02, 0x03, 0x01, 0x10]).write (.gpr 1) 0x30F8) 0x108 [0x5A]))
      (fun t => decide (t.read (.gpr 3) = 0x5A ∧ t.ip = 0x1005)) = true := by decide

/-- A5: the upper bits are cleared and not XORed. -/
theorem test_prefix8_xor :
    ends (step (((at1000 [0x11, 0x0E, 0x00, 0x01]).write (.gpr 0) 0xAB12).write (.gpr 1) 0xFF))
      (fun t => decide (t.read (.gpr 0) = 0xED ∧ t.flags = 2 ∧ t.ip = 0x1004)) = true := by decide

/-- M1. -/
theorem test_prefix16_move :
    ends (step (((at1000 [0x12, 0x00, 0x04, 0x05]).write (.gpr 4) 0xFFFFFFFFFFFF).write (.gpr 5) 0xABCD1234))
      (fun t => decide (t.read (.gpr 4) = 0x1234 ∧ t.ip = 0x1004)) = true := by decide

/-- A3: SF is bit 15. -/
theorem test_prefix16_test :
    ends (step (((at1000 [0x12, 0x0D, 0x00, 0x01]).write (.gpr 0) 0x8001).write (.gpr 1) 0xFFFF))
      (fun t => decide (t.flags = 2)) = true := by decide

/-- M2: four address bytes and four data bytes. -/
theorem test_prefix32_load :
    ends (step (bytesAt (at1000 [0x13, 0x01, 0x00, 0x00, 0x20, 0x00, 0x00]) 0x2000 [0x88, 0x77, 0x66, 0x55, 0x44]))
      (fun t => decide (t.read (.gpr 0) = 0x55667788 ∧ t.ip = 0x1007)) = true := by decide

/-- A15. -/
theorem test_prefix32_shl :
    ends (step ((at1000 [0x13, 0x0F, 0x00, 0x04, 0x00, 0x00, 0x00]).write (.gpr 0) 0xF2345678))
      (fun t => decide (t.read (.gpr 0) = 0x23456780 ∧ t.ip = 0x1007)) = true := by decide

/-- K6: SP goes down by 8 and the low 8 bytes are stored. -/
theorem test_prefix64_push :
    ends (step (((at1000 [0x14, 0x05, 0x00]).write .sp 0x8000).write (.gpr 0) 0x0102030405060708090A))
      (fun t => holds t 0x7FF8 [0x0A, 0x09, 0x08, 0x07, 0x06, 0x05, 0x04, 0x03] &&
        decide (t.sp = 0x7FF8 ∧ t.ip = 0x1003)) = true := by decide

/-- P3: the store at its end, with eight address bytes. -/
theorem test_prefix64_store :
    ends (step ((at1000 ([0x14, 0x04, 0x00, 0x31] ++ many 6 0 ++ [0x02])).write (.gpr 2) 0xFFFFFFFFFFFFFFFF))
      (fun t => holds t 0x3100 (many 8 0xFF) && decide (t.ip = 0x100B)) = true := by decide

/-- E9 and E10: the first register operand is checked first. -/
theorem test_operand_order :
    (faults (step (user [0x00, 0x20, 0x27])) (.upe .sp) &&
      faults (step (user [0x00, 0x27, 0x20])) (.illegalEncoding .reservedRegister)) = true := by decide

/-- The state of vectors T6 and T7: two tables at paging level 3. -/
def twoTables : State :=
  bytesAt (bytesAt (((user []).write .clr 3).write .ptp 0x10000) 0x10010 [0x23, 0x02, 0, 0, 0, 0, 0, 0]) 0x11018
    [0xA7, 0x0A, 0, 0, 0, 0, 0, 0]

/-- T6 and T7: the walk of two tables, and the check of WRT at every level. -/
theorem test_walk :
    (answers (translateByte twoTables .read 0 0x403025) 0x55025 &&
      stops (translateByte twoTables .write 0 0x403025) (.uwp 0x403025)) = true := by decide

/-- T4 and T5: the canonical check is sign extension. -/
theorem test_canonical :
    let s := ((user []).write .clr 1).write .ptp 0x40000
    (stops (translateByte s .read 0 0x800) (.ncc 0x800) &&
      answers (translateByte s .write 0 (0 - 0x800)) 0x40800) = true := by decide

/-- The table "One entry, every access" of 95_test_vectors.md 2.7, without its last row. -/
theorem test_entry_checks :
    ([(0 : Word), 0x605, 0x0000200000000002, 0x8000000000000603, 0x3, 0x60A, 0x602, 0x603, 0x613].map fun e =>
      [(Access.read, Privilege.unprivileged), (.read, .privileged), (.write, .unprivileged), (.write, .privileged),
        (.exec, .unprivileged), (.exec, .privileged)].map fun (acc, pl) => entryFault e acc pl 0x1000) =
    let all := fun f => List.replicate 6 (some f)
    [all (.npp 0x1000), all (.npp 0x1000), all (.nzr 0x1000), all (.nzr 0x1000), all (.nnl 0x1000),
      [some (.upp 0x1000), some (.urp 0x1000), some (.upp 0x1000), some (.uwp 0x1000), some (.upp 0x1000), none],
      [some (.urp 0x1000), some (.urp 0x1000), some (.uwp 0x1000), some (.uwp 0x1000), none, none],
      [none, none, some (.uwp 0x1000), some (.uwp 0x1000), none, none],
      [none, none, some (.uwp 0x1000), some (.uwp 0x1000), some (.nep 0x1000), some (.nep 0x1000)]] := by decide

/-! ### Part 4. Values that meet the hypotheses of the statements -/

/-- Both ends of the operand ranges: an 8-bit field at its largest, the two ends of the unassigned bytes. -/
theorem witness_DecodeOfEncodeIsTheInstruction :
    (Instr.prefix8 (.comp (.unassigned 0x27) 0xFF)).WellFormed ∧
    (Instr.moveRegMem (.unassigned 0xFF) (BitVec.allOnes 128)).WellFormed := by decide

theorem witness_EncodeOfDecodeIsTheBytes :
    decode [0x11, 0x10, 0x27, 0xFF, 0x0B] = .ok (.prefix8 (.comp (.unassigned 0x27) 0xFF), [0x0B]) := rfl

theorem witness_DecodedInstructionIsWellFormed : decode [0x0B] = .ok (.rfs, []) := rfl

/-- The bytes at the ends of the ranges 11 to 14. -/
theorem witness_PrefixSelectsTheWidth :
    prefixWidth 0x11 = some .w8 ∧ prefixWidth 0x14 = some .w64 ∧ prefixWidth 0x10 = none ∧ prefixWidth 0x15 = none := by
  decide

theorem witness_StepRunsTheDecodedInstruction :
    fetchBytes (at1000 [0x0B]) 0 1 = .ok [0x0B] ∧ decode [0x0B] = .ok (.rfs, []) ∧
    fetchBytes (at1000 [0x11, 0x05, 0x00]) 0 3 = .ok [0x11, 0x05, 0x00] ∧
    decode [0x11, 0x05, 0x00] = .ok (.prefix8 (.push (r 0)), []) := by
  refine ⟨?_, rfl, ?_, rfl⟩ <;> decide

/-- A machine with memory only below 0x7000. -/
def small : State :=
  { at1000 [] with sp := 0x8000, platform := { physMem := [⟨0, 0x7000⟩], mmioRegions := [], u2kEntry := some 0xF000 } }

/-- A machine at a paging level, with PTP = 0x10000. -/
def paged (n : Word) : State := ((user []).write .clr n).write .ptp 0x10000

/-- One entry at index 1 of the table at 0x10000. -/
def oneEntry (e : Word) : State := bytesAt (paged 2) 0x10008 (toBytes 8 e)

/-- A first byte outside `PHYS_MEM`; the last byte of a JMP and of a prefixed MOVE outside it, after the bytes before; and a
fetch of byte 0 through an entry with NEX = 1. -/
theorem witness_FetchFaultEndsTheStep :
    let jmp := bytesAt { small with ip := 0x6FF0 } 0x6FF0 (0x09 :: many 15 0)
    let move := bytesAt { small with ip := 0x6FFD } 0x6FFD [0x11, 0x00, 0x01]
    (Instr.jmp 0).WellFormed ∧ fetchBytes jmp 0 16 = .ok ((encode (.jmp 0)).take 16) ∧ 16 < (Instr.jmp 0).length ∧
    translateByte jmp .exec 16 (jmp.ip + BitVec.ofNat 128 16) = .ok 0x7000 ∧ jmp.inPhysMem 0x7000 = false ∧
    (Instr.prefix8 (.moveRegReg (r 1) (r 2))).WellFormed ∧ 3 < (Instr.prefix8 (.moveRegReg (r 1) (r 2))).length ∧
    fetchBytes move 0 3 = .ok ((encode (.prefix8 (.moveRegReg (r 1) (r 2)))).take 3) ∧
    translateByte move .exec 3 (move.ip + BitVec.ofNat 128 3) = .ok 0x7000 ∧
    fetchBytes { small with ip := 0x7000 } 0 0 = .ok [] ∧ translateByte { small with ip := 0x7000 } .exec 0 0x7000 = .ok 0x7000 ∧
    fetchBytes (oneEntry 0x613) 0 0 = .ok [] ∧
    stops (translateByte (oneEntry 0x613) .exec 0 ((oneEntry 0x613).ip + BitVec.ofNat 128 0)) (.nep 0x1000) = true := by
  decide

/-- Vectors E1, E2 and E4. -/
theorem witness_UndefinedOpcodeStops :
    fetchByte (at1000 [0x15]) 0 = .ok 0x15 ∧ fetchByte (at1000 [0xFF]) 0 = .ok 0xFF ∧
    fetchByte (at1000 [0x11, 0x15]) 0 = .ok 0x11 ∧ fetchByte (at1000 [0x11, 0x15]) 1 = .ok 0x15 ∧
    fetchByte (at1000 [0x14, 0xFF]) 0 = .ok 0x14 ∧ fetchByte (at1000 [0x14, 0xFF]) 1 = .ok 0xFF := by decide

/-- Vectors J5 and J6. -/
theorem witness_PrefixOnOperandlessRaisesIpo :
    fetchByte (at1000 [0x11, 0x0B]) 0 = .ok 0x11 ∧ fetchByte (at1000 [0x11, 0x0B]) 1 = .ok 0x0B ∧
    fetchByte (at1000 [0x14, 0x0C]) 0 = .ok 0x14 ∧ fetchByte (at1000 [0x14, 0x0C]) 1 = .ok 0x0C := by decide

/-- Each clause at both ends of its range of bytes. -/
theorem witness_PrefixOnJumpOrPrefixStops :
    (∀ b ∈ [(0x07 : Byte), 0x0A, 0x11, 0x14],
      fetchByte (at1000 [0x11, b]) 0 = .ok 0x11 ∧ fetchByte (at1000 [0x11, b]) 1 = .ok b) ∧
    (0x07 : Byte).toNat ≤ 0x0A ∧ (0x0A : Byte).toNat ≤ 0x0A ∧ 0x11 ≤ (0x11 : Byte).toNat ∧ (0x14 : Byte).toNat ≤ 0x14 := by
  decide

/-- Both levels, and both ends of the unassigned bytes. -/
theorem witness_RegisterOperandChecks :
    (user []).pl = .unprivileged ∧ (at1000 []).pl = .privileged ∧ 0x27 ≤ (0x27 : Byte).toNat ∧ 0x27 ≤ (0xFF : Byte).toNat := by
  decide

/-- Vectors E9 and E10, and an instruction whose third operand is the first bad one. -/
theorem witness_FirstBadOperandIsReported :
    firstOperandFault (user []) (operandsOf (.moveRegReg (.named .sp) (.unassigned 0x27))) = some (.upe .sp) ∧
    firstOperandFault (user []) (operandsOf (.moveRegReg (.unassigned 0x27) (.named .sp))) =
      some (.illegalEncoding .reservedRegister) ∧
    firstOperandFault (at1000 []) (operandsOf (.moveRegBaseIndex (r 0) (r 1) (.named .temp))) =
      some (.illegalEncoding .inaccessibleRegister) := by decide

/-- A state with 16 bytes of the value 13 at 0x2000 and SP there. -/
def loaded : State := (bytesAt (at1000 []) 0x2000 ([13] ++ many 15 0)).write .sp 0x2000

/-- To CLR, with the largest paging level, and to IP. -/
theorem witness_MoveRegRegCompletes :
    let s := (at1000 []).write (.gpr 0) 13
    reg s (.named .clr) = .ok .clr ∧ reg s (.named .ip) = .ok .ip ∧ reg s (r 0) = .ok (.gpr 0) ∧
      (s.read (.gpr 0)).toNat % 16 ≤ 13 := by decide

/-- The three address forms, to CLR with the largest paging level. -/
theorem witness_LoadsComplete :
    reg loaded (.named .clr) = .ok .clr ∧ (13 : Word).toNat % 16 ≤ 13 ∧ reg loaded (.named .sp) = .ok .sp ∧
    reg loaded (r 0) = .ok (.gpr 0) ∧
    memRead loaded (trunc .w128 0x2000) Width.w128.bytes = .ok 13 ∧
    memRead loaded (trunc .w128 (loaded.read (.gpr 0)) + trunc .w128 0x2000) Width.w128.bytes = .ok 13 ∧
    memRead loaded (trunc .w128 (loaded.read .sp) + trunc .w128 (loaded.read (.gpr 0))) Width.w128.bytes = .ok 13 := by decide

/-- A store that wraps at the top of the address space. -/
theorem witness_StoreCompletes :
    reg (at1000 []) (r 0) = .ok (.gpr 0) ∧
    translateRange (at1000 []) .write 0 (trunc .w16 0xFFFF) Width.w16.bytes = .ok [0xFFFF, 0x10000] ∧
    translateRange (at1000 []) .write 0 (trunc .w128 (0 - 1)) 16 = .ok (addressesFrom (0 - 1) 16) ∧
    (∀ pa ∈ addressesFrom (0 - 1) 16, (at1000 []).inPhysMem pa = true) :=
  ⟨by decide, by decide, by decide, List.all_eq_true.mp (by decide)⟩

/-- SP = 0: the push wraps. -/
theorem witness_PushCompletes :
    reg (at1000 []) (.named .sp) = .ok .sp ∧
    translateRange (at1000 []) .write 0 ((at1000 []).sp - BitVec.ofNat 128 Width.w128.bytes) Width.w128.bytes =
      .ok (addressesFrom (0 - 16) 16) ∧
    (∀ pa ∈ addressesFrom (0 - 16) 16, (at1000 []).inPhysMem pa = true) :=
  ⟨by decide, by decide, List.all_eq_true.mp (by decide)⟩

/-- To SP, to IP and to CLR. -/
theorem witness_PopCompletes :
    reg loaded (.named .sp) = .ok .sp ∧ reg loaded (.named .ip) = .ok .ip ∧ reg loaded (.named .clr) = .ok .clr ∧
    memRead loaded loaded.sp Width.w128.bytes = .ok 13 ∧ memRead loaded loaded.sp Width.w8.bytes = .ok 13 := by decide

theorem witness_PopReturnsWhatPushStored :
    (at1000 []).clr.toNat % 16 = 0 ∧ (at1000 []).platform.mmioRegions = [] ∧
    (∀ pa ∈ addressesFrom ((at1000 []).sp - BitVec.ofNat 128 Width.w128.bytes) Width.w128.bytes,
      (at1000 []).inPhysMem pa = true) := ⟨by decide, rfl, List.all_eq_true.mp (by decide)⟩

theorem witness_JsrCompletes :
    translateRange (at1000 []) .write 0 ((at1000 []).sp - 16) 16 = .ok (addressesFrom (0 - 16) 16) ∧
    (∀ pa ∈ addressesFrom (0 - 16) 16, (at1000 []).inPhysMem pa = true) :=
  ⟨by decide, List.all_eq_true.mp (by decide)⟩

theorem witness_RfsCompletes : memRead loaded loaded.sp 16 = .ok 13 := by decide

theorem witness_RfsReturnsPastTheJsr :
    (at1000 []).clr.toNat % 16 = 0 ∧ (at1000 []).platform.mmioRegions = [] ∧
    (∀ pa ∈ addressesFrom ((at1000 []).sp - 16) 16, (at1000 []).inPhysMem pa = true) :=
  ⟨by decide, rfl, List.all_eq_true.mp (by decide)⟩

/-- From the unprivileged level. -/
theorem witness_U2kCompletes :
    (user []).platform.u2kEntry = some 0xF000 ∧
    translateRange (user []) .write 0 ((user []).sp - 16) 16 = .ok (addressesFrom (0 - 16) 16) ∧
    (∀ pa ∈ addressesFrom (0 - 16) 16, (user []).inPhysMem pa = true) :=
  ⟨rfl, by decide, List.all_eq_true.mp (by decide)⟩

/-- A platform without an entry. -/
def noEntry : State := { State.reset with platform := { State.reset.platform with u2kEntry := none } }

theorem witness_OnlyU2kWithoutEntryIsRefused :
    noEntry.platform.u2kEntry = none ∧ step (noEntry.withFetchWord 8 0x0C) = .refused .noU2kEntry := ⟨rfl, rfl⟩

theorem witness_TestCompletes : reg (user []) (r 0) = .ok (.gpr 0) ∧ reg (user []) (r 31) = .ok (.gpr 31) := by decide

/-- To CLR, with the largest paging level as the result, and to FLAGS. -/
theorem witness_XorCompletes :
    let s := (at1000 []).write (.gpr 0) 13
    reg s (.named .clr) = .ok .clr ∧ reg s (.named .flags) = .ok .flags ∧ reg s (r 0) = .ok (.gpr 0) ∧
      (trunc .w128 (s.read .clr ^^^ s.read (.gpr 0))).toNat % 16 ≤ 13 := by decide

/-- Of CLR, shifted to the largest even paging level, and of a general register. -/
theorem witness_ShlCompletes :
    let s := (at1000 []).write .clr 6
    reg s (.named .clr) = .ok .clr ∧ reg s (r 0) = .ok (.gpr 0) ∧
      (BitVec.ofNat 128 ((s.read .clr).toNat % 2 ^ 8 * 2 ^ 1 % 2 ^ 8)).toNat % 16 ≤ 13 := by decide

theorem witness_CompCompletes : reg (user []) (r 0) = .ok (.gpr 0) ∧ reg (at1000 []) (.named .ip) = .ok .ip := by decide

theorem witness_CompDecidesTheJumps : reg (user []) (r 0) = .ok (.gpr 0) := by decide

/-- Each clause at the reserved level 14: CLR holds 7, R1 holds 14 or 9, and 16 bytes of the value 14 lie at SP = 0x2000. -/
def reserved : State :=
  (((bytesAt (at1000 []) 0x2000 ([14] ++ many 15 0)).write .sp 0x2000).write .clr 7).write (.gpr 0) 14

theorem witness_ReservedPagingLevelStops :
    let low := reserved.write .clr 0
    reg reserved (.named .clr) = .ok .clr ∧ reg low (.named .clr) = .ok .clr ∧
    reg reserved (r 0) = .ok (.gpr 0) ∧ 13 < (reserved.read (.gpr 0)).toNat % 16 ∧
    memRead low (trunc .w128 0x2000) Width.w128.bytes = .ok 14 ∧ 13 < (14 : Word).toNat % 16 ∧
    reg low (.named .sp) = .ok .sp ∧ memRead low (trunc .w128 (low.read .sp) + trunc .w128 0) Width.w128.bytes = .ok 14 ∧
    reg low (r 1) = .ok (.gpr 1) ∧
    memRead low (trunc .w128 (low.read .sp) + trunc .w128 (low.read (.gpr 1))) Width.w128.bytes = .ok 14 ∧
    memRead low low.sp Width.w128.bytes = .ok 14 ∧
    13 < (low.clr ^^^ low.read (.gpr 0)).toNat % 16 ∧
    (1 : Word).toNat % 2 ^ Width.w8.bits < 4 ∧ 13 < reserved.clr.toNat * 2 ^ ((1 : Word).toNat % 2 ^ Width.w8.bits) % 16 := by
  decide

/-- Every clause: the access runs out of memory (vectors M13 and K8). -/
theorem witness_AccessFaultEndsTheInstruction :
    reg small (r 0) = .ok (.gpr 0) ∧ reg small (.named .sp) = .ok .sp ∧
    stops (memRead small (trunc .w128 0x9000) Width.w128.bytes) (.physicalAccessFault 0x9000) = true ∧
    stops (memRead small (trunc .w128 (small.read .sp) + trunc .w128 0) Width.w128.bytes) (.physicalAccessFault 0x8000) = true ∧
    stops (memRead small (trunc .w128 (small.read .sp) + trunc .w128 (small.read (.gpr 0))) Width.w128.bytes)
      (.physicalAccessFault 0x8000) = true ∧
    stops (memRead small small.sp Width.w128.bytes) (.physicalAccessFault 0x8000) = true ∧
    stops (memWrite small (trunc .w128 0x9000) Width.w128.bytes (trunc .w128 (small.read (.gpr 0))))
      (.physicalAccessFault 0x9000) = true ∧
    stops (memWrite small (small.sp - BitVec.ofNat 128 Width.w128.bytes) Width.w128.bytes (trunc .w128 (small.read (.gpr 0))))
      (.physicalAccessFault 0x7FF0) = true ∧
    stops (memWrite small (small.sp - 16) 16 (small.ip + 17)) (.physicalAccessFault 0x7FF0) = true ∧
    small.platform.u2kEntry = some 0xF000 ∧
    stops (memWrite small (small.sp - 16) 16 (small.ip + 1)) (.physicalAccessFault 0x7FF0) = true := by decide

/-- One fault of each kind, each at a legal paging level: E9, M13, K8 and M10. -/
theorem witness_EachInstructionRaisesOnlyItsFaults :
    (user []).clr.toNat % 16 ≤ 13 ∧ small.clr.toNat % 16 ≤ 13 ∧ (paged 13).clr.toNat % 16 ≤ 13 ∧
    faults (exec (.moveRegReg (.named .sp) (r 0)) (user [])) (.upe .sp) = true ∧
    faults (exec (.moveRegMem (r 0) 0x9000) small) (.physicalAccessFault 0x9000) = true ∧
    faults (exec (.push (r 0)) small) (.physicalAccessFault 0x7FF0) = true ∧
    faults (exec (.moveRegReg (.named .clr) (r 0)) ((at1000 []).write (.gpr 0) 14)) (.reservedValue .clrPgl) = true := by decide

/-- A fetch through an entry that forbids it, and the decoder's faults J5, J4, E1 and E3. -/
theorem witness_FetchRaisesOnlyItsFaults :
    (oneEntry 0x613).clr.toNat % 16 ≤ 13 ∧ stops (fetchInstr (oneEntry 0x613)) (.nep 0x1000) = true ∧
    (at1000 []).clr.toNat % 16 ≤ 13 ∧ stops (fetchInstr (at1000 [0x11, 0x0B])) (.ipo 0x0B) = true ∧
    stops (fetchInstr (at1000 [0x14, 0x0C])) (.ipo 0x0C) = true ∧
    stops (fetchInstr (at1000 [0x11, 0x09])) (.illegalEncoding .prefixOnFixedWidth) = true ∧
    stops (fetchInstr (at1000 [0x15])) (.illegalEncoding .undefinedOpcode) = true ∧
    stops (fetchInstr (at1000 [0x11, 0x12])) (.illegalEncoding .doublePrefix) = true := by decide

theorem witness_LevelZeroIsIdentity : pglOf (at1000 []).clr = 0 := by decide

/-- The addresses on both sides of the canonical boundary: 0x7FF and -0x800, and 0x800. -/
theorem witness_LevelOneReadsNoTable :
    (paged 1).clr.toNat % 16 = 1 ∧
    (∀ i : Fin 128, 12 ≤ i.val → (0x7FF : Word).getLsbD i = (0x7FF : Word).getLsbD 11) ∧
    (∀ i : Fin 128, 12 ≤ i.val → (0 - 0x800 : Word).getLsbD i = (0 - 0x800 : Word).getLsbD 11) ∧
    (0x800 : Word).getLsbD 12 ≠ (0x800 : Word).getLsbD 11 := by decide

/-- The first and the last level. -/
theorem witness_NonCanonicalRaisesNcc : (paged 1).clr.toNat % 16 = 1 ∧ (paged 13).clr.toNat % 16 = 13 := by decide

/-- The largest canonical address of level 13 in its lower half, and the smallest of its upper half; level 1 at address 0. -/
theorem witness_WalkStartsAtPtp :
    (paged 13).clr.toNat % 16 = 13 ∧ (paged 1).clr.toNat % 16 = 1 ∧
    (∀ i : Fin 128, 12 ≤ i.val → (0 : Word).getLsbD i = (0 : Word).getLsbD 11) ∧
    (∀ i : Fin 128, 120 ≤ i.val →
      (BitVec.twoPow 128 119 - 1).getLsbD i = (BitVec.twoPow 128 119 - 1).getLsbD 119) ∧
    (∀ i : Fin 128, 120 ≤ i.val →
      (0 - BitVec.twoPow 128 119).getLsbD i = (0 - BitVec.twoPow 128 119).getLsbD 119) := by decide

/-- T11: the entry at 0x90008 outside `PHYS_MEM`, and an entry of which only the last byte is. -/
theorem witness_EntryOutsidePhysMem :
    let index := fun va : Word => BitVec.ofNat 128 (va.toNat / 2 ^ (12 + 9 * 0) % 512)
    small.inPhysMem ((0x90000 : Word) + 8 * index 0x1000 + BitVec.ofNat 128 0) = false ∧
    small.inPhysMem ((0x6FF1 : Word) + 8 * index 0x1000 + BitVec.ofNat 128 6) = true ∧
    small.inPhysMem ((0x6FF1 : Word) + 8 * index 0x1000 + BitVec.ofNat 128 7) = false := by decide

/-- The entry's bytes are in `PHYS_MEM` and are the entry's, for one entry of each clause, the last clause for each kind of
access. -/
theorem witness_EntryChecksInOrder :
    ([(0 : Word), 0x0000200000000602, 0x3, 0x60A, 0x602, 0x603, 0x613, 0x607].all fun e =>
      [Access.read, .write, .exec].all fun acc =>
        let at' : Word := 0x10000 + 8 * BitVec.ofNat 128 ((0x1000 : Word).toNat / 2 ^ (12 + 9 * 0) % 512)
        (List.range 8).all fun j => (oneEntry e).inPhysMem (at' + BitVec.ofNat 128 j) &&
          decide (e.extractLsb' (8 * j) 8 = (oneEntry e).physByte ⟨acc, 0, 0 + 2⟩ (at' + BitVec.ofNat 128 j))) = true ∧
    ([(0 : Word), 0x0000200000000602, 0x3, 0x60A, 0x602, 0x603, 0x613, 0x607].all fun e => decide (e.toNat < 2 ^ 64)) = true ∧
    [(0 : Word), 0x0000200000000602, 0x3, 0x60A, 0x602].map (fun e =>
      (e.getLsbD 1, decide (e.toNat / 2 ^ 45 % 2 ^ 19 = 0), decide (e.toNat / 2 ^ 5 % 2 ^ 40 ≠ 0), e.getLsbD 3)) =
      [(false, true, false, false), (true, false, true, false), (true, true, false, false), (true, true, true, true),
        (true, true, true, false)] ∧
    (0x602 : Word).getLsbD 0 = false ∧ (0x602 : Word).getLsbD 2 = false ∧ (0x613 : Word).getLsbD 4 = true ∧
    (0x607 : Word).getLsbD 0 = true ∧ (0x607 : Word).getLsbD 2 = true ∧ (0x607 : Word).getLsbD 4 = false ∧
    (paged 2).pl = .unprivileged := by decide

theorem witness_TranslatedAddressHasFiftyTwoBits :
    2 ≤ (oneEntry 0x00001FFFFFFFFFE7).clr.toNat % 16 ∧
    translateByte (oneEntry 0x00001FFFFFFFFFE7) .read 0 0x1FFF = .ok 0xFFFFFFFFFFFFF := by decide

theorem witness_TranslationMapsAPageToAPage :
    2 ≤ (oneEntry 0x603).clr.toNat % 16 ∧ (oneEntry 0x603).platform.mmioRegions = [] ∧
    translateByte (oneEntry 0x603) .read 0 0x1000 = .ok 0x30000 ∧
    (0x1000 : Word).toNat / 4096 = (0x1FFF : Word).toNat / 4096 := by decide

/-- A read and a write whose second byte is in a page that is not present (T-vectors), and accesses whose second byte is
outside `PHYS_MEM`. -/
theorem witness_FirstFaultOfAnAccess :
    let s := bytesAt (oneEntry 0x607) 0x10010 (many 8 0)
    translateByte s .read 0 (0x1FFF + BitVec.ofNat 128 0) = .ok 0x30FFF ∧
    stops (translateByte s .read 1 (0x1FFF + BitVec.ofNat 128 1)) (.npp 0x2000) = true ∧
    translateByte s .write 0 (0x1FFF + BitVec.ofNat 128 0) = .ok 0x30FFF ∧
    stops (translateByte s .write 1 (0x1FFF + BitVec.ofNat 128 1)) (.npp 0x2000) = true ∧
    translateRange small .read 0 0x6FFF 2 = .ok [0x6FFF, 0x7000] ∧
    translateRange small .write 0 0x6FFF 2 = .ok [0x6FFF, 0x7000] ∧
    small.inPhysMem 0x6FFF = true ∧ small.inPhysMem 0x7000 = false := by decide

/-- No byte, and 16 bytes that wrap. -/
theorem witness_MemReadAssemblesTheBytes :
    translateRange loaded .read 0 0 0 = .ok [] ∧ translateRange loaded .read 0 (0 - 1) 16 = .ok (addressesFrom (0 - 1) 16) ∧
    (∀ pa ∈ addressesFrom (0 - 1) 16, loaded.inPhysMem pa = true) :=
  ⟨rfl, by decide, List.all_eq_true.mp (by decide)⟩

theorem witness_NarrowReadSeesTheBytesItNames :
    (at1000 []).clr.toNat % 16 = 0 ∧ (at1000 []).platform.mmioRegions = [] ∧
    (memWrite (at1000 []) (0 - 8) 16 0x0102).isOk = true := by decide

theorem witness_StoreIsSeenByTheNextFetch :
    (at1000 []).clr.toNat % 16 = 0 ∧ (at1000 []).platform.mmioRegions = [] ∧ 0 < Width.w8.bytes ∧ 15 < Width.w128.bytes ∧
    (memWrite (at1000 []) 0x2000 Width.w128.bytes 0x0B).isOk = true := by decide

/-- A step that stores, in a state that meets the invariant. -/
theorem witness_StepKeepsTheInvariant :
    (at1000 [0x05, 0x00]).inv = true ∧ ∃ t, step (at1000 [0x05, 0x00]) = .next t := ⟨by decide, _, rfl⟩

theorem witness_StepKeepsThePlatform : ∃ t, step (at1000 [0x05, 0x00]) = .next t := ⟨_, rfl⟩

/-- From each level, and at the unprivileged one both U2K and another instruction. -/
theorem witness_PrivilegeIsNeverLowered :
    (at1000 [0x0C]).pl = .privileged ∧ (user [0x0C]).pl = .unprivileged ∧ (∃ t, step (at1000 [0x0C]) = .next t) ∧
    (∃ t, step (user [0x0C]) = .next t) ∧ ∃ t, step (user [0x05, 0x00]) = .next t :=
  ⟨rfl, rfl, ⟨_, rfl⟩, ⟨_, rfl⟩, ⟨_, rfl⟩⟩

/-- The three outcomes: a step that is the privileged one, #UPE, and #UPP on a fetch through an entry with PVP = 1. -/
theorem witness_LevelsDifferOnlyInUpeAndUpp :
    (user [0x05, 0x00]).pl = .unprivileged ∧ (oneEntry 0x60B).pl = .unprivileged ∧
    ends (step (user [0x05, 0x00])) (fun _ => true) = true ∧ faults (step (user [0x05, 0x20])) (.upe .sp) = true ∧
    faults (step (oneEntry 0x60B)) (.upp 0x1000) = true ∧
    (0x60B : Word).getLsbD 1 = true ∧ (0x60B : Word).toNat / 2 ^ 45 % 2 ^ 19 = 0 ∧
    (0x60B : Word).toNat / 2 ^ 5 % 2 ^ 40 ≠ 0 ∧ (0x60B : Word).getLsbD 3 = true := by decide

/-- An unprivileged XOR, and an unprivileged PUSH. -/
theorem witness_UnprivilegedStepProtectsTheRegisters :
    (user [0x0E, 0x00, 0x01]).pl = .unprivileged ∧
    fetchInstr (user [0x0E, 0x00, 0x01]) = .ok (.xor (r 0) (r 1)) ∧ fetchInstr (user [0x05, 0x00]) = .ok (.push (r 0)) ∧
    sizedOf (.xor (r 0) (r 1)) = some (.w128, .xor (r 0) (r 1)) ∧
    (∃ t, step (user [0x0E, 0x00, 0x01]) = .next t) ∧ ∃ t, step (user [0x05, 0x00]) = .next t :=
  ⟨rfl, rfl, rfl, rfl, ⟨_, rfl⟩, ⟨_, rfl⟩⟩

/-- FLAGS changed by XOR, and by a privileged MOVE to it. -/
theorem witness_OnlyTheAluAndPrivilegedWritesChangeFlags :
    fetchInstr (at1000 [0x0E, 0x00, 0x01]) = .ok (.xor (r 0) (r 1)) ∧
    ends (step (at1000 [0x0E, 0x00, 0x01])) (fun t => decide (t.flags ≠ (at1000 []).flags)) = true ∧
    destinationOf (.xor (r 0) (r 1)) ≠ some (.named .flags) ∧
    fetchInstr (at1000 [0x00, 0x23, 0x21]) = .ok (.moveRegReg (.named .flags) (.named .ip)) ∧
    ends (step (at1000 [0x00, 0x23, 0x21])) (fun t => decide (t.flags ≠ (at1000 []).flags)) = true := by decide

theorem witness_OnlyStoringInstructionsChangeMemory :
    fetchInstr (at1000 [0x00, 0x00, 0x01]) = .ok (.moveRegReg (r 0) (r 1)) ∧ writesMemory (.moveRegReg (r 0) (r 1)) = false ∧
    (at1000 [0x00, 0x00, 0x01]).inMmio 0x1000 = false ∧ ends (step (at1000 [0x00, 0x00, 0x01])) (fun _ => true) = true := by decide

theorem witness_PtpHasNoEffectAtLevelZero :
    (user []).clr.toNat % 16 = 0 ∧ (user []).pl = .unprivileged ∧
    ends (step (user [0x05, 0x00])) (fun _ => true) = true := by decide

/-- The last instruction of program P1, moved to 0x1000. -/
theorem witness_SelfJumpRunsForEver :
    AtSelfJump (at1000 ([0x09, 0x00, 0x10] ++ many 14 0)) ∧
    (at1000 ([0x09, 0x00, 0x10] ++ many 14 0)).platform.mmioRegions = [] := ⟨rfl, rfl⟩

end Sys2Proof.Tests
end

section
/-! Paging off (R61) and the permissions of one page table entry (R67). -/

namespace Sys2Proof.Memory

open Sys2Proof Sys2Proof.Machine

/-! ### What an entry's bits allow -/

/-- A read needs RED. -/
theorem entryDenies_read_eq_none_iff (e va : Word) :
    entryDenies e .read va = none ↔ e.getLsbD params.pte.red = true := by
  simp [entryDenies]

/-- A write needs WRT. -/
theorem entryDenies_write_eq_none_iff (e va : Word) :
    entryDenies e .write va = none ↔ e.getLsbD params.pte.wrt = true := by
  simp [entryDenies]

/-- A fetch is stopped by NEX: the sense is opposite to RED and WRT. -/
theorem entryDenies_exec_eq_none_iff (e va : Word) :
    entryDenies e .exec va = none ↔ e.getLsbD params.pte.nex = false := by
  simp [entryDenies]

/-- Presence is the first check of R68, so no other bit of an absent entry matters. -/
theorem entryFault_of_not_present {e : Word} (h : e.getLsbD 1 = false) (acc : Access) (pl : Privilege) (va : Word) :
    entryFault e acc pl va = some (.npp va) := by
  rw [entryFault_eq, if_pos h]

/-! ### The statements -/

/-- Settles O36: paging level 0 is the first case of a translation. -/
theorem levelZeroIsIdentity : Obligations.LevelZeroIsIdentity := by
  intro s acc k va hlevel
  rw [translateByte_eq, if_pos hlevel]

/-- Settles O41: each permission by its own bit, and the all-zero entry by its PRS bit. -/
theorem nexForbidsWhereRedAndWrtAllow : Obligations.NexForbidsWhereRedAndWrtAllow := by
  intro e va acc pl
  exact ⟨entryDenies_read_eq_none_iff e va, entryDenies_write_eq_none_iff e va, entryDenies_exec_eq_none_iff e va,
    entryFault_of_not_present BitVec.getLsbD_zero acc pl va⟩

end Sys2Proof.Memory
end

section
/-! The first bytes of an instruction (R109 to R111): the opcode map, the prefix bytes, and a prefix before an instruction
without operands. -/

namespace Sys2Proof.Encoding

open Sys2Proof Sys2Proof.Machine

/-! ### The first-position bytes -/

theorem opcode_toByte_le (op : Opcode) : op.toByte.toNat ≤ 0x10 := by cases op <;> decide

/-- No byte above 10 is an opcode: it would be the byte of that opcode (R109, R110). -/
theorem opcode_ofByte_eq_none {b : Byte} (hb : 0x11 ≤ b.toNat) : Opcode.ofByte b = none := by
  rw [Option.eq_none_iff_forall_ne_some]
  intro op hop
  have hle : op.toByte.toNat ≤ 0x10 := opcode_toByte_le op
  rw [opcode_toByte_ofByte hop] at hle
  omega

/-- The prefix bytes are 11 to 14 (R109, R175). -/
theorem prefixWidth_isSome_iff (b : Byte) : (prefixWidth b).isSome ↔ 0x11 ≤ b.toNat ∧ b.toNat ≤ 0x14 := by
  unfold prefixWidth
  split
  case h_5 not11 not12 not13 not14 =>
    simp only [imp_false] at not11 not12 not13 not14
    simp only [Option.isSome_none, Bool.false_eq_true, false_iff]
    omega
  all_goals simp [*]

theorem prefixWidth_eq_none_iff (b : Byte) : prefixWidth b = none ↔ b.toNat ≤ 0x10 ∨ 0x15 ≤ b.toNat := by
  rw [← Option.not_isSome_iff_eq_none, prefixWidth_isSome_iff]
  omega

/-- Settles O5: the 17 opcodes and the 4 prefixes entry by entry, the bytes assigned to nothing by the range lemmas. -/
theorem opcodeMapIsTheSpecs : Obligations.OpcodeMapIsTheSpecs := by
  unfold Obligations.OpcodeMapIsTheSpecs
  refine ⟨⟨rfl, rfl⟩, ⟨rfl, rfl⟩, ⟨rfl, rfl⟩, ⟨rfl, rfl⟩, ⟨rfl, rfl⟩, ⟨rfl, rfl⟩, ⟨rfl, rfl⟩, ⟨rfl, rfl⟩, ⟨rfl, rfl⟩,
    ⟨rfl, rfl⟩, ⟨rfl, rfl⟩, ⟨rfl, rfl⟩, ⟨rfl, rfl⟩, ⟨rfl, rfl⟩, ⟨rfl, rfl⟩, ⟨rfl, rfl⟩, ⟨rfl, rfl⟩,
    ⟨rfl, rfl, rfl, rfl⟩, ?noPrefixBelow, ?noOpcodeAbove, ?noPrefixAbove⟩
  case noPrefixBelow => exact fun b hb => (prefixWidth_eq_none_iff b).mpr (.inl hb)
  case noOpcodeAbove => exact fun b hb => opcode_ofByte_eq_none hb
  case noPrefixAbove => exact fun b hb => (prefixWidth_eq_none_iff b).mpr (.inr hb)

/-! ### What a prefix byte does to the fetch -/

/-- An instruction without operands has no width for a prefix to select (R111). -/
theorem decodeOpcode_of_operandless {w : Width} {op : Opcode} (hw : w ≠ .w128) (hop : op.format = .n) :
    decodeOpcode w op.toByte = .error (.invalidPrefixOpcode op.toByte) := by
  simp [decodeOpcode, hw, hop]

/-- After a prefix byte, the byte after it is the opcode, decoded at the prefix's width (R119). -/
theorem fetchInstr_of_prefix {s : State} {p b : Byte} {w : Width} (hp : fetchByte s 0 = .ok p) (hw : prefixWidth p = some w)
    (hb : fetchByte s 1 = .ok b) : fetchInstr s = fetchFrom s w 1 b := by
  simp only [fetchInstr, hp, ok_bind, hw, hb]

/-- An opcode byte that is rejected ends the fetch, with no operand byte fetched (R119). -/
theorem fetchFrom_of_decodeOpcode_error {w : Width} {b : Byte} {e : DecodeError} (h : decodeOpcode w b = .error e)
    (s : State) (k : Nat) : fetchFrom s w k b = .error (decodeFault e) := by
  simp only [fetchFrom, h]

theorem step_of_fetchInstr_error {s : State} {f : Fault} (h : fetchInstr s = .error f) : step s = .fault f := by
  simp only [step, h, raise]

/-- A prefix byte and a second byte rejected at its width stop the step with the fault of the rejection. -/
theorem step_of_prefix_decodeOpcode_error {s : State} {p b : Byte} {w : Width} {e : DecodeError}
    (hp : fetchByte s 0 = .ok p) (hw : prefixWidth p = some w) (hb : fetchByte s 1 = .ok b)
    (he : decodeOpcode w b = .error e) : step s = .fault (decodeFault e) :=
  step_of_fetchInstr_error ((fetchInstr_of_prefix hp hw hb).trans (fetchFrom_of_decodeOpcode_error he s 1))

/-- Settles O10: RFS and U2K are the opcodes without operands, and no prefix byte selects 128 bits. -/
theorem prefixOnOperandlessRaisesIpo : Obligations.PrefixOnOperandlessRaisesIpo := by
  intro s p b hp hlow hhigh hb hop
  obtain ⟨w, hw⟩ := Option.isSome_iff_exists.mp ((prefixWidth_isSome_iff p).mpr ⟨hlow, hhigh⟩)
  have hnot128 : w ≠ .w128 := by
    rintro rfl
    exact prefixWidth_ne_w128 p hw
  have rejected : decodeOpcode w b = .error (.invalidPrefixOpcode b) := by
    obtain rfl | rfl := hop
    · exact decodeOpcode_of_operandless (op := .rfs) hnot128 rfl
    · exact decodeOpcode_of_operandless (op := .u2k) hnot128 rfl
  exact step_of_prefix_decodeOpcode_error hp hw hb rejected

end Sys2Proof.Encoding
end

section
/-! The operand-size prefixes (R175): the width of each prefix byte, and the width the decoder gives to an instruction. -/

namespace Sys2Proof.Prefixes

open Sys2Proof Sys2Proof.Machine

/-- The table of R175, one case per width: 128 bits has no prefix byte. -/
theorem bits_of_prefixWidth {p : Byte} {w : Width} (h : prefixWidth p = some w) : w.bits = 8 * 2 ^ (p.toNat - 0x11) := by
  have hp : prefixBytes w = [p] := prefixWidth_eq_some.mp h
  cases w with
  | w128 => exact absurd h (prefixWidth_ne_w128 p)
  | _ =>
    obtain rfl := List.singleton_inj.mp hp
    rfl

theorem decode_of_prefix {p : Byte} {w : Width} (h : prefixWidth p = some w) (b : Byte) (bs : List Byte) :
    decode (p :: b :: bs) = decodeFrom w b bs := by
  simp only [decode, h]

theorem decode_of_not_prefix {b : Byte} (h : prefixWidth b = none) (bs : List Byte) :
    decode (b :: bs) = decodeFrom .w128 b bs := by
  simp only [decode, h]

/-- Settles O6: the width of each prefix byte by the table read backwards, and the two ways the decoder takes at the first
byte. -/
theorem prefixSelectsTheWidth : Obligations.PrefixSelectsTheWidth := by
  unfold Obligations.PrefixSelectsTheWidth
  refine ⟨?widthOfPrefix, ?whichBytes, ?withPrefix, ?withoutPrefix, rfl, exec_ofSized⟩
  case widthOfPrefix => exact fun p w h => bits_of_prefixWidth h
  case whichBytes =>
    intro p
    rw [← Option.not_isSome_iff_eq_none, Encoding.prefixWidth_isSome_iff]
  case withPrefix => exact fun p b bs w h => decode_of_prefix h b bs
  case withoutPrefix => exact fun b bs h => decode_of_not_prefix h bs

end Sys2Proof.Prefixes
end

section
/-! The two directions of the encoding (30_encoding.md R115, R119): an encoding is the prefix bytes of a width, an opcode
byte and the operand bytes of its format, and `decode` answers exactly what those stand for. -/

namespace Sys2Proof.Encoding

open Sys2Proof Sys2Proof.Machine

/-! ### Instructions by their operands -/

/-- Every instruction has operands of a width, or is one of the six of control flow, which have none (R177). -/
theorem cases_ofSized {motive : Instr → Prop} (sized : ∀ w body, motive (.ofSized w body))
    (jie : ∀ x, motive (.jie x)) (jil : ∀ x, motive (.jil x)) (jmp : ∀ x, motive (.jmp x))
    (jsr : ∀ x, motive (.jsr x)) (rfs : motive .rfs) (u2k : motive .u2k) (i : Instr) : motive i := by
  cases i with
  | jie x => exact jie x
  | jil x => exact jil x
  | jmp x => exact jmp x
  | jsr x => exact jsr x
  | rfs => exact rfs
  | u2k => exact u2k
  | moveRegReg rd rs => exact sized .w128 (.moveRegReg rd rs)
  | moveRegMem rd addr => exact sized .w128 (.moveRegMem rd addr)
  | moveRegBaseImm rd rb imm => exact sized .w128 (.moveRegBaseImm rd rb imm)
  | moveRegBaseIndex rd rb ri => exact sized .w128 (.moveRegBaseIndex rd rb ri)
  | moveMemReg addr rs => exact sized .w128 (.moveMemReg addr rs)
  | push r => exact sized .w128 (.push r)
  | pop r => exact sized .w128 (.pop r)
  | test ra rb => exact sized .w128 (.test ra rb)
  | xor ra rb => exact sized .w128 (.xor ra rb)
  | shl ra count => exact sized .w128 (.shl ra count)
  | comp ra imm => exact sized .w128 (.comp ra imm)
  | prefix8 body => exact sized .w8 body
  | prefix16 body => exact sized .w16 body
  | prefix32 body => exact sized .w32 body
  | prefix64 body => exact sized .w64 body

@[simp] theorem sizedOf_ofSized (w : Width) (body : Sized) : sizedOf (.ofSized w body) = some (w, body) := by
  cases w <;> cases body <;> rfl

@[simp] theorem wf_ofSized (w : Width) (body : Sized) : (Instr.ofSized w body).wf = body.wf w := by
  cases w <;> cases body <;> rfl

@[simp] theorem encode_ofSized (w : Width) (body : Sized) : encode (.ofSized w body) = encodeSized w body := by
  cases w <;> cases body <;> rfl

@[simp] theorem length_ofSized (w : Width) (body : Sized) : (Instr.ofSized w body).length = lengthOf w body.format := by
  cases w <;> cases body <;> rfl

/-- R108: an encoding has the length of its format. -/
theorem encode_length (i : Instr) : (encode i).length = i.length := by
  cases i using cases_ofSized with
  | sized w body => rw [encode_ofSized, length_ofSized, Laws.EncodedLength.sized]
  | jie x => exact Laws.EncodedLength.jie x
  | jil x => exact Laws.EncodedLength.jil x
  | jmp x => exact Laws.EncodedLength.jmp x
  | jsr x => exact Laws.EncodedLength.jsr x
  | rfs => rfl
  | u2k => rfl

/-! ### The parts of an encoding -/

/-- The opcode of an instruction with operands of a width (R109). -/
def opcodeOf : Sized → Opcode
  | .moveRegReg _ _ => .moveRegReg
  | .moveRegMem _ _ => .moveRegMem
  | .moveRegBaseImm _ _ _ => .moveRegBaseImm
  | .moveRegBaseIndex _ _ _ => .moveRegBaseIndex
  | .moveMemReg _ _ => .moveMemReg
  | .push _ => .push
  | .pop _ => .pop
  | .test _ _ => .test
  | .xor _ _ => .xor
  | .shl _ _ => .shl
  | .comp _ _ => .comp

/-- The bytes after the opcode byte (R107, R115). -/
def operandBytesOf (w : Width) : Sized → List Byte
  | .moveRegReg rd rs => [rd.toByte, rs.toByte]
  | .moveRegMem rd addr => rd.toByte :: toBytes w.bytes addr
  | .moveRegBaseImm rd rb imm => rd.toByte :: rb.toByte :: toBytes w.bytes imm
  | .moveRegBaseIndex rd rb ri => [rd.toByte, rb.toByte, ri.toByte]
  | .moveMemReg addr rs => toBytes w.bytes addr ++ [rs.toByte]
  | .push r => [r.toByte]
  | .pop r => [r.toByte]
  | .test ra rb => [ra.toByte, rb.toByte]
  | .xor ra rb => [ra.toByte, rb.toByte]
  | .shl ra count => ra.toByte :: toBytes w.bytes count
  | .comp ra imm => ra.toByte :: toBytes w.bytes imm

theorem encodeSized_eq (w : Width) (body : Sized) :
    encodeSized w body = prefixBytes w ++ (opcodeOf body).toByte :: operandBytesOf w body := by
  cases body <;> rfl

theorem format_opcodeOf (body : Sized) : (opcodeOf body).format = body.format := by cases body <;> rfl

/-- Every instruction with operands of a width may stand after a prefix byte (R177). -/
theorem format_ne (body : Sized) : body.format ≠ .n ∧ body.format ≠ .j := by cases body <;> simp [Sized.format]

theorem operandBytesOf_length (w : Width) (body : Sized) :
    (operandBytesOf w body).length = body.format.operandBytes w := by
  have h := Laws.EncodedLength.sized w body
  rw [encodeSized_eq, lengthOf, List.length_append, List.length_cons] at h
  omega

/-! ### Fields of the operand bytes -/

theorem regAt_zero {o : RegOperand} (h : o.wf = true) (bs : List Byte) : regAt (o.toByte :: bs) 0 = o := by
  simp [regAt, ofByte_toByte h]

theorem regAt_one {o : RegOperand} (h : o.wf = true) (b : Byte) (bs : List Byte) :
    regAt (b :: o.toByte :: bs) 1 = o := by
  simp [regAt, ofByte_toByte h]

theorem regAt_two {o : RegOperand} (h : o.wf = true) (b b' : Byte) (bs : List Byte) :
    regAt (b :: b' :: o.toByte :: bs) 2 = o := by
  simp [regAt, ofByte_toByte h]

theorem regAt_length {o : RegOperand} (h : o.wf = true) (bs : List Byte) : regAt (bs ++ [o.toByte]) bs.length = o := by
  simp [regAt, ofByte_toByte h]

theorem fieldAt_length {n : Nat} {v : Word} (h : fitsBytes n v = true) (bs bs' : List Byte) :
    fieldAt (bs ++ toBytes n v ++ bs') bs.length n = v := by
  rw [fieldAt, List.append_assoc, List.drop_left, List.take_left' (toBytes_length n v), fromBytes_field h]

theorem fieldAt_zero {n : Nat} {v : Word} (h : fitsBytes n v = true) (bs : List Byte) :
    fieldAt (toBytes n v ++ bs) 0 n = v := fieldAt_length h [] bs

theorem fieldAt_one {n : Nat} {v : Word} (h : fitsBytes n v = true) (b : Byte) :
    fieldAt (b :: toBytes n v) 1 n = v := by
  simpa using fieldAt_length h [b] []

theorem fieldAt_two {n : Nat} {v : Word} (h : fitsBytes n v = true) (b b' : Byte) :
    fieldAt (b :: b' :: toBytes n v) 2 n = v := by
  simpa using fieldAt_length h [b, b'] []

/-- The decoder's split of the operand bytes undoes the encoder's. -/
theorem decodeOperands_operandBytesOf {w : Width} {body : Sized} (h : body.wf w = true) :
    decodeOperands w (opcodeOf body) (operandBytesOf w body) = .ofSized w body := by
  cases body with
  | moveMemReg addr rs =>
    simp only [Sized.wf, addressBytes_eq, Bool.and_eq_true] at h
    obtain ⟨haddr, hrs⟩ := h
    have hreg := regAt_length hrs (toBytes w.bytes addr)
    rw [toBytes_length] at hreg
    simp only [opcodeOf, operandBytesOf, decodeOperands, addressBytes_eq, fieldAt_zero haddr, hreg]
  | _ =>
    simp only [Sized.wf, addressBytes_eq, Bool.and_eq_true] at h
    simp only [opcodeOf, operandBytesOf, decodeOperands, addressBytes_eq, regAt_zero, regAt_one, regAt_two, fieldAt_one,
      fieldAt_two, h]

/-! ### What the decoder answers -/

/-- The opcodes that an encoding of this width can have: under a prefix byte, those with operands of a width (R111, R112). -/
theorem decodeOpcode_eq_ok {w : Width} {b : Byte} {op : Opcode} :
    decodeOpcode w b = .ok op ↔ b = op.toByte ∧ (w = .w128 ∨ op.format ≠ .n ∧ op.format ≠ .j) := by
  constructor
  · intro h
    unfold decodeOpcode at h
    split at h
    · cases h
    split at h
    · cases h
    rename_i op' hop
    obtain rfl := opcode_toByte_ofByte hop
    split_ifs at h with hw hn hj
    · cases h
      exact ⟨rfl, .inl hw⟩
    · cases h
      exact ⟨rfl, .inr ⟨hn, hj⟩⟩
  · rintro ⟨rfl, h⟩
    obtain rfl | ⟨hn, hj⟩ := h
    · simp [decodeOpcode]
    · simp [decodeOpcode, hn, hj]

/-- After the opcode byte the decoder takes the operand bytes of the format and leaves the rest. -/
theorem decodeFrom_eq_ok {w : Width} {b : Byte} {bs rest : List Byte} {i : Instr} :
    decodeFrom w b bs = .ok (i, rest) ↔ ∃ op ops, decodeOpcode w b = .ok op ∧
      ops.length = op.format.operandBytes w ∧ bs = ops ++ rest ∧ i = decodeOperands w op ops := by
  unfold decodeFrom
  cases hop : decodeOpcode w b with
  | error e => simp
  | ok op =>
    simp only [Except.ok.injEq, exists_and_left, exists_eq_left']
    split
    · rename_i hshort
      simp only [reduceCtorEq, false_iff]
      rintro ⟨ops, hl, rfl, -⟩
      simp only [List.length_append] at hshort
      omega
    · rename_i hlong
      simp only [Except.ok.injEq, Prod.mk.injEq]
      constructor
      · rintro ⟨rfl, rfl⟩
        exact ⟨_, List.length_take_of_le (by omega), (List.take_append_drop _ _).symm, rfl⟩
      · rintro ⟨ops, hl, rfl, rfl⟩
        exact ⟨by rw [List.take_left' hl], List.drop_left' hl⟩

/-- `decode` answers an instruction exactly on the prefix bytes of a width, an opcode byte allowed at it and the operand bytes
of its format, whatever follows (R119). -/
theorem decode_eq_ok {bs rest : List Byte} {i : Instr} :
    decode bs = .ok (i, rest) ↔ ∃ w op ops, decodeOpcode w op.toByte = .ok op ∧
      ops.length = op.format.operandBytes w ∧ bs = prefixBytes w ++ op.toByte :: (ops ++ rest) ∧
      i = decodeOperands w op ops := by
  constructor
  · intro h
    match bs with
    | [] => simp [decode] at h
    | b :: bs =>
      cases hw : prefixWidth b with
      | none =>
        simp only [decode, hw, decodeFrom_eq_ok] at h
        obtain ⟨op, ops, hop, hl, rfl, rfl⟩ := h
        obtain rfl := (decodeOpcode_eq_ok.mp hop).1
        exact ⟨.w128, op, ops, hop, hl, rfl, rfl⟩
      | some w =>
        match bs with
        | [] => simp [decode, hw] at h
        | b' :: bs =>
          simp only [decode, hw, decodeFrom_eq_ok] at h
          obtain ⟨op, ops, hop, hl, rfl, rfl⟩ := h
          obtain rfl := (decodeOpcode_eq_ok.mp hop).1
          exact ⟨w, op, ops, hop, hl, by rw [prefixWidth_eq_some.mp hw]; rfl, rfl⟩
  · rintro ⟨w, op, ops, hop, hl, rfl, rfl⟩
    have hfrom : decodeFrom w op.toByte (ops ++ rest) = .ok (decodeOperands w op ops, rest) :=
      decodeFrom_eq_ok.mpr ⟨op, ops, hop, hl, rfl, rfl⟩
    cases w with
    | w128 => simpa [decode, prefixBytes] using hfrom
    | _ => exact hfrom

/-! ### The round trips -/

/-- A well-formed instruction is what the decoder makes of the parts of its encoding. -/
theorem exists_parts_of_wf {i : Instr} (h : i.WellFormed) :
    ∃ w op ops, decodeOpcode w op.toByte = .ok op ∧ ops.length = op.format.operandBytes w ∧
      encode i = prefixBytes w ++ op.toByte :: ops ∧ i = decodeOperands w op ops := by
  have target (x : Word) : fieldAt (toBytes 16 x) 0 16 = x := by
    simpa using fieldAt_zero (n := 16) (v := x) (by simpa [fitsBytes] using x.isLt) []
  have jump (op : Opcode) (x : Word) (hj : op.format = .j) : (toBytes 16 x).length = op.format.operandBytes .w128 := by
    simp [hj, Format.operandBytes]
  cases i using cases_ofSized with
  | sized w body =>
    refine ⟨w, opcodeOf body, operandBytesOf w body, decodeOpcode_eq_ok.mpr ⟨rfl, .inr ?_⟩, ?_, ?_, ?_⟩
    · rw [format_opcodeOf]
      exact format_ne body
    · rw [operandBytesOf_length, format_opcodeOf]
    · rw [encode_ofSized, encodeSized_eq]
    · exact (decodeOperands_operandBytesOf ((wf_ofSized w body).symm.trans h)).symm
  | jie x => exact ⟨.w128, .jie, toBytes 16 x, rfl, jump .jie x rfl, rfl, by simp only [decodeOperands, target]⟩
  | jil x => exact ⟨.w128, .jil, toBytes 16 x, rfl, jump .jil x rfl, rfl, by simp only [decodeOperands, target]⟩
  | jmp x => exact ⟨.w128, .jmp, toBytes 16 x, rfl, jump .jmp x rfl, rfl, by simp only [decodeOperands, target]⟩
  | jsr x => exact ⟨.w128, .jsr, toBytes 16 x, rfl, jump .jsr x rfl, rfl, by simp only [decodeOperands, target]⟩
  | rfs => exact ⟨.w128, .rfs, [], rfl, rfl, rfl, rfl⟩
  | u2k => exact ⟨.w128, .u2k, [], rfl, rfl, rfl, rfl⟩

/-- Settles O1: an encoding is made of parts that the decoder puts together again. -/
theorem decodeOfEncodeIsTheInstruction : Obligations.DecodeOfEncodeIsTheInstruction := by
  intro i rest h
  obtain ⟨w, op, ops, hop, hl, henc, hi⟩ := exists_parts_of_wf h
  exact decode_eq_ok.mpr ⟨w, op, ops, hop, hl, by rw [henc, List.append_assoc, List.cons_append], hi⟩

/-- Bytes of the right number are the operand bytes of a well-formed instruction of each opcode with operands of a width. -/
theorem exists_operandBytesOf {w : Width} {op : Opcode} (hn : op.format ≠ .n) (hj : op.format ≠ .j) {ops : List Byte}
    (hl : ops.length = op.format.operandBytes w) :
    ∃ body : Sized, body.wf w = true ∧ opcodeOf body = op ∧ operandBytesOf w body = ops := by
  have hw := w.bytes_le
  have fits {bs : List Byte} (h : bs.length = w.bytes) : fitsBytes w.bytes (fromBytes bs) = true :=
    fitsBytes_fromBytes h hw
  have bytes {bs : List Byte} (h : bs.length = w.bytes) : toBytes w.bytes (fromBytes bs) = bs := by
    rw [← h]
    exact toBytes_fromBytes (by omega)
  cases op with
  | jie | jil | jmp | jsr => exact absurd rfl hj
  | rfs | u2k => exact absurd rfl hn
  | moveRegReg =>
    obtain ⟨a, b, rfl⟩ := List.length_eq_two.mp hl
    exact ⟨.moveRegReg (.ofByte a) (.ofByte b), by simp [Sized.wf, ofByte_wf], rfl, by simp [operandBytesOf]⟩
  | test =>
    obtain ⟨a, b, rfl⟩ := List.length_eq_two.mp hl
    exact ⟨.test (.ofByte a) (.ofByte b), by simp [Sized.wf, ofByte_wf], rfl, by simp [operandBytesOf]⟩
  | xor =>
    obtain ⟨a, b, rfl⟩ := List.length_eq_two.mp hl
    exact ⟨.xor (.ofByte a) (.ofByte b), by simp [Sized.wf, ofByte_wf], rfl, by simp [operandBytesOf]⟩
  | moveRegBaseIndex =>
    obtain ⟨a, b, c, rfl⟩ := List.length_eq_three.mp hl
    exact ⟨.moveRegBaseIndex (.ofByte a) (.ofByte b) (.ofByte c), by simp [Sized.wf, ofByte_wf], rfl,
      by simp [operandBytesOf]⟩
  | push =>
    obtain ⟨a, rfl⟩ := List.length_eq_one_iff.mp hl
    exact ⟨.push (.ofByte a), by simp [Sized.wf, ofByte_wf], rfl, by simp [operandBytesOf]⟩
  | pop =>
    obtain ⟨a, rfl⟩ := List.length_eq_one_iff.mp hl
    exact ⟨.pop (.ofByte a), by simp [Sized.wf, ofByte_wf], rfl, by simp [operandBytesOf]⟩
  | moveRegMem =>
    obtain ⟨a, bs, rfl, h⟩ := List.length_eq_succ_iff.mp (hl.trans (Nat.add_comm _ _))
    exact ⟨.moveRegMem (.ofByte a) (fromBytes bs), by simp [Sized.wf, ofByte_wf, fits h], rfl,
      by simp [operandBytesOf, bytes h]⟩
  | shl =>
    obtain ⟨a, bs, rfl, h⟩ := List.length_eq_succ_iff.mp (hl.trans (Nat.add_comm _ _))
    exact ⟨.shl (.ofByte a) (fromBytes bs), by simp [Sized.wf, ofByte_wf, fits h], rfl,
      by simp [operandBytesOf, bytes h]⟩
  | comp =>
    obtain ⟨a, bs, rfl, h⟩ := List.length_eq_succ_iff.mp (hl.trans (Nat.add_comm _ _))
    exact ⟨.comp (.ofByte a) (fromBytes bs), by simp [Sized.wf, ofByte_wf, fits h], rfl,
      by simp [operandBytesOf, bytes h]⟩
  | moveRegBaseImm =>
    obtain ⟨a, bs, rfl, h⟩ := List.length_eq_succ_iff.mp (hl.trans (Nat.add_comm _ _))
    obtain ⟨b, bs, rfl, h'⟩ := List.length_eq_succ_iff.mp h
    exact ⟨.moveRegBaseImm (.ofByte a) (.ofByte b) (fromBytes bs), by simp [Sized.wf, ofByte_wf, fits h'], rfl,
      by simp [operandBytesOf, bytes h']⟩
  | moveMemReg =>
    obtain ⟨bs, a, rfl⟩ := List.eq_nil_or_concat' ops |>.resolve_left (by rintro rfl; cases hl)
    have h : bs.length = w.bytes := by simpa [Opcode.format, Format.operandBytes] using hl
    exact ⟨.moveMemReg (fromBytes bs) (.ofByte a), by simp [Sized.wf, ofByte_wf, fits h], rfl,
      by simp [operandBytesOf, bytes h]⟩

/-- The parts that the decoder puts together are those of the encoding of a well-formed instruction. -/
theorem decodeOperands_wf_and_encode {w : Width} {op : Opcode} {ops : List Byte} (hop : decodeOpcode w op.toByte = .ok op)
    (hl : ops.length = op.format.operandBytes w) :
    (decodeOperands w op ops).WellFormed ∧ encode (decodeOperands w op ops) = prefixBytes w ++ op.toByte :: ops := by
  have unprefixed (h : op.format = .n ∨ op.format = .j) : w = .w128 :=
    (decodeOpcode_eq_ok.mp hop).2.resolve_right (by tauto)
  by_cases hn : op.format = .n
  · obtain rfl := unprefixed (.inl hn)
    obtain rfl : ops = [] := by simpa [hn, Format.operandBytes] using hl
    cases op with
    | rfs | u2k => exact ⟨rfl, rfl⟩
    | _ => cases hn
  by_cases hj : op.format = .j
  · obtain rfl := unprefixed (.inr hj)
    have hl : ops.length = 16 := by simpa [hj, Format.operandBytes] using hl
    have target : toBytes 16 (fieldAt ops 0 16) = ops := by
      rw [fieldAt, List.drop_zero, ← hl, List.take_length]
      exact toBytes_fromBytes (by omega)
    cases op with
    | jie | jil | jmp | jsr => exact ⟨rfl, congrArg (_ :: ·) target⟩
    | _ => cases hj
  · obtain ⟨body, hwf, rfl, rfl⟩ := exists_operandBytesOf hn hj hl
    rw [decodeOperands_operandBytesOf hwf, encode_ofSized, encodeSized_eq]
    exact ⟨(wf_ofSized w body).trans hwf, rfl⟩

/-- Settles O2: the decoder reads the parts of an encoding and nothing else. -/
theorem encodeOfDecodeIsTheBytes : Obligations.EncodeOfDecodeIsTheBytes := by
  intro bs rest i h
  obtain ⟨w, op, ops, hop, hl, rfl, rfl⟩ := decode_eq_ok.mp h
  rw [(decodeOperands_wf_and_encode hop hl).2, List.append_assoc, List.cons_append]

/-- R108: the longest format has 19 bytes. -/
theorem lengthOf_bounds (w : Width) (f : Format) : 1 ≤ lengthOf w f ∧ lengthOf w f ≤ 19 := by
  cases w <;> cases f <;> decide

theorem length_bounds (i : Instr) : 1 ≤ i.length ∧ i.length ≤ 19 := by
  cases i using cases_ofSized with
  | sized w body =>
    rw [length_ofSized]
    exact lengthOf_bounds w body.format
  | jie | jil | jmp | jsr => exact lengthOf_bounds .w128 .j
  | rfs | u2k => exact lengthOf_bounds .w128 .n

/-- Settles O3: the bytes taken are the encoding, whose length is the instruction's. -/
theorem decodedInstructionIsWellFormed : Obligations.DecodedInstructionIsWellFormed := by
  intro bs rest i h
  have hbs := encodeOfDecodeIsTheBytes bs rest i h
  obtain ⟨w, op, ops, hop, hl, -, rfl⟩ := decode_eq_ok.mp h
  refine ⟨(decodeOperands_wf_and_encode hop hl).1, ?_, length_bounds _⟩
  rw [hbs, List.length_append, encode_length]

/-- Settles O4: each word is a closed byte list, and the decoder is run on it. -/
theorem specWordsDecode : Obligations.SpecWordsDecode := by
  refine ⟨?_, ?_, ?_, ?_, ?_, ?_, ?_⟩ <;> decide

end Sys2Proof.Encoding
end

section
/-! The fetch of one instruction (R119, R58): on the bytes of an encoding it answers the instruction, a byte that cannot be
fetched ends it, and so does an opcode byte that the decoder rejects. -/

namespace Sys2Proof.Fetch

open Sys2Proof Sys2Proof.Machine Sys2Proof.Encoding

/-! ### The step after the fetch -/

theorem step_of_fetchInstr_ok {s : State} {i : Instr} (h : fetchInstr s = .ok i) :
    step s = match exec i s with
      | .next t => .next { t with draws := t.draws + 1 }
      | .fault f => .fault f
      | .refused r => .refused r := by
  simp only [step, h] <;> rfl

theorem fetchInstr_of_not_prefix {s : State} {b : Byte} (hb : fetchByte s 0 = .ok b) (hw : prefixWidth b = none) :
    fetchInstr s = fetchFrom s .w128 0 b := by
  simp only [fetchInstr, hb, ok_bind, hw]

/-! ### Fetching an encoding -/

theorem fetchFrom_of_fetchBytes {s : State} {w : Width} {k : Nat} {op : Opcode} {ops : List Byte}
    (hop : decodeOpcode w op.toByte = .ok op) (h : fetchBytes s (k + 1) (op.format.operandBytes w) = .ok ops) :
    fetchFrom s w k op.toByte = .ok (decodeOperands w op ops) := by
  simp only [fetchFrom, hop, h, ok_bind]

/-- An operand byte that cannot be fetched ends the fetch with its fault. -/
theorem fetchFrom_first_fault {s : State} {w : Width} {k j : Nat} {op : Opcode} {bs : List Byte} {f : Fault}
    (hop : decodeOpcode w op.toByte = .ok op) (hj : j < op.format.operandBytes w)
    (h : fetchBytes s (k + 1) j = .ok bs) (hf : fetchByte s (k + 1 + j) = .error f) :
    fetchFrom s w k op.toByte = .error f := by
  simp only [fetchFrom, hop, fetchBytes_first_fault hj h hf, error_bind]

/-- The prefix bytes of a width are none or one byte that selects it (R175). -/
theorem w128_or_prefix (w : Width) : w = .w128 ∨ ∃ p, prefixBytes w = [p] ∧ prefixWidth p = some w := by
  cases w with
  | w128 => exact .inl rfl
  | _ => exact .inr ⟨_, rfl, rfl⟩

/-- The fetch finds the instruction whose parts lie at `pc`. -/
theorem fetchInstr_of_parts {s : State} {w : Width} {op : Opcode} {ops : List Byte}
    (hop : decodeOpcode w op.toByte = .ok op) (hl : ops.length = op.format.operandBytes w)
    (h : fetchBytes s 0 (prefixBytes w ++ op.toByte :: ops).length = .ok (prefixBytes w ++ op.toByte :: ops)) :
    fetchInstr s = .ok (decodeOperands w op ops) := by
  obtain rfl | ⟨p, hp, hw⟩ := w128_or_prefix w
  · obtain ⟨hb, hops⟩ := fetchBytes_eq_cons.mp h
    rw [fetchInstr_of_not_prefix hb (prefixWidth_opcode op), fetchFrom_of_fetchBytes hop (hl ▸ hops)]
  · rw [hp] at h
    obtain ⟨hb, hrest⟩ := fetchBytes_eq_cons.mp h
    obtain ⟨hb', hops⟩ := fetchBytes_eq_cons.mp hrest
    rw [fetchInstr_of_prefix hb hw hb', fetchFrom_of_fetchBytes hop (hl ▸ hops)]

/-- Settles O7: bytes that decode are the parts of an instruction, and the fetch puts the same parts together. -/
theorem stepRunsTheDecodedInstruction : Obligations.StepRunsTheDecodedInstruction := by
  intro s bs i hfetch hdecode
  obtain ⟨w, op, ops, hop, hl, rfl, rfl⟩ := decode_eq_ok.mp hdecode
  rw [List.append_nil] at hfetch
  exact step_of_fetchInstr_ok (fetchInstr_of_parts hop hl hfetch)

/-! ### A byte that cannot be fetched -/

/-- The fetch ends with the fault of the first byte of an instruction that cannot be fetched: a prefix byte, the opcode byte or
an operand byte. -/
theorem fetchInstr_first_fault {s : State} {w : Width} {op : Opcode} {ops : List Byte} {k : Nat} {f : Fault}
    (hop : decodeOpcode w op.toByte = .ok op) (hl : ops.length = op.format.operandBytes w)
    (hk : k < (prefixBytes w ++ op.toByte :: ops).length)
    (h : fetchBytes s 0 k = .ok ((prefixBytes w ++ op.toByte :: ops).take k)) (hf : fetchByte s k = .error f) :
    fetchInstr s = .error f := by
  obtain _ | k := k
  · simp only [fetchInstr, hf, error_bind]
  obtain rfl | ⟨p, hp, hw⟩ := w128_or_prefix w
  · obtain ⟨hb, hops⟩ := fetchBytes_eq_cons.mp h
    have hk : k < op.format.operandBytes .w128 := by simpa [prefixBytes, hl] using hk
    rw [fetchInstr_of_not_prefix hb (prefixWidth_opcode op)]
    exact fetchFrom_first_fault hop hk hops (by rwa [Nat.add_comm k 1] at hf)
  · rw [hp] at hk h
    obtain ⟨hb, hrest⟩ := fetchBytes_eq_cons.mp h
    obtain _ | k := k
    · simp only [fetchInstr, hb, hw, ok_bind, hf, error_bind]
    · obtain ⟨hb', hops⟩ := fetchBytes_eq_cons.mp hrest
      have hk : k < op.format.operandBytes w := by simpa [hl] using hk
      rw [fetchInstr_of_prefix hb hw hb']
      exact fetchFrom_first_fault hop hk hops (by rwa [show k + 1 + 1 = 1 + 1 + k by omega] at hf)

/-- Settles O8: byte `k` of the encoding is the first that cannot be fetched. -/
theorem fetchFaultEndsTheStep : Obligations.FetchFaultEndsTheStep := by
  intro s i k hwf hk hfetch
  obtain ⟨w, op, ops, hop, hl, henc, -⟩ := exists_parts_of_wf hwf
  rw [← encode_length, henc] at hk
  rw [henc] at hfetch
  have ends {f : Fault} (hf : fetchByte s k = .error f) : step s = .fault f :=
    step_of_fetchInstr_error (fetchInstr_first_fault hop hl hk hfetch hf)
  exact ⟨fun f hf => ends (fetchByte_eq_error.mpr (.inl hf)),
    fun pa hpa hout => ends (fetchByte_eq_error.mpr (.inr ⟨pa, hpa, hout, rfl⟩))⟩

/-! ### An opcode byte that the decoder rejects -/

theorem decodeOpcode_of_undefined {b : Byte} (hb : 0x15 ≤ b.toNat) (w : Width) :
    decodeOpcode w b = .error (.undefinedOpcode b) := by
  have hw : prefixWidth b = none := (prefixWidth_eq_none_iff b).mpr (.inr hb)
  have hop : Opcode.ofByte b = none := opcode_ofByte_eq_none (by omega)
  simp [decodeOpcode, hw, hop]

theorem decodeOpcode_of_second_prefix {b : Byte} (hb : 0x11 ≤ b.toNat ∧ b.toNat ≤ 0x14) (w : Width) :
    decodeOpcode w b = .error (.doublePrefix b) := by
  simp [decodeOpcode, (prefixWidth_isSome_iff b).mpr hb]

/-- A jump has a target of 128 bits whatever the width (R112). -/
theorem decodeOpcode_of_jump {w : Width} {op : Opcode} (hw : w ≠ .w128) (hop : op.format = .j) :
    decodeOpcode w op.toByte = .error (.prefixOnFixedWidth op.toByte) := by
  simp [decodeOpcode, hw, hop]

/-- The opcode bytes 07 to 0A are those of JIE, JIL, JMP and JSR (R109). -/
theorem exists_jump_opcode {b : Byte} (hlow : 0x07 ≤ b.toNat) (hhigh : b.toNat ≤ 0x0A) :
    ∃ op : Opcode, b = op.toByte ∧ op.format = .j := by
  obtain h | h | h | h : b.toNat = 0x07 ∨ b.toNat = 0x08 ∨ b.toNat = 0x09 ∨ b.toNat = 0x0A := by omega
  · exact ⟨.jie, BitVec.eq_of_toNat_eq h, rfl⟩
  · exact ⟨.jil, BitVec.eq_of_toNat_eq h, rfl⟩
  · exact ⟨.jmp, BitVec.eq_of_toNat_eq h, rfl⟩
  · exact ⟨.jsr, BitVec.eq_of_toNat_eq h, rfl⟩

/-- A byte 11 to 14 selects a width other than 128 bits (R175). -/
theorem exists_prefixWidth {p : Byte} (hlow : 0x11 ≤ p.toNat) (hhigh : p.toNat ≤ 0x14) :
    ∃ w, prefixWidth p = some w ∧ w ≠ .w128 := by
  obtain ⟨w, hw⟩ := Option.isSome_iff_exists.mp ((prefixWidth_isSome_iff p).mpr ⟨hlow, hhigh⟩)
  exact ⟨w, hw, fun h => prefixWidth_ne_w128 p (h ▸ hw)⟩

/-- Settles O9: the byte is rejected at every width, so also after a prefix. -/
theorem undefinedOpcodeStops : Obligations.UndefinedOpcodeStops := by
  intro s b hb
  have rejected := decodeOpcode_of_undefined hb
  refine ⟨fun h => ?alone, fun p hp hlow hhigh h => ?afterPrefix⟩
  case alone =>
    have hfetch := fetchInstr_of_not_prefix h ((prefixWidth_eq_none_iff b).mpr (.inr hb))
    exact step_of_fetchInstr_error (hfetch.trans (fetchFrom_of_decodeOpcode_error (rejected .w128) s 0))
  case afterPrefix =>
    obtain ⟨w, hw, -⟩ := exists_prefixWidth hlow hhigh
    exact step_of_prefix_decodeOpcode_error hp hw h (rejected w)

/-- Settles O11: a jump is rejected for its format, a second prefix before its opcode is looked up. -/
theorem prefixOnJumpOrPrefixStops : Obligations.PrefixOnJumpOrPrefixStops := by
  intro s p b hp hlow hhigh hb
  obtain ⟨w, hw, hne⟩ := exists_prefixWidth hlow hhigh
  refine ⟨fun hlow' hhigh' => ?jump, fun hlow' hhigh' => ?second⟩
  case jump =>
    obtain ⟨op, rfl, hj⟩ := exists_jump_opcode hlow' hhigh'
    exact step_of_prefix_decodeOpcode_error hp hw hb (decodeOpcode_of_jump hne hj)
  case second =>
    exact step_of_prefix_decodeOpcode_error hp hw hb (decodeOpcode_of_second_prefix ⟨hlow', hhigh'⟩ w)

end Sys2Proof.Fetch
end

section
/-! Address translation (R60 to R74): the canonical check, the walk over the tables and what a translated address is. -/

namespace Sys2Proof.Memory

open Sys2Proof Sys2Proof.Machine

/-! ### The canonical check and the start of the walk -/

/-- R64 bit by bit. -/
theorem canonical_iff {n : Nat} (hn : n ≤ 13) (va : Word) :
    canonical n va = true ↔
      ∀ i, 12 + 9 * (n - 1) ≤ i → i < 128 → va.getLsbD i = va.getLsbD (12 + 9 * (n - 1) - 1) := by
  have hmsb : (va.setWidth (12 + 9 * (n - 1))).msb = va.getLsbD (12 + 9 * (n - 1) - 1) := by
    rw [BitVec.msb_eq_getLsbD_last, BitVec.getLsbD_setWidth]
    simp only [Bool.and_eq_right_iff_imp, decide_eq_true_eq]
    omega
  have hbit (i : Nat) (hi : i < 128) : ((va.setWidth (12 + 9 * (n - 1))).signExtend 128).getLsbD i =
      if i < 12 + 9 * (n - 1) then va.getLsbD i else va.getLsbD (12 + 9 * (n - 1) - 1) := by
    rw [BitVec.getLsbD_signExtend, hmsb, BitVec.getLsbD_setWidth]
    by_cases h : i < 12 + 9 * (n - 1) <;> simp [hi, h]
  refine decide_eq_true_iff.trans ⟨?_, ?_⟩
  · intro h i hlow hi
    have hcopy := hbit i hi
    rwa [show (va.setWidth (12 + 9 * (n - 1))).signExtend 128 = va from h, if_neg (by omega)] at hcopy
  · intro h
    refine BitVec.eq_of_getLsbD_eq fun i hi => (hbit i hi).trans ?_
    split
    · rfl
    · exact (h i (by omega) hi).symm

/-- Translation at the paging levels 1 to 13 (R70). -/
theorem translateByte_of_level {s : State} {n : Nat} (hl : s.clr.toNat % 16 = n) (h1 : 1 ≤ n) (h13 : n ≤ 13)
    (acc : Access) (k : Nat) (va : Word) :
    translateByte s acc k va =
      if canonical n va = true then walk s acc k va (n - 1) s.ptp else .error (.ncc va) := by
  rw [translateByte_eq, pglOf_eq, hl, if_neg (by omega), if_neg (by omega)]

theorem walk_zero (s : State) (acc : Access) (k : Nat) (va base : Word) :
    walk s acc k va 0 base = .ok (base + BitVec.ofNat 128 (va.toNat % 4096)) := by
  rw [walk, pageOffset_eq]

/-- Settles O37: level 1 walks no table. -/
theorem levelOneReadsNoTable : Obligations.LevelOneReadsNoTable := by
  intro s acc k va hl
  rw [translateByte_of_level hl (by omega) (by omega)]
  have hc := canonical_iff (n := 1) (by omega) va
  constructor
  · intro h
    rw [if_pos (hc.mpr h), walk_zero]
  · rintro ⟨i, hlow, hi, hne⟩
    rw [if_neg]
    exact fun h => hne (hc.mp h i hlow hi)

/-- Settles O39: a canonical address passes the one check before the walk. -/
theorem walkStartsAtPtp : Obligations.WalkStartsAtPtp := by
  intro s acc k va n hl h1 h13 hcopy
  rw [translateByte_of_level hl h1 h13, if_pos ((canonical_iff h13 va).mpr hcopy)]
  exact ⟨rfl, walk_zero s acc k va⟩

/-! ### The faults of a walk -/

theorem entryDenies_read (e va : Word) :
    entryDenies e .read va = if e.getLsbD 0 = true then none else some (.urp va) := rfl

theorem entryDenies_write (e va : Word) :
    entryDenies e .write va = if e.getLsbD 2 = true then none else some (.uwp va) := rfl

theorem entryDenies_exec (e va : Word) :
    entryDenies e .exec va = if e.getLsbD 4 = true then some (.nep va) else none := rfl

/-- An entry's checks raise only faults of the access, and never #NCC (R68). -/
theorem entryFault_kind {e va : Word} {acc : Access} {pl : Privilege} {f : Fault} (h : entryFault e acc pl va = some f) :
    accessFault acc f = true ∧ ∀ va', f ≠ .ncc va' := by
  rw [entryFault_eq] at h
  split_ifs at h
  · cases h; simp [accessFault]
  · cases h; simp [accessFault]
  · cases h; simp [accessFault]
  · cases h; simp [accessFault]
  · cases acc with
    | read =>
      rw [entryDenies_read] at h
      split_ifs at h
      cases h; simp [accessFault]
    | write =>
      rw [entryDenies_write] at h
      split_ifs at h
      cases h; simp [accessFault]
    | exec =>
      rw [entryDenies_exec] at h
      split_ifs at h
      cases h; simp [accessFault]

theorem walk_fault_kind {s : State} {acc : Access} {k : Nat} {va : Word} {m : Nat} {base : Word} {f : Fault}
    (h : walk s acc k va m base = .error f) : accessFault acc f = true ∧ ∀ va', f ≠ .ncc va' := by
  induction m generalizing base with
  | zero => simp [walk] at h
  | succ m ih =>
    rw [walk_succ] at h
    split at h
    · rename_i hread
      cases h
      obtain ⟨rfl, -⟩ := physRead_eq_error.mp hread
      simp [accessFault]
    · split at h
      · rename_i hentry
        cases h
        exact entryFault_kind hentry
      · exact ih h

/-- At a legal paging level a translation raises only the faults of its kind of access (R204). -/
theorem translateByte_fault_kind {s : State} (hl : s.clr.toNat % 16 ≤ 13) {acc : Access} {k : Nat} {va : Word} {f : Fault}
    (h : translateByte s acc k va = .error f) : accessFault acc f = true := by
  rw [translateByte_eq, pglOf_eq, if_neg (by omega : ¬13 < s.clr.toNat % 16)] at h
  split_ifs at h
  · exact (walk_fault_kind h).1
  · cases h
    rfl

/-- Settles O38: a walk never raises #NCC, so the canonical check alone decides. -/
theorem nonCanonicalRaisesNcc : Obligations.NonCanonicalRaisesNcc := by
  intro s acc k va n hl h1 h13
  have hc := canonical_iff h13 va
  rw [translateByte_of_level hl h1 h13]
  split
  · rename_i hcanon
    have copies := hc.mp hcanon
    constructor
    · exact fun h => absurd rfl ((walk_fault_kind h).2 va)
    · rintro ⟨i, hlow, hi, hne⟩
      exact absurd (copies i hlow hi) hne
  · rename_i hcanon
    rw [hc] at hcanon
    push Not at hcanon
    exact iff_of_true rfl hcanon

/-! ### One table of a walk -/

theorem tableIndex_eq_ofNat (m : Nat) (va : Word) :
    tableIndex m va = BitVec.ofNat 128 (va.toNat / 2 ^ (12 + 9 * m) % 512) := by
  rw [← tableIndex_toNat, BitVec.ofNat_toNat, BitVec.setWidth_eq]

theorem entryTarget_eq_ofNat (e : Word) : entryTarget e = BitVec.ofNat 128 (e.toNat / 2 ^ 5 % 2 ^ 40 * 4096) := by
  rw [← entryTarget_toNat, BitVec.ofNat_toNat, BitVec.setWidth_eq]

/-- An entry that has passed the checks of R68 before its permissions, and no page that the level may not use. -/
theorem entryFault_of_open {e : Word} {pl : Privilege} (hp : e.getLsbD 1 = true) (hr : e.toNat / 2 ^ 45 % 2 ^ 19 = 0)
    (hn : e.toNat / 2 ^ 5 % 2 ^ 40 ≠ 0) (hpl : ¬(e.getLsbD 3 = true ∧ pl = .unprivileged)) (acc : Access) (va : Word) :
    entryFault e acc pl va = entryDenies e acc va := by
  rw [entryFault_eq, if_neg (by simp [hp]), if_neg (not_not.mpr hr), if_neg hn, if_neg hpl]

section
variable {s : State} {acc : Access} {k : Nat} {va : Word} {m : Nat} {base e : Word}

/-- An entry that fails a check ends the walk. -/
theorem walk_of_entryFault {f : Fault} (hread : physRead s ⟨acc, k, m + 2⟩ (base + 8 * tableIndex m va) 8 = .ok e)
    (hentry : entryFault e acc s.pl va = some f) : walk s acc k va (m + 1) base = .error f := by
  simp only [walk_succ, hread, hentry]

/-- A walk past one table read an entry that passed the checks and went on where it points. -/
theorem walk_succ_eq_ok {pa : Word} :
    walk s acc k va (m + 1) base = .ok pa ↔ ∃ e, physRead s ⟨acc, k, m + 2⟩ (base + 8 * tableIndex m va) 8 = .ok e ∧
      entryFault e acc s.pl va = none ∧ walk s acc k va m (entryTarget e) = .ok pa := by
  rw [walk_succ]
  split
  · rename_i hread
    simp only [hread, reduceCtorEq, false_and, exists_false]
  · rename_i e hread
    split
    · rename_i hentry
      simp only [hread, Except.ok.injEq, exists_eq_left', hentry, reduceCtorEq, false_and]
    · rename_i hentry
      simp only [hread, Except.ok.injEq, exists_eq_left', hentry, true_and]

theorem walk_of_entryFault_none (hread : physRead s ⟨acc, k, m + 2⟩ (base + 8 * tableIndex m va) 8 = .ok e)
    (hentry : entryFault e acc s.pl va = none) :
    walk s acc k va (m + 1) base = walk s acc k va m (entryTarget e) := by
  simp only [walk_succ, hread, hentry]

end

/-- Settles O40: the entry is read at its address and each of R68's checks is met in turn. -/
theorem entryChecksInOrder : Obligations.EntryChecksInOrder := by
  intro s acc k va m base
  dsimp only
  rw [← tableIndex_eq_ofNat]
  refine ⟨fun hout => ?outside, fun e hin hbytes hlt => ?inside⟩
  case outside =>
    rw [walk_succ, physRead_eq_error.mpr ⟨rfl, hout⟩]
  case inside =>
    have hread : physRead s ⟨acc, k, m + 2⟩ (base + 8 * tableIndex m va) 8 = .ok e :=
      (physRead_eq_ok (by omega)).mpr ⟨hin, hbytes, hlt⟩
    refine ⟨fun hp => ?npp, fun hp hr => ?nzr, fun hr hn => ?nnl, fun hn hpl => ?upp, fun ho hacc hd => ?urp,
      fun ho hacc hd => ?uwp, fun ho hacc hd => ?nep, fun ho hread' hwrite hexec => ?onward⟩
    case npp => exact walk_of_entryFault hread (entryFault_of_not_present (by simpa using hp) acc s.pl va)
    case nzr =>
      refine walk_of_entryFault hread ?_
      rw [entryFault_eq, if_neg (by simp [hp]), if_pos fun h => hr ⟨hp, h⟩]
    case nnl =>
      refine walk_of_entryFault hread ?_
      rw [entryFault_eq, if_neg (by simp [hr.1]), if_neg (not_not.mpr hr.2), if_pos (by_contra fun h => hn ⟨hr, h⟩)]
    case upp =>
      obtain ⟨⟨hp, hr⟩, hlinked⟩ := hn
      refine walk_of_entryFault hread ?_
      rw [entryFault_eq, if_neg (by simp [hp]), if_neg (not_not.mpr hr), if_neg hlinked,
        if_pos (by_contra fun h => hpl ⟨⟨⟨hp, hr⟩, hlinked⟩, h⟩)]
    all_goals
      obtain ⟨⟨⟨hp, hr⟩, hn⟩, hpl⟩ := ho
      have permission := entryFault_of_open hp hr hn hpl acc va
    case urp =>
      subst hacc
      exact walk_of_entryFault hread (permission.trans (by rw [entryDenies_read, hd]; rfl))
    case uwp =>
      subst hacc
      exact walk_of_entryFault hread (permission.trans (by rw [entryDenies_write, hd]; rfl))
    case nep =>
      subst hacc
      exact walk_of_entryFault hread (permission.trans (by rw [entryDenies_exec, if_pos hd]))
    case onward =>
      have allowed : entryDenies e acc va = none := by
        cases acc with
        | read => rw [entryDenies_read, if_pos (hread' rfl)]
        | write => rw [entryDenies_write, if_pos (hwrite rfl)]
        | exec => rw [entryDenies_exec, hexec rfl]; rfl
      rw [← entryTarget_eq_ofNat]
      exact walk_of_entryFault_none hread (permission.trans allowed)

/-! ### What a translated address is -/

/-- An entry that may be used names a page (R68, R69). -/
theorem entryFault_none_linked {e : Word} {acc : Access} {pl : Privilege} {va : Word}
    (h : entryFault e acc pl va = none) : e.toNat / 2 ^ 5 % 2 ^ 40 ≠ 0 := by
  rw [entryFault_eq] at h
  split_ifs at h
  assumption

/-- Whether an entry may be used does not depend on the address of the access. -/
theorem entryFault_none_congr {e : Word} {acc : Access} {pl : Privilege} {va : Word} (va' : Word)
    (h : entryFault e acc pl va = none) : entryFault e acc pl va' = none := by
  rw [entryFault_eq] at h ⊢
  split_ifs at h ⊢
  cases acc with
  | read => rw [entryDenies_read] at *; split_ifs at *; rfl
  | write => rw [entryDenies_write] at *; split_ifs at *; rfl
  | exec => rw [entryDenies_exec] at *; split_ifs at *; rfl

/-- A walk through tables ends in a page that its last entry names. -/
theorem walk_ok_page {s : State} {acc : Access} {k : Nat} {va : Word} {m : Nat} {base pa : Word}
    (h : walk s acc k va (m + 1) base = .ok pa) :
    ∃ nlt : Nat, 0 < nlt ∧ nlt < 2 ^ 40 ∧ pa.toNat = nlt * 4096 + va.toNat % 4096 := by
  induction m generalizing base with
  | zero =>
    obtain ⟨e, -, hentry, hend⟩ := walk_succ_eq_ok.mp h
    have hlinked := entryFault_none_linked hentry
    rw [walk_zero] at hend
    cases hend
    refine ⟨e.toNat / 2 ^ 5 % 2 ^ 40, by omega, by omega, ?_⟩
    rw [BitVec.toNat_add, BitVec.toNat_ofNat, entryTarget_toNat]
    omega
  | succ m ih =>
    obtain ⟨e, -, -, hrest⟩ := walk_succ_eq_ok.mp h
    exact ih hrest

/-- At level 2 and above a translation that ends well walked at least one table, from a canonical address. -/
theorem translateByte_ok_walk {s : State} {acc : Access} {k : Nat} {va pa : Word} (hl : 2 ≤ s.clr.toNat % 16)
    (h : translateByte s acc k va = .ok pa) :
    ∃ m, s.clr.toNat % 16 = m + 2 ∧ m + 2 ≤ 13 ∧ canonical (m + 2) va = true ∧ walk s acc k va (m + 1) s.ptp = .ok pa := by
  rw [translateByte_eq, pglOf_eq, if_neg (by omega)] at h
  split_ifs at h with h13 hc
  obtain ⟨m, hm⟩ : ∃ m, s.clr.toNat % 16 = m + 2 := ⟨s.clr.toNat % 16 - 2, by omega⟩
  rw [hm] at h13 hc h
  exact ⟨m, hm, by omega, hc, h⟩

/-- Settles O42: the walk has a table, whose entry gives the page. -/
theorem translatedAddressHasFiftyTwoBits : Obligations.TranslatedAddressHasFiftyTwoBits := by
  intro s acc k va pa hl h
  obtain ⟨m, -, -, -, hwalk⟩ := translateByte_ok_walk hl h
  exact walk_ok_page hwalk

/-! ### Two addresses of one page -/

theorem getLsbD_of_same_page {va va' : Word} (hpage : va.toNat / 4096 = va'.toNat / 4096) {i : Nat} (hi : 12 ≤ i) :
    va.getLsbD i = va'.getLsbD i := by
  have shift (v : Word) : v.getLsbD i = (v.toNat / 4096).testBit (i - 12) := by
    rw [BitVec.getLsbD, show (4096 : Nat) = 2 ^ 12 from rfl, Nat.testBit_div_two_pow, Nat.sub_add_cancel hi]
  rw [shift va, shift va', hpage]

theorem tableIndex_of_same_page {va va' : Word} (hpage : va.toNat / 4096 = va'.toNat / 4096) (m : Nat) :
    tableIndex m va = tableIndex m va' := by
  have shift (v : Word) : v.toNat / 2 ^ (12 + 9 * m) = v.toNat / 4096 / 2 ^ (9 * m) := by
    rw [Nat.pow_add, Nat.div_div_eq_div_mul]
  rw [tableIndex_eq_ofNat, tableIndex_eq_ofNat, shift va, shift va', hpage]

/-- With no device a read does not depend on its event. -/
theorem physRead_of_no_device {s : State} (hmmio : s.platform.mmioRegions = []) (ev ev' : ReadEvent) (pa : Word) (n : Nat) :
    physRead s ev pa n = physRead s ev' pa n := by
  have byte : s.physByte ev = s.physByte ev' := by
    funext pa
    simp [State.physByte, State.inMmio, hmmio]
  simp only [physRead, byte]

/-- Addresses of one page take the same walk. -/
theorem walk_of_same_page {s : State} {va va' : Word} (hmmio : s.platform.mmioRegions = [])
    (hpage : va.toNat / 4096 = va'.toNat / 4096) {acc : Access} {k : Nat} (k' : Nat) {m : Nat} {base pa : Word}
    (h : walk s acc k va m base = .ok pa) :
    walk s acc k' va' m base = .ok (pa - pageOffset va + pageOffset va') := by
  induction m generalizing base with
  | zero =>
    cases h
    rw [walk, BitVec.add_sub_cancel]
  | succ m ih =>
    obtain ⟨e, hread, hentry, hrest⟩ := walk_succ_eq_ok.mp h
    rw [physRead_of_no_device hmmio _ ⟨acc, k', m + 2⟩, tableIndex_of_same_page hpage] at hread
    exact walk_succ_eq_ok.mpr ⟨e, hread, entryFault_none_congr va' hentry, ih hrest⟩

/-- Settles O43: both walks end at the page that one entry names. -/
theorem translationMapsAPageToAPage : Obligations.TranslationMapsAPageToAPage := by
  intro s acc k k' va va' pa hl hmmio h hpage
  obtain ⟨m, hlevel, h13, hcanon, hwalk⟩ := translateByte_ok_walk hl h
  have hwalk' := walk_of_same_page hmmio hpage k' hwalk
  have hcanon' : canonical (m + 2) va' = true := by
    rw [canonical_iff h13] at hcanon ⊢
    intro i hlow hi
    rw [← getLsbD_of_same_page hpage (by omega), ← getLsbD_of_same_page hpage (by omega)]
    exact hcanon i hlow hi
  refine ⟨pa - pageOffset va + pageOffset va', ?_, ?_⟩
  · rw [translateByte_of_level hlevel (by omega) h13, if_pos hcanon']
    exact hwalk'
  · obtain ⟨nlt, -, hlt, hpa⟩ := walk_ok_page hwalk
    rw [pageOffset_eq, pageOffset_eq, BitVec.toNat_add, BitVec.toNat_sub, BitVec.toNat_ofNat, BitVec.toNat_ofNat, hpa]
    omega

end Sys2Proof.Memory
end

section
/-! The access primitives (R55 to R58): which fault an access raises, what a read answers, and where the bytes of a write lie. -/

namespace Sys2Proof.Memory

open Sys2Proof Sys2Proof.Machine

/-! ### The first fault of an access -/

theorem translateRange_first_fault {s : State} {acc : Access} {k₀ j n : Nat} {va : Word} {f : Fault} (hj : j < n)
    (hok : ∀ i < j, ∃ pa, translateByte s acc (k₀ + i) (va + BitVec.ofNat 128 i) = .ok pa)
    (hf : translateByte s acc (k₀ + j) (va + BitVec.ofNat 128 j) = .error f) :
    translateRange s acc k₀ va n = .error f := by
  induction j generalizing k₀ va n with
  | zero =>
    obtain ⟨n, rfl⟩ := Nat.exists_eq_succ_of_ne_zero (by omega : n ≠ 0)
    have hf : translateByte s acc k₀ va = .error f := by simpa using hf
    simp only [translateRange, hf, error_bind]
  | succ j ih =>
    obtain ⟨n, rfl⟩ := Nat.exists_eq_succ_of_ne_zero (by omega : n ≠ 0)
    have shift (i : Nat) : va + 1 + BitVec.ofNat 128 i = va + BitVec.ofNat 128 (i + 1) := by
      rw [BitVec.add_assoc, Nat.add_comm i 1, BitVec.ofNat_add]
      rfl
    obtain ⟨pa, hpa⟩ := hok 0 (by omega)
    have hpa : translateByte s acc k₀ va = .ok pa := by simpa using hpa
    have hrest : translateRange s acc (k₀ + 1) (va + 1) n = .error f := by
      apply ih (by omega)
      · intro i hi
        rw [shift, Nat.add_assoc, Nat.add_comm 1]
        exact hok (i + 1) (by omega)
      · rw [shift, Nat.add_assoc, Nat.add_comm 1]
        exact hf
    simp only [translateRange, hpa, ok_bind, hrest, error_bind]

theorem checkPhys_first_fault {s : State} {pas : List Word} {k : Nat} (hk : k < pas.length)
    (hin : ∀ j (hj : j < k), s.inPhysMem (pas[j]'(hj.trans hk)) = true) (hout : s.inPhysMem pas[k] = false) :
    checkPhys s pas = .error (.physicalAccessFault pas[k]) := by
  induction pas generalizing k with
  | nil => simp at hk
  | cons pa pas ih =>
    cases k with
    | zero =>
      simp only [List.getElem_cons_zero] at hout
      simp [checkPhys, hout]
    | succ k =>
      have hpa : s.inPhysMem pa = true := hin 0 (by omega)
      simp only [checkPhys, hpa, if_true, List.getElem_cons_succ]
      exact ih (by simpa using hk) (fun j hj => hin (j + 1) (by omega)) hout

section
variable {s : State} {va v : Word} {n : Nat} {f : Fault}

theorem memRead_of_translateRange_error (h : translateRange s .read 0 va n = .error f) : memRead s va n = .error f := by
  simp only [memRead, h, error_bind]

theorem memWrite_of_translateRange_error (h : translateRange s .write 0 va n = .error f) :
    memWrite s va n v = .error f := by
  simp only [memWrite, h, error_bind]

theorem memRead_of_checkPhys_error {pas : List Word} (h : translateRange s .read 0 va n = .ok pas)
    (hc : checkPhys s pas = .error f) : memRead s va n = .error f := by
  simp only [memRead, h, ok_bind, hc, error_bind]

theorem memWrite_of_checkPhys_error {pas : List Word} (h : translateRange s .write 0 va n = .ok pas)
    (hc : checkPhys s pas = .error f) : memWrite s va n v = .error f := by
  simp only [memWrite, h, ok_bind, hc, error_bind]

/-- A data write completes where its bytes translate to addresses that hold memory. -/
theorem memWrite_of_translateRange {pas : List Word} (h : translateRange s .write 0 va n = .ok pas)
    (hin : ∀ pa ∈ pas, s.inPhysMem pa = true) :
    memWrite s va n v = .ok (s.withMem (s.mem.storeAll pas (toBytes n v))) :=
  memWrite_eq_ok.mpr ⟨pas, h, hin, rfl⟩

end

/-- Settles O44: translation comes first, byte by byte, and then the check of the physical addresses. -/
theorem firstFaultOfAnAccess : Obligations.FirstFaultOfAnAccess := by
  intro s va v n k f hk
  refine ⟨fun hok hf => ?_, fun hok hf => ?_, fun pas hlen hin hout => ⟨fun h => ?_, fun h => ?_⟩⟩
  · exact memRead_of_translateRange_error
      (translateRange_first_fault hk (by simpa only [Nat.zero_add] using hok) (by rwa [Nat.zero_add]))
  · exact memWrite_of_translateRange_error
      (translateRange_first_fault hk (by simpa only [Nat.zero_add] using hok) (by rwa [Nat.zero_add]))
  · exact memRead_of_checkPhys_error h (checkPhys_first_fault hlen hin hout)
  · exact memWrite_of_checkPhys_error h (checkPhys_first_fault hlen hin hout)

/-! ### The faults an access can raise -/

theorem translateRange_fault_kind {s : State} (hl : s.clr.toNat % 16 ≤ 13) {acc : Access} {k n : Nat} {va : Word} {f : Fault}
    (h : translateRange s acc k va n = .error f) : accessFault acc f = true := by
  induction n generalizing k va with
  | zero => cases h
  | succ n ih =>
    simp only [translateRange, bind_eq_error, reduceCtorEq, and_false, exists_false, or_false] at h
    obtain h | ⟨pa, -, h⟩ := h
    · exact translateByte_fault_kind hl h
    · exact ih h

theorem checkPhys_fault_kind {s : State} {pas : List Word} {f : Fault} (h : checkPhys s pas = .error f) (acc : Access) :
    accessFault acc f = true := by
  induction pas with
  | nil => cases h
  | cons pa pas ih =>
    simp only [checkPhys] at h
    split at h
    · exact ih h
    · cases h
      rfl

theorem memRead_fault_kind {s : State} (hl : s.clr.toNat % 16 ≤ 13) {va : Word} {n : Nat} {f : Fault}
    (h : memRead s va n = .error f) : accessFault .read f = true := by
  simp only [memRead, bind_eq_error, reduceCtorEq, and_false, exists_false, or_false] at h
  obtain h | ⟨pas, -, h⟩ := h
  · exact translateRange_fault_kind hl h
  · exact checkPhys_fault_kind h .read

theorem memWrite_fault_kind {s : State} (hl : s.clr.toNat % 16 ≤ 13) {va v : Word} {n : Nat} {f : Fault}
    (h : memWrite s va n v = .error f) : accessFault .write f = true := by
  simp only [memWrite, bind_eq_error, reduceCtorEq, and_false, exists_false, or_false] at h
  obtain h | ⟨pas, -, h⟩ := h
  · exact translateRange_fault_kind hl h
  · exact checkPhys_fault_kind h .write

theorem pushValue_eq_error {s : State} {n : Nat} {v : Word} {f : Fault} :
    pushValue s n v = .error f ↔ memWrite s (s.sp - BitVec.ofNat 128 n) n v = .error f := by
  simp [pushValue, bind_eq_error]

/-! ### What a read answers -/

@[simp] theorem physBytes_length (s : State) (acc : Access) (k : Nat) (pas : List Word) :
    (physBytes s acc k pas).length = pas.length := by
  induction pas generalizing k with
  | nil => rfl
  | cons pa pas ih => simp [physBytes, ih]

theorem physBytes_getElem {s : State} {acc : Access} {k j : Nat} {pas : List Word} (h : j < (physBytes s acc k pas).length) :
    (physBytes s acc k pas)[j] = s.physByte ⟨acc, k + j, 0⟩ (pas[j]'(by simpa using h)) := by
  induction pas generalizing k j with
  | nil => simp at h
  | cons pa pas ih =>
    cases j with
    | zero => rfl
    | succ j =>
      simp only [physBytes, List.getElem_cons_succ, ih]
      rw [Nat.add_assoc, Nat.add_comm 1]

theorem translateRange_length {s : State} {acc : Access} {k n : Nat} {va : Word} {pas : List Word}
    (h : translateRange s acc k va n = .ok pas) : pas.length = n :=
  (translateRange_eq_ok.mp h).1

/-- Settles O45: the value of the bytes, of which there are at most 16. -/
theorem memReadAssemblesTheBytes : Obligations.MemReadAssemblesTheBytes := by
  intro s va n pas hn h hin
  have hlen := translateRange_length h
  have hbytes : (physBytes s .read 0 pas).length = n := by simpa using hlen
  refine ⟨hlen, fromBytes (physBytes s .read 0 pas), memRead_eq_ok.mpr ⟨pas, h, hin, rfl⟩, fun k hk => ?_, ?_⟩
  · rw [fromBytes_extract (by omega) k (by omega), physBytes_getElem, Nat.zero_add]
  · have hlt := fromBytes_lt (bs := physBytes s .read 0 pas) (by omega)
    rwa [hbytes] at hlt

/-! ### Distinct bytes have distinct physical addresses -/

/-- Modulo a page, a physical address is the virtual one, moved by PTP at level 1 (R32, R71). -/
def pageShift (s : State) : Nat := if pglOf s.clr = 1 then s.ptp.toNat else 0

theorem translateByte_mod_page {s : State} {acc : Access} {k : Nat} {va pa : Word} (h : translateByte s acc k va = .ok pa) :
    pa.toNat % 4096 = (pageShift s + va.toNat) % 4096 := by
  unfold pageShift
  rw [pglOf_eq]
  obtain h0 | h1 | h2 : s.clr.toNat % 16 = 0 ∨ s.clr.toNat % 16 = 1 ∨ 2 ≤ s.clr.toNat % 16 := by omega
  · rw [translateByte_eq, pglOf_eq, if_pos h0] at h
    cases h
    rw [if_neg (by omega), Nat.zero_add]
  · rw [translateByte_of_level h1 (by omega) (by omega)] at h
    split_ifs at h
    rw [walk_zero] at h
    cases h
    rw [if_pos h1, BitVec.toNat_add, BitVec.toNat_ofNat]
    omega
  · obtain ⟨nlt, -, -, hpa⟩ := translatedAddressHasFiftyTwoBits s acc k va pa h2 h
    rw [if_neg (by omega), hpa]
    omega

/-- The bytes of one access lie at different physical addresses: no access is longer than a page. -/
theorem translateRange_nodup {s : State} {acc : Access} {k n : Nat} {va : Word} {pas : List Word} (hn : n ≤ 4096)
    (h : translateRange s acc k va n = .ok pas) : pas.Nodup := by
  obtain ⟨hlen, hbyte⟩ := translateRange_eq_ok.mp h
  rw [List.nodup_iff_pairwise_ne, List.pairwise_iff_getElem]
  intro i j hi hj hij heq
  have hmodi := translateByte_mod_page (hbyte i hi)
  have hmodj := translateByte_mod_page (hbyte j hj)
  rw [heq] at hmodi
  rw [BitVec.toNat_add, BitVec.toNat_ofNat] at hmodi hmodj
  omega

/-! ### Where a write's bytes lie -/

/-- Outside the devices' regions, bytes written at distinct addresses are found there (R90). -/
theorem holdsBytes_of_storeAll {t : State} {m : Memory} {pas : List Word} {n : Nat} {v : Word} (hd : pas.Nodup)
    (hlen : pas.length = n) (hm : t.mem = m.storeAll pas (toBytes n v)) : HoldsBytes t pas v := by
  intro k hk ev hmmio
  have hk' : k < (toBytes n v).length := by simpa [hlen] using hk
  rw [State.physByte, hmmio, hm, Memory.lookup_storeAll_mem m pas _ hd k hk hk', toBytes_getElem]
  rfl

/-- A byte outside the addresses written is as it was. -/
theorem physByte_of_storeAll {s t : State} {pas : List Word} {vs : List Byte} (hm : t.mem = s.mem.storeAll pas vs)
    (hp : t.platform = s.platform) (hd : t.draws = s.draws) {pa : Word} (hpa : pa ∉ pas) (ev : ReadEvent) :
    t.physByte ev pa = s.physByte ev pa := by
  have hmmio : t.inMmio pa = s.inMmio pa := by rw [State.inMmio, State.inMmio, hp]
  rw [State.physByte, State.physByte, hmmio, hd, hm, Memory.lookup_storeAll_other _ _ _ _ hpa]

/-! ### Paging off and no device -/

theorem translateByte_of_level_zero {s : State} (hl : s.clr.toNat % 16 = 0) (acc : Access) (k : Nat) (va : Word) :
    translateByte s acc k va = .ok va :=
  levelZeroIsIdentity s acc k va ((pglOf_eq s.clr).trans hl)

theorem translateRange_of_level_zero {s : State} (hl : s.clr.toNat % 16 = 0) (acc : Access) (k : Nat) (va : Word) (n : Nat) :
    translateRange s acc k va n = .ok (addressesFrom va n) :=
  translateRange_eq_ok.mpr ⟨addressesFrom_length va n, fun j hj => by
    rw [translateByte_of_level_zero hl, addressesFrom_getElem]⟩

theorem inMmio_of_no_device {s : State} (h : s.platform.mmioRegions = []) (pa : Word) : s.inMmio pa = false := by
  simp [State.inMmio, h]

/-- With paging off and no device, a byte just written is found at its address, and its address holds memory. -/
theorem byte_of_memWrite {s t : State} {a v : Word} {n k : Nat} (hl : s.clr.toNat % 16 = 0)
    (hmmio : s.platform.mmioRegions = []) (hn : n ≤ 16) (hk : k < n) (h : memWrite s a n v = .ok t) (ev : ReadEvent) :
    t.inPhysMem (a + BitVec.ofNat 128 k) = true ∧ t.physByte ev (a + BitVec.ofNat 128 k) = v.extractLsb' (8 * k) 8 := by
  obtain ⟨pas, hpas, hin, rfl⟩ := memWrite_eq_ok.mp h
  have hd := translateRange_nodup (by omega) hpas
  rw [translateRange_of_level_zero hl] at hpas
  cases hpas
  have hk' : k < (addressesFrom a n).length := by simpa using hk
  have hold := holdsBytes_of_storeAll (t := s.withMem (s.mem.storeAll (addressesFrom a n) (toBytes n v))) hd
    (addressesFrom_length a n) rfl k hk' ev (inMmio_of_no_device hmmio _)
  have hmem := hin _ (List.getElem_mem hk')
  rw [addressesFrom_getElem] at hold hmem
  exact ⟨hmem, hold⟩

/-- Settles O46: the byte read is the byte of the write at its address. -/
theorem narrowReadSeesTheBytesItNames : Obligations.NarrowReadSeesTheBytesItNames := by
  intro s t a v k hl hmmio hk h
  obtain ⟨hin, hbyte⟩ := byte_of_memWrite hl hmmio le_rfl hk h ⟨.read, 0, 0⟩
  have hclr : t.clr = s.clr := by
    obtain ⟨pas, -, -, rfl⟩ := memWrite_eq_ok.mp h
    rfl
  refine memRead_eq_ok.mpr ⟨[a + BitVec.ofNat 128 k], translateRange_of_level_zero (hclr ▸ hl) _ _ _ _, ?_, ?_⟩
  · simpa using hin
  · rw [physBytes, physBytes, hbyte, fromBytes_singleton]

/-- What a byte's fetch answers (R58). -/
theorem fetchByte_eq_ok {s : State} {k : Nat} {b : Byte} :
    fetchByte s k = .ok b ↔ ∃ pa, translateByte s .exec k (s.ip + BitVec.ofNat 128 k) = .ok pa ∧
      s.inPhysMem pa = true ∧ s.physByte ⟨.exec, k, 0⟩ pa = b := by
  simp only [fetchByte, bind_eq_ok, Except.ok.injEq]
  refine exists_congr fun pa => and_congr_right fun _ => ?_
  have hsingle : addressesFrom pa 1 = [pa] := rfl
  rw [physRead, hsingle]
  simp only [List.all_cons, List.all_nil, Bool.and_true, List.map_cons, List.map_nil, fromBytes_singleton]
  cases s.inPhysMem pa <;> simp

/-- Settles O47: a fetch reads the bytes that a write stored. -/
theorem storeIsSeenByTheNextFetch : Obligations.StoreIsSeenByTheNextFetch := by
  intro s t a v w k hl hmmio hk h
  obtain ⟨hin, hbyte⟩ := byte_of_memWrite hl hmmio w.bytes_le hk h ⟨.exec, 0, 0⟩
  have hclr : t.clr = s.clr := by
    obtain ⟨pas, -, -, rfl⟩ := memWrite_eq_ok.mp h
    rfl
  refine fetchByte_eq_ok.mpr ⟨a + BitVec.ofNat 128 k, ?_, hin, hbyte⟩
  rw [translateByte_of_level_zero (show (t.withIp _).clr.toNat % 16 = 0 from hclr ▸ hl)]
  simp

end Sys2Proof.Memory

namespace Sys2Proof.Fetch

open Sys2Proof Sys2Proof.Machine Sys2Proof.Encoding Sys2Proof.Memory

/-! ### The faults of a fetch -/

theorem fetchByte_fault_kind {s : State} (hl : s.clr.toNat % 16 ≤ 13) {k : Nat} {f : Fault} (h : fetchByte s k = .error f) :
    accessFault .exec f = true := by
  obtain h | ⟨pa, -, -, rfl⟩ := fetchByte_eq_error.mp h
  · exact translateByte_fault_kind hl h
  · rfl

theorem fetchBytes_fault_kind {s : State} (hl : s.clr.toNat % 16 ≤ 13) {k n : Nat} {f : Fault}
    (h : fetchBytes s k n = .error f) : accessFault .exec f = true := by
  induction n generalizing k with
  | zero => cases h
  | succ n ih =>
    simp only [fetchBytes, bind_eq_error, reduceCtorEq, and_false, exists_false, or_false] at h
    obtain h | ⟨b, -, h⟩ := h
    · exact fetchByte_fault_kind hl h
    · exact ih h

/-- The faults that R204 gives the decoder. -/
def DecoderFault (f : Fault) : Prop :=
  f = .ipo 0x0B ∨ f = .ipo 0x0C ∨ f = .illegalEncoding .undefinedOpcode ∨ f = .illegalEncoding .doublePrefix ∨
    f = .illegalEncoding .prefixOnFixedWidth

/-- The only opcodes without operands are 0B and 0C (R111). -/
theorem decodeFault_of_decodeOpcode {w : Width} {b : Byte} {e : DecodeError} (h : decodeOpcode w b = .error e) :
    DecoderFault (decodeFault e) := by
  unfold decodeOpcode at h
  split at h
  · cases h
    simp [DecoderFault, decodeFault]
  split at h
  · cases h
    simp [DecoderFault, decodeFault]
  rename_i op hop
  obtain rfl := opcode_toByte_ofByte hop
  split_ifs at h with hw hn hj
  · cases h
    cases op with
    | rfs | u2k => simp [DecoderFault, decodeFault, Opcode.toByte]
    | _ => cases hn
  · cases h
    simp [DecoderFault, decodeFault]

theorem fetchFrom_fault_kind {s : State} (hl : s.clr.toNat % 16 ≤ 13) {w : Width} {k : Nat} {b : Byte} {f : Fault}
    (h : fetchFrom s w k b = .error f) : accessFault .exec f = true ∨ DecoderFault f := by
  unfold fetchFrom at h
  split at h
  · rename_i hop
    cases h
    exact .inr (decodeFault_of_decodeOpcode hop)
  · simp only [bind_eq_error, reduceCtorEq, and_false, exists_false, or_false] at h
    exact .inl (fetchBytes_fault_kind hl h)

/-- Settles O35: each part of the fetch raises its own faults. -/
theorem fetchRaisesOnlyItsFaults : Obligations.FetchRaisesOnlyItsFaults := by
  intro s f hl h
  have kind : accessFault .exec f = true ∨ DecoderFault f := by
    simp only [fetchInstr, bind_eq_error] at h
    obtain h | ⟨b, -, h⟩ := h
    · exact .inl (fetchByte_fault_kind hl h)
    split at h
    · exact fetchFrom_fault_kind hl h
    · obtain h | ⟨b', -, h⟩ := bind_eq_error.mp h
      · exact .inl (fetchByte_fault_kind hl h)
      · exact fetchFrom_fault_kind hl h
  exact kind

end Sys2Proof.Fetch
end

section
/-! Register operands (R104, R22, R23) and what MOVE, PUSH, POP, JSR, RFS, U2K and the jumps do: result, IP and frame. -/

namespace Sys2Proof.Execution

open Sys2Proof Sys2Proof.Machine Sys2Proof.Encoding Sys2Proof.Memory

/-! ### Register operands -/

theorem ofByte_regByte (r : Reg) : RegOperand.ofByte (regByte r) = .named r := ofByte_toByte (o := .named r) rfl

theorem reg_of_closed {s : State} (hp : s.pl = .unprivileged) {r : Reg} (hr : closedToUnprivileged r = true) :
    reg s (.named r) = .error (.upe r) := by
  simp [reg, hp, hr]

theorem reg_of_privileged {s : State} (hp : s.pl = .privileged) {r : Reg} (h1 : r ≠ .eaddr) (h2 : r ≠ .temp) :
    reg s (.named r) = .ok r := by
  simp [reg, hp, h1, h2]

theorem reg_of_inaccessible {s : State} (hp : s.pl = .privileged) {r : Reg} (hr : r = .eaddr ∨ r = .temp) :
    reg s (.named r) = .error (.illegalEncoding .inaccessibleRegister) := by
  simp [reg, hp, hr]

theorem reg_of_open {s : State} {r : Reg} (h : closedToUnprivileged r = false) (h1 : r ≠ .eaddr) (h2 : r ≠ .temp) :
    reg s (.named r) = .ok r :=
  reg_eq_ok.mpr ⟨rfl, by simp [h], h1, h2⟩

/-- Settles O12: each byte names the register of the table, or none, and the level decides the rest. -/
theorem registerOperandChecks : Obligations.RegisterOperandChecks := by
  intro s
  refine ⟨fun k => ?gpr, ?clr, fun b r h => ?closed, fun b r h => ?hidden, fun b hb => ?unassigned⟩
  case gpr =>
    rw [← regByte_gpr, ofByte_regByte]
    exact reg_of_open rfl (by simp) (by simp)
  case clr =>
    rw [show RegOperand.ofByte 0x26 = .named .clr from ofByte_regByte .clr]
    exact reg_of_open rfl (by simp) (by simp)
  case closed =>
    have hb : b = regByte r ∧ closedToUnprivileged r = true ∧ r ≠ .eaddr ∧ r ≠ .temp := by
      simp only [List.mem_cons, List.not_mem_nil, or_false, Prod.mk.injEq] at h
      obtain ⟨rfl, rfl⟩ | ⟨rfl, rfl⟩ | ⟨rfl, rfl⟩ | ⟨rfl, rfl⟩ := h <;> decide
    obtain ⟨rfl, hclosed, h1, h2⟩ := hb
    rw [ofByte_regByte]
    exact ⟨fun hp => reg_of_closed hp hclosed, fun hp => reg_of_privileged hp h1 h2⟩
  case hidden =>
    have hb : b = regByte r ∧ closedToUnprivileged r = true ∧ (r = .eaddr ∨ r = .temp) := by
      simp only [List.mem_cons, List.not_mem_nil, or_false, Prod.mk.injEq] at h
      obtain ⟨rfl, rfl⟩ | ⟨rfl, rfl⟩ := h <;> decide
    obtain ⟨rfl, hclosed, hr⟩ := hb
    rw [ofByte_regByte]
    exact ⟨fun hp => reg_of_closed hp hclosed, fun hp => reg_of_inaccessible hp hr⟩
  case unassigned =>
    rw [RegOperand.ofByte, regMap_eq_none.mpr hb]
    rfl

/-- Operands are checked in their order: the first that fails ends the sequence, which otherwise goes on with the rest. -/
theorem bind_reg_of_firstOperandFault {s : State} {o : RegOperand} {os : List RegOperand} {f : Fault}
    {k : Reg → Except Fault State} (h : firstOperandFault s (o :: os) = some f)
    (hk : ∀ r, firstOperandFault s os = some f → k r = .error f) : (reg s o >>= k) = .error f := by
  rw [firstOperandFault] at h
  split at h
  · rename_i hreg
    cases h
    rw [hreg, error_bind]
  · rename_i r hreg
    rw [hreg, ok_bind]
    exact hk r h

/-- Settles O13: every instruction checks its operands before anything else. -/
theorem firstBadOperandIsReported : Obligations.FirstBadOperandIsReported := by
  intro w body s f h
  rw [exec_ofSized]
  cases body with
  | moveRegReg | test | xor | moveRegBaseImm =>
    exact outcome_eq_fault.mpr (bind_reg_of_firstOperandFault h fun _ h => bind_reg_of_firstOperandFault h fun _ h => by
      cases h)
  | moveRegBaseIndex =>
    exact outcome_eq_fault.mpr (bind_reg_of_firstOperandFault h fun _ h => bind_reg_of_firstOperandFault h fun _ h =>
      bind_reg_of_firstOperandFault h fun _ h => by cases h)
  | moveRegMem | moveMemReg | push | pop | shl | comp =>
    exact outcome_eq_fault.mpr (bind_reg_of_firstOperandFault h fun _ h => by cases h)

/-- Settles O14: reads and writes at a width both truncate. -/
theorem narrowReadsAndWrites : Obligations.NarrowReadsAndWrites := by
  intro s w r v
  refine ⟨fun i => trunc_getLsbD w _ i, fun i => ?_, fun r' hr' => State.read_writeAt_other s w v hr'⟩
  rw [State.read_writeAt_same, trunc_getLsbD]

/-! ### Truncation -/

theorem trunc_of_lt {w : Width} {v : Word} (h : v.toNat < 2 ^ w.bits) : trunc w v = v := by
  apply BitVec.eq_of_toNat_eq
  rw [trunc_toNat, Nat.mod_eq_of_lt h]

@[simp] theorem trunc_trunc (w : Width) (v : Word) : trunc w (trunc w v) = trunc w v := by
  apply BitVec.eq_of_toNat_eq
  rw [trunc_toNat, trunc_toNat, Nat.mod_mod]

/-- The paging level of a value is that of its low `W` bits. -/
theorem trunc_mod_level (w : Width) (v : Word) : (trunc w v).toNat % 16 = v.toNat % 16 := by
  rw [← pglOf_eq, pglOf_trunc]

/-- The bytes of a value at a width are the bytes of its low `W` bits. -/
theorem toBytes_trunc (w : Width) (v : Word) : toBytes w.bytes (trunc w v) = toBytes w.bytes v := by
  apply List.ext_getElem (by simp)
  intro k hk hk'
  have hk : k < w.bytes := by simpa using hk
  rw [toBytes_getElem, toBytes_getElem]
  apply BitVec.eq_of_getLsbD_eq
  intro i hi
  have hin : 8 * k + i < w.bits := by
    rw [Width.bits]
    omega
  simp only [BitVec.getLsbD_extractLsb', trunc_getLsbD, hin, decide_true, Bool.true_and]

/-- The value of the low bytes of a value is its low `W` bits. -/
theorem fromBytes_toBytes_bytes (w : Width) (v : Word) : fromBytes (toBytes w.bytes v) = trunc w v := by
  rw [← toBytes_trunc]
  apply fromBytes_toBytes
  rw [trunc_toNat]
  exact Nat.mod_lt _ (Nat.two_pow_pos _)

/-- A read of `n` bytes answers a value of `8n` bits. -/
theorem memRead_lt {s : State} {va : Word} {n : Nat} {v : Word} (hn : n ≤ 16) (h : memRead s va n = .ok v) :
    v.toNat < 2 ^ (8 * n) := by
  obtain ⟨pas, hpas, -, rfl⟩ := memRead_eq_ok.mp h
  have hlen : (physBytes s .read 0 pas).length = n := by simpa using translateRange_length hpas
  have hlt := fromBytes_lt (bs := physBytes s .read 0 pas) (by omega)
  rwa [hlen] at hlt

theorem trunc_of_memRead {s : State} {va : Word} {w : Width} {v : Word} (h : memRead s va w.bytes = .ok v) :
    trunc w v = v :=
  trunc_of_lt (memRead_lt w.bytes_le h)

/-! ### Frames -/

section
variable {s t : State} {regs : List Reg} {pas : List Word}

/-- The frame of an instruction that wrote bytes at `pas`. -/
theorem frame_of_storeAll {vs : List Byte} (hread : ∀ r, r ∉ regs → r ≠ .eaddr → r ≠ .temp → t.read r = s.read r)
    (hmem : t.mem = s.mem.storeAll pas vs) (hpl : t.pl = s.pl) (hp : t.platform = s.platform) (hd : t.draws = s.draws) :
    Frame s t regs pas :=
  ⟨hread, fun ev _ hpa => physByte_of_storeAll hmem hp hd hpa ev, hpl, hp, hd⟩

/-- The frame of an instruction that wrote no memory. -/
theorem frame_of_mem_eq (hread : ∀ r, r ∉ regs → r ≠ .eaddr → r ≠ .temp → t.read r = s.read r)
    (hmem : t.mem = s.mem) (hpl : t.pl = s.pl) (hp : t.platform = s.platform) (hd : t.draws = s.draws) :
    Frame s t regs [] :=
  frame_of_storeAll (vs := []) hread hmem hpl hp hd

/-- A value lies at its addresses as far as it is stored: the low bytes of a width. -/
theorem holdsBytes_trunc {w : Width} {v : Word} (hlen : pas.length = w.bytes) (h : HoldsBytes t pas (trunc w v)) :
    HoldsBytes t pas v := by
  intro k hk ev hmmio
  rw [h k hk ev hmmio]
  have hk' : k < (toBytes w.bytes v).length := by simpa [hlen] using hk
  have hk'' : k < (toBytes w.bytes (trunc w v)).length := by simpa [hlen] using hk
  rw [← toBytes_getElem w.bytes v k hk', ← toBytes_getElem w.bytes (trunc w v) k hk'']
  simp only [toBytes_trunc]

end

/-! ### The end of an instruction with a destination -/

/-- `deliver` completes with the value in the destination, IP moved on unless it is the destination, and nothing else
changed. -/
theorem deliver_completes (s : State) (w : Width) {d : Reg} {v : Word} (len : Nat) (h1 : d ≠ .eaddr) (h2 : d ≠ .temp)
    (hclr : d = .clr → v.toNat % 16 ≤ 13) :
    ∃ t, deliver s w d v len = .ok t ∧ t.read d = trunc w v ∧ (d ≠ .ip → t.ip = s.ip + BitVec.ofNat 128 len) ∧
      Frame s t [d, .ip] [] := by
  refine ⟨_, deliver_eq_ok.mpr ⟨hclr, rfl⟩, ?result, fun hd => ?ip, frame_of_mem_eq (fun r hr hr1 hr2 => ?read) ?_ ?_ ?_ ?_⟩
  case result =>
    rw [State.read_advanceUnlessIp _ _ _ h1 h2 (ne_or_eq d .ip), State.read_writeAt_same]
  case ip =>
    have hip : (s.writeAt w d v).ip = s.ip := State.read_writeAt_other s w v (Ne.symm hd)
    rw [State.advanceUnlessIp_ip, if_neg hd, hip]
  case read =>
    simp only [List.mem_cons, List.not_mem_nil, or_false, not_or] at hr
    obtain ⟨hrd, hrip⟩ := hr
    rw [State.read_advanceUnlessIp _ _ _ hr1 hr2 (.inl hrip), State.read_writeAt_other _ _ _ hrd]
  all_goals simp

/-- The length of an instruction of two register operands (R108). -/
theorem ofNat_lengthOf_rr (w : Width) : BitVec.ofNat 128 (lengthOf w .rr) = if w = .w128 then 3 else 4 := by
  cases w <;> rfl

theorem ofNat_lengthOf_rm (w : Width) :
    BitVec.ofNat 128 (lengthOf w .rm) = if w = .w128 then 18 else 3 + BitVec.ofNat 128 w.bytes := by
  cases w <;> rfl

theorem ofNat_lengthOf_rri (w : Width) :
    BitVec.ofNat 128 (lengthOf w .rri) = if w = .w128 then 19 else 4 + BitVec.ofNat 128 w.bytes := by
  cases w <;> rfl

theorem ofNat_lengthOf_rrr (w : Width) : BitVec.ofNat 128 (lengthOf w .rrr) = if w = .w128 then 4 else 5 := by
  cases w <;> rfl

theorem ofNat_lengthOf_mr (w : Width) :
    BitVec.ofNat 128 (lengthOf w .mr) = if w = .w128 then 18 else 3 + BitVec.ofNat 128 w.bytes := by
  cases w <;> rfl

theorem ofNat_lengthOf_r (w : Width) : BitVec.ofNat 128 (lengthOf w .r) = if w = .w128 then 2 else 3 := by
  cases w <;> rfl

theorem ofNat_lengthOf_ri (w : Width) :
    BitVec.ofNat 128 (lengthOf w .ri) = if w = .w128 then 18 else 3 + BitVec.ofNat 128 w.bytes := by
  cases w <;> rfl

/-! ### MOVE -/

/-- An operand that passes its check is neither EADDR nor TEMP. -/
theorem reg_ok_visible {s : State} {o : RegOperand} {r : Reg} (h : reg s o = .ok r) : r ≠ .eaddr ∧ r ≠ .temp :=
  (reg_eq_ok.mp h).2.2

/-- Settles O15: the value read at a width is delivered at that width. -/
theorem moveRegRegCompletes : Obligations.MoveRegRegCompletes := by
  intro w rd rs s d r hd hr hclr
  obtain ⟨h1, h2⟩ := reg_ok_visible hd
  obtain ⟨t, ht, hval, hip, hframe⟩ := deliver_completes s w (v := readAt s w r) (lengthOf w .rr) h1 h2
    (fun h => (trunc_mod_level w _).trans_le (hclr h))
  refine ⟨t, ?_, hval.trans (trunc_trunc w _), fun h => ofNat_lengthOf_rr w ▸ hip h, hframe⟩
  rw [exec_ofSized]
  simp only [execSized, moveRegRegAt, hd, hr, ok_bind, ht, outcome_ok]

/-- Settles O16: the three forms differ in the address and the length only. -/
theorem loadsComplete : Obligations.LoadsComplete := by
  intro w rd s d v hd hclr
  obtain ⟨h1, h2⟩ := reg_ok_visible hd
  refine ⟨fun addr hv => ?absolute, fun rb b imm hb hv => ?baseImm, fun rb ri b i hb hi hv => ?baseIndex⟩
  case absolute =>
    obtain ⟨t, ht, hval, hip, hframe⟩ := deliver_completes s w (lengthOf w .rm) h1 h2 hclr
    refine ⟨t, ?_, hval.trans (trunc_of_memRead hv), fun h => ofNat_lengthOf_rm w ▸ hip h, hframe⟩
    rw [exec_ofSized]
    simp only [execSized, moveRegMemAt, hd, absoluteAddress_eq, hv, ok_bind, ht, outcome_ok]
  case baseImm =>
    obtain ⟨t, ht, hval, hip, hframe⟩ := deliver_completes s w (lengthOf w .rri) h1 h2 hclr
    refine ⟨t, ?_, hval.trans (trunc_of_memRead hv), fun h => ofNat_lengthOf_rri w ▸ hip h, hframe⟩
    rw [exec_ofSized]
    simp only [execSized, moveRegBaseImmAt, hd, hb, baseImmAddress, widen_eq, hv, ok_bind, ht, outcome_ok]
  case baseIndex =>
    obtain ⟨t, ht, hval, hip, hframe⟩ := deliver_completes s w (lengthOf w .rrr) h1 h2 hclr
    refine ⟨t, ?_, hval.trans (trunc_of_memRead hv), fun h => ofNat_lengthOf_rrr w ▸ hip h, hframe⟩
    rw [exec_ofSized]
    simp only [execSized, moveRegBaseIndexAt, hd, hb, hi, baseIndexAddress, widen_eq, hv, ok_bind, ht, outcome_ok]

/-- Settles O17: the low `W` bits are written, at addresses that are distinct. -/
theorem storeCompletes : Obligations.StoreCompletes := by
  intro w addr rs s r pas hr hpas hin
  have hlen := translateRange_length hpas
  have hd := translateRange_nodup (by have := w.bytes_le; omega) hpas
  have hwrite := memWrite_of_translateRange (v := readAt s w r) hpas hin
  refine ⟨(s.withMem (s.mem.storeAll pas (toBytes w.bytes (readAt s w r)))).advance (lengthOf w .mr), ?exec, hlen, ?bytes,
    ?ip, frame_of_storeAll (fun x hx h1 h2 => ?read) rfl rfl rfl rfl⟩
  case exec =>
    rw [exec_ofSized]
    simp only [execSized, moveMemRegAt, hr, absoluteAddress_eq, hwrite, ok_bind, outcome_ok]
  case bytes => exact holdsBytes_trunc hlen (holdsBytes_of_storeAll hd hlen rfl)
  case ip => rw [State.advance_ip, State.withMem_ip, ofNat_lengthOf_mr]
  case read =>
    rw [State.read_advance _ _ h1 h2 (by simpa using hx)]
    cases x <;> rfl

/-! ### The stack -/

/-- The state after a push (R140), before the instruction ends. -/
def pushed (s : State) (n : Nat) (v : Word) (pas : List Word) : State :=
  (s.withMem (s.mem.storeAll pas (toBytes n v))).withSp (s.sp - BitVec.ofNat 128 n)

/-- A push completes where its bytes translate to addresses that hold memory. -/
theorem pushValue_of_translateRange {s : State} {n : Nat} {v : Word} {pas : List Word}
    (h : translateRange s .write 0 (s.sp - BitVec.ofNat 128 n) n = .ok pas) (hin : ∀ pa ∈ pas, s.inPhysMem pa = true) :
    pushValue s n v = .ok (pushed s n v pas) :=
  pushValue_eq_ok.mpr ⟨pas, h, hin, rfl⟩

theorem read_pushed {s : State} {n : Nat} {v : Word} {pas : List Word} {r : Reg} (h : r ≠ .sp) :
    (pushed s n v pas).read r = s.read r := by
  cases r with
  | sp => exact absurd rfl h
  | _ => rfl

/-- Settles O18: the operand is read before the push, whose bytes lie at distinct addresses. -/
theorem pushCompletes : Obligations.PushCompletes := by
  intro w o s r pas hr hpas hin
  have hlen := translateRange_length hpas
  have hd := translateRange_nodup (by have := w.bytes_le; omega) hpas
  have hpush := pushValue_of_translateRange (v := readAt s w r) hpas hin
  refine ⟨(pushed s w.bytes (readAt s w r) pas).advance (lengthOf w .r), ?exec, rfl, hlen, ?bytes, ?ip,
    frame_of_storeAll (fun x hx h1 h2 => ?read) rfl rfl rfl rfl⟩
  case exec =>
    rw [exec_ofSized]
    simp only [execSized, pushAt, hr, hpush, ok_bind, outcome_ok]
  case bytes => exact holdsBytes_trunc hlen (holdsBytes_of_storeAll hd hlen rfl)
  case ip =>
    rw [State.advance_ip, ofNat_lengthOf_r]
    rfl
  case read =>
    simp only [List.mem_cons, List.not_mem_nil, or_false, not_or] at hx
    rw [State.read_advance _ _ h1 h2 hx.2, read_pushed hx.1]

/-- Settles O19: the destination is delivered to the state whose SP has gone up. -/
theorem popCompletes : Obligations.PopCompletes := by
  intro w o s d v hd hv hclr
  obtain ⟨h1, h2⟩ := reg_ok_visible hd
  obtain ⟨t, ht, hval, hip, hread, hbytes, hpl, hplat, hdraws⟩ :=
    deliver_completes (s.withSp (s.sp + BitVec.ofNat 128 w.bytes)) w (lengthOf w .r) h1 h2 hclr
  refine ⟨t, ?exec, hval.trans (trunc_of_memRead hv), fun h => ?sp, fun h => ofNat_lengthOf_r w ▸ hip h,
    fun r hr hr1 hr2 => ?read, hbytes, hpl, hplat, hdraws⟩
  case exec =>
    rw [exec_ofSized]
    simp only [execSized, popAt, hd, hv, ok_bind, ht, outcome_ok]
  case sp => exact hread .sp (by simpa using Ne.symm h) (by simp) (by simp)
  case read =>
    simp only [List.mem_cons, List.not_mem_nil, or_false, not_or] at hr
    rw [hread r (by simp [hr]) hr1 hr2]
    cases r with
    | sp => exact absurd rfl hr.2.1
    | _ => rfl

/-- With no device, a read of addresses at which a value lies answers that value. -/
theorem memRead_of_holdsBytes {t : State} {va v : Word} {n : Nat} {pas : List Word}
    (hpas : translateRange t .read 0 va n = .ok pas) (hin : ∀ pa ∈ pas, t.inPhysMem pa = true)
    (hmmio : t.platform.mmioRegions = []) (hold : HoldsBytes t pas v) : memRead t va n = .ok (fromBytes (toBytes n v)) := by
  have hlen := translateRange_length hpas
  have hbytes : physBytes t .read 0 pas = toBytes n v := by
    apply List.ext_getElem (by simpa using hlen)
    intro k hk hk'
    rw [physBytes_getElem, toBytes_getElem, hold k (by simpa using hk) _ (inMmio_of_no_device hmmio _)]
  exact memRead_eq_ok.mpr ⟨pas, hpas, hin, by rw [hbytes]⟩

/-- Settles O20: with paging off the POP reads the addresses the PUSH wrote. -/
theorem popReturnsWhatPushStored : Obligations.PopReturnsWhatPushStored := by
  intro w j k s hl hmmio hin
  have gpr (s : State) (k : Fin 32) : reg s (.named (.gpr k)) = .ok (.gpr k) := reg_of_open rfl (by simp) (by simp)
  have hpas := translateRange_of_level_zero hl .write 0 (s.sp - BitVec.ofNat 128 w.bytes) w.bytes
  obtain ⟨t, hpush, htsp, -, hold, -, hread, -, -, hplat, -⟩ := pushCompletes w _ s _ _ (gpr s j) hpas hin
  have htclr : t.clr = s.clr := hread .clr (by simp) (by simp) (by simp)
  have hv : memRead t t.sp w.bytes = .ok (trunc w (s.read (.gpr j))) := by
    rw [htsp, ← fromBytes_toBytes_bytes]
    refine memRead_of_holdsBytes (translateRange_of_level_zero (htclr ▸ hl) _ _ _ _) ?_ (hplat ▸ hmmio) hold
    rwa [State.inPhysMem_congr hplat]
  obtain ⟨u, hpop, hval, husp, -, -⟩ := popCompletes w _ t _ _ (gpr t k) hv (by simp)
  refine ⟨t, u, hpush, hpop, hval, ?_⟩
  rw [husp (by simp), htsp, BitVec.sub_add_cancel]

/-! ### Control flow -/

theorem frame_jump (s : State) (x : Word) : Frame s (s.jump x) [.ip] [] :=
  frame_of_mem_eq (fun _ hr h1 h2 => State.read_jump s x h1 h2 (by simpa using hr)) rfl rfl rfl rfl

theorem frame_advance (s : State) (len : Nat) : Frame s (s.advance len) [.ip] [] :=
  frame_of_mem_eq (fun _ hr h1 h2 => State.read_advance s len h1 h2 (by simpa using hr)) rfl rfl rfl rfl

theorem frame_jumpIf (s : State) (taken : Bool) (x : Word) : Frame s (jumpIf s taken x) [.ip] [] := by
  cases taken
  · exact frame_advance s _
  · exact frame_jump s x

/-- A jump has 17 bytes (R108). -/
theorem jumpIf_ip (s : State) (taken : Bool) (x : Word) : (jumpIf s taken x).ip = if taken = true then x else s.ip + 17 := by
  cases taken <;> rfl

/-- Settles O21: each jump is `jumpIf` on its condition. -/
theorem jumpsComplete : Obligations.JumpsComplete := by
  intro s x
  refine ⟨⟨_, rfl, frame_jumpIf s s.zf x, jumpIf_ip s s.zf x⟩, ⟨_, rfl, frame_jumpIf s _ x, ?_⟩,
    ⟨_, rfl, frame_jump s x, rfl⟩⟩
  rw [jumpIf_ip]
  exact if_congr bne_iff_ne rfl rfl

/-- The frame of a jump after a push. -/
theorem frame_pushed_jump (s : State) (n : Nat) (v : Word) (pas : List Word) (x : Word) :
    Frame s ((pushed s n v pas).jump x) [.sp, .ip] pas := by
  refine frame_of_storeAll (fun r hr h1 h2 => ?_) rfl rfl rfl rfl
  simp only [List.mem_cons, List.not_mem_nil, or_false, not_or] at hr
  rw [State.read_jump _ _ h1 h2 hr.2, read_pushed hr.1]

/-- Settles O22: a push and a jump. -/
theorem jsrCompletes : Obligations.JsrCompletes := by
  intro s x pas hpas hin
  have hlen := translateRange_length hpas
  refine ⟨(pushed s 16 (s.ip + 17) pas).jump x, ?_, rfl, rfl, hlen,
    holdsBytes_of_storeAll (translateRange_nodup (by omega) hpas) hlen rfl, frame_pushed_jump s 16 _ pas x⟩
  exact execJsr_eq_next.mpr ⟨_, pushValue_of_translateRange hpas hin, rfl⟩

/-- Settles O23: a pop into IP. -/
theorem rfsCompletes : Obligations.RfsCompletes := by
  intro s v hv
  refine ⟨_, execRfs_eq_next.mpr ⟨v, hv, rfl⟩, rfl, rfl, frame_of_mem_eq (fun r hr h1 h2 => ?_) rfl rfl rfl rfl⟩
  simp only [List.mem_cons, List.not_mem_nil, or_false, not_or] at hr
  rw [State.read_jump _ _ h1 h2 hr.2]
  cases r with
  | sp => exact absurd rfl hr.1
  | _ => rfl

/-- Settles O24: with paging off RFS reads the addresses that JSR wrote. -/
theorem rfsReturnsPastTheJsr : Obligations.RfsReturnsPastTheJsr := by
  intro s x hl hmmio hin
  have hpas := translateRange_of_level_zero hl .write 0 (s.sp - 16) 16
  obtain ⟨t, hjsr, htip, htsp, -, hold, hread, -, htpl, hplat, -⟩ := jsrCompletes s x _ hpas hin
  have htclr : t.clr = s.clr := hread .clr (by simp) (by simp) (by simp)
  have hv : memRead t t.sp 16 = .ok (s.ip + 17) := by
    rw [htsp, ← trunc_w128 (s.ip + 17), ← fromBytes_toBytes_bytes]
    refine memRead_of_holdsBytes (translateRange_of_level_zero (htclr ▸ hl) _ _ _ _) ?_ (hplat ▸ hmmio) hold
    rwa [State.inPhysMem_congr hplat]
  obtain ⟨u, hrfs, huip, husp, -, -, hupl, -⟩ := rfsCompletes t _ hv
  exact ⟨t, u, hjsr, htip, hrfs, huip, by rw [husp, htsp, BitVec.sub_add_cancel], hupl.trans htpl⟩

/-- Settles O25: a push at the caller's level, and then the level and IP. -/
theorem u2kCompletes : Obligations.U2kCompletes := by
  intro s entry pas hentry hpas hin
  have hlen := translateRange_length hpas
  refine ⟨((pushed s 16 (s.ip + 1) pas).withPl .privileged).jump entry, ?_, rfl, rfl, rfl, hlen,
    holdsBytes_of_storeAll (translateRange_nodup (by omega) hpas) hlen rfl,
    frame_pushed_jump (s.withPl .privileged) 16 (s.ip + 1) pas entry⟩
  exact execU2k_eq_next.mpr ⟨entry, _, hentry, pushValue_of_translateRange hpas hin, rfl⟩

end Sys2Proof.Execution
end

section
/-! TEST, XOR, SHL and COMP (R160 to R171): their results, the flags they set and what the jumps make of them. -/

namespace Sys2Proof.Arithmetic

open Sys2Proof Sys2Proof.Machine Sys2Proof.Encoding Sys2Proof.Memory Sys2Proof.Execution

/-! ### FLAGS -/

theorem setBit_getLsbD (v : Word) {k : Nat} (hk : k < 128) (b : Bool) (i : Nat) :
    (setBit v k b).getLsbD i = if i = k then b else v.getLsbD i := by
  unfold setBit
  by_cases hi : i = k
  · subst hi
    cases b <;> simp [hk]
  · cases b <;> simp [hi, Ne.symm hi, BitVec.getLsbD_twoPow]
    exact fun h => BitVec.lt_of_getLsbD h

/-- The flag rule of R161 bit by bit. -/
theorem flagsWith_getLsbD (flags : Word) (zf sf o : Bool) (i : Nat) :
    (flagsWith flags zf sf o).getLsbD i =
      if i = 2 then o else if i = 1 then sf else if i = 0 then zf else flags.getLsbD i := by
  simp only [flagsWith, params_zfBit, params_sfBit, params_ofBit, setBit_getLsbD, Nat.reduceLT]

/-- The flags that the rule leaves, with the upper bits of the register it was given. -/
theorem flagsAre_of_flags {t : State} {flags : Word} {zf sf o : Bool} (h : t.flags = flagsWith flags zf sf o) :
    FlagsAre t zf sf o flags := by
  simp only [FlagsAre, h, flagsWith_getLsbD]
  refine ⟨by simp, by simp, by simp, fun i hi => ?_⟩
  rw [if_neg (by omega), if_neg (by omega), if_neg (by omega)]

theorem setFlags_eq (s : State) (w : Width) (res : Word) (o : Bool) :
    s.setFlags w res o = s.withFlags (flagsWith s.flags (decide (res = 0)) (topBit w res) o) := rfl

theorem setLogicFlags_eq (s : State) (w : Width) (res : Word) (o : Bool) :
    s.setLogicFlags w res o = s.withFlags (flagsWith s.flags (decide (res = 0)) (topBit w res) o) := rfl

theorem read_withTemp (s : State) (v : Word) {r : Reg} (h : r ≠ .temp) : (s.withTemp v).read r = s.read r :=
  State.read_write_other (r := .temp) s v h

theorem read_withFlags (s : State) (v : Word) {r : Reg} (h : r ≠ .flags) : (s.withFlags v).read r = s.read r :=
  State.read_write_other (r := .flags) s v h

/-! ### TEST -/

theorem trunc_and (w : Width) (a b : Word) : trunc w a &&& trunc w b = trunc w (a &&& b) := by
  apply BitVec.eq_of_getLsbD_eq
  intro i hi
  simp only [BitVec.getLsbD_and, trunc_getLsbD]
  cases decide (i < w.bits) <;> simp

theorem trunc_xor (w : Width) (a b : Word) : trunc w a ^^^ trunc w b = trunc w (a ^^^ b) := by
  apply BitVec.eq_of_getLsbD_eq
  intro i hi
  simp only [BitVec.getLsbD_xor, trunc_getLsbD]
  cases decide (i < w.bits) <;> simp

/-- The frame of TEST and COMP, which write the flags and TEMP. -/
theorem frame_compare (s : State) (w : Width) (res : Word) (o : Bool) (len : Nat) :
    Frame s (((s.setFlags w res o).advance len).withTemp res) [.flags, .ip] [] := by
  refine frame_of_mem_eq (fun r hr h1 h2 => ?_) rfl rfl rfl rfl
  simp only [List.mem_cons, List.not_mem_nil, or_false, not_or] at hr
  rw [read_withTemp _ _ h2, State.read_advance _ _ h1 h2 hr.2]
  exact read_withFlags s _ hr.1

/-- Settles O27: the AND of the truncated operands is the truncated AND. -/
theorem testCompletes : Obligations.TestCompletes := by
  intro w oa ob s a b ha hb
  dsimp only
  have hres : readAt s w a &&& readAt s w b = trunc w (s.read a &&& s.read b) := trunc_and w _ _
  have hexec := (testAt_eq_next (w := w)).mpr ⟨a, b, ha, hb, rfl⟩
  rw [hres] at hexec
  refine ⟨_, (exec_ofSized w _ s).trans hexec, rfl, flagsAre_of_flags rfl, ?_, frame_compare s w _ false _⟩
  rw [State.withTemp_ip, State.advance_ip, ofNat_lengthOf_rr]
  rfl

/-! ### XOR and SHL -/

/-- The end of XOR and SHL: the result in the operand, the flags after it, and nothing else changed. -/
theorem logic_completes (s : State) (w : Width) {a : Reg} (res : Word) (o : Bool) (len : Nat) (h1 : a ≠ .eaddr)
    (h2 : a ≠ .temp) :
    let t := ((s.writeAt w a res).setLogicFlags w res o).advanceUnlessIp a len
    (a ≠ .flags → t.read a = trunc w res) ∧
      FlagsAre t (decide (res = 0)) (res.getLsbD (w.bits - 1)) o (if a = .flags then trunc w res else s.flags) ∧
      (a ≠ .ip → t.ip = s.ip + BitVec.ofNat 128 len) ∧ Frame s t [a, .flags, .ip] [] := by
  dsimp only
  have other {r : Reg} (h : r ≠ a) : (s.writeAt w a res).read r = s.read r := State.read_writeAt_other s w res h
  refine ⟨fun ha => ?result, ?flags, fun ha => ?ip, frame_of_mem_eq (fun r hr hr1 hr2 => ?read) ?_ ?_ ?_ ?_⟩
  case result =>
    rw [State.read_advanceUnlessIp _ _ _ h1 h2 (ne_or_eq a .ip), setLogicFlags_eq, read_withFlags _ _ ha,
      State.read_writeAt_same]
  case flags =>
    have hold : (s.writeAt w a res).flags = if a = .flags then trunc w res else s.flags := by
      split
      · rename_i ha
        subst ha
        exact State.read_writeAt_same s w .flags res
      · rename_i ha
        exact other (Ne.symm ha)
    rw [← hold]
    exact flagsAre_of_flags (by rw [State.advanceUnlessIp_flags]; rfl)
  case ip =>
    rw [State.advanceUnlessIp_ip, if_neg ha]
    exact congrArg (· + BitVec.ofNat 128 len) (other (r := .ip) (Ne.symm ha))
  case read =>
    simp only [List.mem_cons, List.not_mem_nil, or_false, not_or] at hr
    obtain ⟨hra, hrf, hri⟩ := hr
    rw [State.read_advanceUnlessIp _ _ _ hr1 hr2 (.inl hri), setLogicFlags_eq, read_withFlags _ _ hrf, other hra]
  all_goals simp [setLogicFlags_eq]

/-- Settles O28: the XOR of the truncated operands is the truncated XOR. -/
theorem xorCompletes : Obligations.XorCompletes := by
  intro w oa ob s a b ha hb
  dsimp only
  intro hclr
  obtain ⟨h1, h2⟩ := reg_ok_visible ha
  have hres : readAt s w a ^^^ readAt s w b = trunc w (s.read a ^^^ s.read b) := trunc_xor w _ _
  rw [← hres] at hclr
  have hexec := (xorAt_eq_next (w := w)).mpr ⟨a, b, ha, hb, hclr, rfl⟩
  rw [hres] at hexec
  obtain ⟨hval, hflags, hip, hframe⟩ := logic_completes s w (trunc w (s.read a ^^^ s.read b)) false (lengthOf w .rr) h1 h2
  rw [trunc_trunc] at hval hflags
  exact ⟨_, (exec_ofSized w _ s).trans hexec, hval, hflags, fun h => ofNat_lengthOf_rr w ▸ hip h, hframe⟩

/-- The result of SHL as a number: the operand times a power of two, and 0 from a count of `W` up (R164). -/
theorem shlResult_eq (w : Width) (a count : Word) :
    shlResult w (trunc w a) count =
      if w.bits ≤ count.toNat % 2 ^ w.bits then 0
      else BitVec.ofNat 128 (a.toNat % 2 ^ w.bits * 2 ^ (count.toNat % 2 ^ w.bits) % 2 ^ w.bits) := by
  have hcount : shlCount w count = count.toNat % 2 ^ w.bits := trunc_toNat w count
  rw [shlResult, hcount]
  split
  · rfl
  · apply BitVec.eq_of_toNat_eq
    have hdvd : (2 : Nat) ^ w.bits ∣ 2 ^ 128 := Nat.pow_dvd_pow 2 (bits_le w)
    rw [trunc_toNat, BitVec.toNat_shiftLeft, Nat.shiftLeft_eq, trunc_toNat, Nat.mod_mod_of_dvd _ hdvd, BitVec.toNat_ofNat]
    have hlt := Nat.mod_lt (a.toNat % 2 ^ w.bits * 2 ^ (count.toNat % 2 ^ w.bits)) (Nat.two_pow_pos w.bits)
    exact (Nat.mod_eq_of_lt (hlt.trans_le (Nat.le_of_dvd (by decide) hdvd))).symm

theorem trunc_shlResult (w : Width) (a count : Word) : trunc w (shlResult w a count) = shlResult w a count := by
  unfold shlResult
  split
  · exact trunc_of_lt (Nat.two_pow_pos _)
  · rw [trunc_trunc]

/-- Settles O29: the result is the model's, written as a number. -/
theorem shlCompletes : Obligations.ShlCompletes := by
  intro w oa count s a ha
  dsimp only
  rw [← shlResult_eq]
  intro hclr
  obtain ⟨h1, h2⟩ := reg_ok_visible ha
  obtain ⟨hval, hflags, hip, hframe⟩ :=
    logic_completes s w (shlResult w (readAt s w a) count) (Config.shlOverflow s.draws) (lengthOf w .ri) h1 h2
  rw [trunc_shlResult] at hval hflags
  exact ⟨_, (exec_ofSized w _ s).trans (shlAt_eq_next.mpr ⟨a, ha, hclr, rfl⟩), hval, ⟨_, hflags⟩,
    fun h => ofNat_lengthOf_ri w ▸ hip h, hframe⟩

/-! ### COMP -/

/-- A width's top bit is the sign of the value at the width. -/
theorem topBit_eq_msb (w : Width) (v : Word) : topBit w v = (v.setWidth w.bits).msb := by
  have := bits_pos w
  rw [topBit, BitVec.msb_eq_getLsbD_last, BitVec.getLsbD_setWidth, decide_eq_true (by omega), Bool.true_and]

theorem setWidth_trunc (w : Width) (v : Word) : (trunc w v).setWidth w.bits = v.setWidth w.bits := by
  apply BitVec.eq_of_toNat_eq
  rw [BitVec.toNat_setWidth, BitVec.toNat_setWidth, trunc_toNat, Nat.mod_mod]

theorem setWidth_difference (w : Width) (a b : Word) :
    (difference w a b).setWidth w.bits = a.setWidth w.bits - b.setWidth w.bits := by
  rw [difference, setWidth_trunc]
  apply BitVec.eq_of_toNat_eq
  rw [BitVec.toNat_sub, BitVec.toNat_setWidth, BitVec.toNat_setWidth, BitVec.toNat_setWidth, BitVec.toNat_sub]
  cases w <;> simp only [Width.bits, Width.bytes] <;> omega

/-- OF after COMP is signed overflow at the width (R170). -/
theorem subOverflow_eq (w : Width) (a b : Word) :
    subOverflow w a b = BitVec.ssubOverflow (a.setWidth w.bits) (b.setWidth w.bits) := by
  rw [subOverflow, BitVec.ssubOverflow_eq, topBit_eq_msb, topBit_eq_msb, topBit_eq_msb, setWidth_difference]
  cases (a.setWidth w.bits).msb <;> cases (b.setWidth w.bits).msb <;> simp

theorem subOverflow_eq_decide (w : Width) (a b : Word) :
    subOverflow w a b = decide (signedAt w a - signedAt w b < -2 ^ (w.bits - 1) ∨
      2 ^ (w.bits - 1) ≤ signedAt w a - signedAt w b) := by
  rw [subOverflow_eq, BitVec.ssubOverflow, Bool.decide_or, Bool.or_comm]
  rfl

/-- The difference at a width as a number (R170). -/
theorem difference_eq_ofNat (w : Width) (a b : Word) :
    difference w (trunc w a) (trunc w b) =
      BitVec.ofNat 128 (((trunc w a).toNat + 2 ^ w.bits - (trunc w b).toNat) % 2 ^ w.bits) := by
  have ha : (trunc w a).toNat < 2 ^ w.bits := trunc_toNat w a ▸ Nat.mod_lt _ (Nat.two_pow_pos _)
  have hb : (trunc w b).toNat < 2 ^ w.bits := trunc_toNat w b ▸ Nat.mod_lt _ (Nat.two_pow_pos _)
  apply BitVec.eq_of_toNat_eq
  rw [difference, trunc_toNat, BitVec.toNat_sub, BitVec.toNat_ofNat]
  cases w <;> simp only [Width.bits, Width.bytes] at ha hb ⊢ <;> omega

/-- Settles O30: OF is the library's signed overflow of the truncated operands. -/
theorem compCompletes : Obligations.CompCompletes := by
  intro w oa imm s r hr
  dsimp only
  rw [← difference_eq_ofNat, ← subOverflow_eq_decide]
  refine ⟨_, (exec_ofSized w _ s).trans (compAt_eq_next.mpr ⟨r, hr, rfl⟩), rfl, flagsAre_of_flags rfl, ?_,
    frame_compare s w _ _ _⟩
  rw [State.withTemp_ip, State.advance_ip, ofNat_lengthOf_ri]
  rfl

/-! ### The jumps after COMP -/

/-- The sign of a difference differs from its overflow exactly when the first number is the smaller (R171). -/
theorem msb_sub_ne_ssubOverflow {n : Nat} (x y : BitVec n) :
    (x - y).msb ≠ BitVec.ssubOverflow x y ↔ x.toInt < y.toInt := by
  have hx : x.msb = decide (x.toInt < 0) := BitVec.msb_eq_toInt
  have hy : y.msb = decide (y.toInt < 0) := BitVec.msb_eq_toInt
  have hov := BitVec.ssubOverflow_eq x y
  by_cases hsame : x.msb = y.msb
  · have hno : BitVec.ssubOverflow x y = false := by
      rw [hov, hsame]
      cases y.msb <;> simp
    rw [hno, Bool.ne_false_iff, BitVec.msb_eq_toInt, decide_eq_true_iff,
      BitVec.toInt_sub_of_not_ssubOverflow (by simp [hno])]
    omega
  · obtain ⟨hxm, hym⟩ | ⟨hxm, hym⟩ : x.msb = true ∧ y.msb = false ∨ x.msb = false ∧ y.msb = true := by
      cases hxm : x.msb <;> cases hym : y.msb <;> simp_all
    all_goals
      rw [hov, hxm, hym]
      simp only [hxm, hym, true_eq_decide_iff, false_eq_decide_iff] at hx hy
      cases (x - y).msb <;> simp <;> omega

/-- A difference at a width is 0 exactly when the operands are equal there. -/
theorem difference_eq_zero (w : Width) (a b : Word) : difference w (trunc w a) (trunc w b) = 0 ↔ trunc w a = trunc w b := by
  have ha : (trunc w a).toNat < 2 ^ w.bits := trunc_toNat w a ▸ Nat.mod_lt _ (Nat.two_pow_pos _)
  have hb : (trunc w b).toNat < 2 ^ w.bits := trunc_toNat w b ▸ Nat.mod_lt _ (Nat.two_pow_pos _)
  rw [← BitVec.toNat_inj, ← BitVec.toNat_inj, difference, trunc_toNat, BitVec.toNat_sub]
  cases w <;> simp only [Width.bits, Width.bytes] at ha hb ⊢ <;> simp <;> omega

/-- SF and OF after COMP differ exactly when the register is the smaller as a signed number. -/
theorem topBit_difference_ne_subOverflow (w : Width) (a b : Word) :
    topBit w (difference w (trunc w a) (trunc w b)) ≠ subOverflow w (trunc w a) (trunc w b) ↔
      signedAt w a < signedAt w b := by
  rw [topBit_eq_msb, setWidth_difference, subOverflow_eq, setWidth_trunc, setWidth_trunc]
  exact msb_sub_ne_ssubOverflow _ _

/-- Settles O31: ZF is equality, and SF and OF together the signed order. -/
theorem compDecidesTheJumps : Obligations.CompDecidesTheJumps := by
  intro w oa imm s r x hr
  obtain ⟨t, hexec, hflags⟩ : ∃ t, exec (.ofSized w (.comp oa imm)) s = .next t ∧
      FlagsAre t (decide (difference w (trunc w (s.read r)) (trunc w imm) = 0))
        (topBit w (difference w (trunc w (s.read r)) (trunc w imm))) (subOverflow w (trunc w (s.read r)) (trunc w imm))
        s.flags :=
    ⟨_, (exec_ofSized w _ s).trans (compAt_eq_next.mpr ⟨r, hr, rfl⟩), flagsAre_of_flags rfl⟩
  obtain ⟨hzf, hsf, hof, -⟩ := hflags
  refine ⟨t, _, _, hexec, rfl, rfl, ?jie, ?jil⟩
  case jie =>
    have taken : t.zf = true ↔ trunc w (s.read r) = trunc w imm := by
      rw [State.zf, params_zfBit, hzf, decide_eq_true_iff, difference_eq_zero]
    rw [jumpIf_ip]
    exact if_congr taken rfl rfl
  case jil =>
    have taken : (t.sf != t.of) = true ↔ signedAt w (s.read r) < signedAt w imm := by
      rw [State.sf, State.of, params_sfBit, params_ofBit, hsf, hof, bne_iff_ne, topBit_difference_ne_subOverflow]
    rw [jumpIf_ip]
    exact if_congr taken rfl rfl

end Sys2Proof.Arithmetic
end

section
/-! How an instruction stops: the reserved paging levels, the faults of its accesses, and which instruction can raise what
(R204, R205), with the one refusal (R155). -/

namespace Sys2Proof.Stops

open Sys2Proof Sys2Proof.Machine Sys2Proof.Encoding Sys2Proof.Memory Sys2Proof.Execution Sys2Proof.Arithmetic

/-! ### Reserved paging levels -/

/-- The paging level of a CLR shifted by fewer than 4 bits at any width. -/
theorem shlResult_mod_level (w : Width) (a count : Word) (hc : count.toNat % 2 ^ w.bits < 4) :
    (shlResult w (trunc w a) count).toNat % 16 = a.toNat * 2 ^ (count.toNat % 2 ^ w.bits) % 16 := by
  have hcount : shlCount w count = count.toNat % 2 ^ w.bits := trunc_toNat w count
  have hbits := bits_pos w
  rw [shlResult, hcount, if_neg (by omega), trunc_mod_level, BitVec.toNat_shiftLeft, Nat.shiftLeft_eq,
    Nat.mod_mod_of_dvd _ (by decide : 16 ∣ 2 ^ 128), Nat.mul_mod, trunc_mod_level, ← Nat.mul_mod]

/-- Settles O32: every write of a destination is checked for a reserved paging level first. -/
theorem reservedPagingLevelStops : Obligations.ReservedPagingLevelStops := by
  intro w s rd hd
  have stops {s : State} {v : Word} (len : Nat) (h : 13 < v.toNat % 16) :
      deliver s w .clr v len = .error (.reservedValue .clrPgl) := deliver_eq_error.mpr ⟨rfl, rfl, h⟩
  have check {v : Word} (h : 13 < v.toNat % 16) : checkReserved s w .clr v = .error (.reservedValue .clrPgl) :=
    checkReserved_eq_error.mpr ⟨rfl, rfl, h⟩
  simp only [exec_ofSized, execSized]
  refine ⟨fun rs r hr hv => ?_, fun addr v hv h => ?_, fun rb b imm v hb hv h => ?_, fun rb ri b i v hb hi hv h => ?_,
    fun v hv h => ?_, fun rb b hb h => ?_, fun count hc h => ?_⟩
  · have h : 13 < (readAt s w r).toNat % 16 := by rwa [readAt, trunc_mod_level]
    simp only [moveRegRegAt, hd, hr, ok_bind, stops _ h, outcome_error]
  · simp only [moveRegMemAt, hd, absoluteAddress_eq, hv, ok_bind, stops _ h, outcome_error]
  · simp only [moveRegBaseImmAt, hd, hb, baseImmAddress, widen_eq, hv, ok_bind, stops _ h, outcome_error]
  · simp only [moveRegBaseIndexAt, hd, hb, hi, baseIndexAddress, widen_eq, hv, ok_bind, stops _ h, outcome_error]
  · simp only [popAt, hd, hv, ok_bind, stops _ h, outcome_error]
  · have h : 13 < (readAt s w .clr ^^^ readAt s w b).toNat % 16 := by
      rw [readAt, readAt, trunc_xor, trunc_mod_level]
      exact h
    simp only [xorAt, hd, hb, ok_bind, check h, error_bind, outcome_error]
  · have h : 13 < (shlResult w (readAt s w .clr) count).toNat % 16 := by
      rw [readAt, shlResult_mod_level w _ count hc]
      exact h
    simp only [shlAt, hd, ok_bind, check h, error_bind, outcome_error]

/-! ### Faulting accesses -/

theorem execJsr_eq_fault {x : Word} {s : State} {f : Fault} :
    execJsr x s = .fault f ↔ memWrite s (s.sp - 16) 16 (s.ip + 17) = .error f := by
  simp only [execJsr, outcome_eq_fault, bind_eq_error, reduceCtorEq, and_false, exists_false, or_false]
  exact pushValue_eq_error

theorem execRfs_eq_fault {s : State} {f : Fault} : execRfs s = .fault f ↔ memRead s s.sp 16 = .error f := by
  simp only [execRfs, outcome_eq_fault, bind_eq_error, reduceCtorEq, and_false, exists_false, or_false]

theorem execU2k_eq_fault {s : State} {f : Fault} :
    execU2k s = .fault f ↔
      (∃ entry, s.platform.u2kEntry = some entry) ∧ memWrite s (s.sp - 16) 16 (s.ip + 1) = .error f := by
  unfold execU2k
  split
  · rename_i hentry
    simp [hentry]
  · rename_i entry hentry
    simp only [outcome_eq_fault, bind_eq_error, reduceCtorEq, and_false, exists_false, or_false, hentry,
      Option.some.injEq, exists_eq', true_and]
    exact pushValue_eq_error

/-- Settles O33: each access is the next thing after the operands are checked. -/
theorem accessFaultEndsTheInstruction : Obligations.AccessFaultEndsTheInstruction := by
  intro w s o r f hr
  simp only [exec_ofSized, execSized]
  refine ⟨fun addr h => ?_, fun rb b imm hb h => ?_, fun rb ri b i hb hi h => ?_, fun h => ?_, fun h => ?_, fun addr h => ?_,
    fun h => ?_, fun x h => ?_, fun entry hentry h => ?_⟩
  · simp only [moveRegMemAt, hr, absoluteAddress_eq, h, ok_bind, error_bind, outcome_error]
  · simp only [moveRegBaseImmAt, hr, hb, baseImmAddress, widen_eq, h, ok_bind, error_bind, outcome_error]
  · simp only [moveRegBaseIndexAt, hr, hb, hi, baseIndexAddress, widen_eq, h, ok_bind, error_bind, outcome_error]
  · simp only [popAt, hr, h, ok_bind, error_bind, outcome_error]
  · exact execRfs_eq_fault.mpr h
  · simp only [moveMemRegAt, hr, absoluteAddress_eq, readAt, h, ok_bind, error_bind, outcome_error]
  · simp only [pushAt, hr, readAt, pushValue_eq_error.mpr h, ok_bind, error_bind, outcome_error]
  · exact execJsr_eq_fault.mpr h
  · exact execU2k_eq_fault.mpr ⟨⟨entry, hentry⟩, h⟩

/-! ### Which instruction can raise what -/

/-- The faults of a register operand (R104). -/
def OperandFault (f : Fault) : Prop :=
  (∃ r, f = .upe r) ∨ f = .illegalEncoding .reservedRegister ∨ f = .illegalEncoding .inaccessibleRegister

theorem operandFault_of_reg {s : State} {o : RegOperand} {f : Fault} (h : reg s o = .error f) : OperandFault f := by
  cases o with
  | unassigned b =>
    cases h
    exact .inr (.inl rfl)
  | named r =>
    simp only [reg] at h
    split_ifs at h
    · cases h
      exact .inl ⟨r, rfl⟩
    · cases h
      exact .inr (.inr rfl)

theorem operandFault_of_firstOperandFault {s : State} {os : List RegOperand} {f : Fault}
    (h : firstOperandFault s os = some f) : OperandFault f := by
  induction os with
  | nil => cases h
  | cons o os ih =>
    rw [firstOperandFault] at h
    split at h
    · rename_i hreg
      cases h
      exact operandFault_of_reg hreg
    · exact ih h

/-- The loads and POP, among the instructions with operands of a width (R53). -/
def readsSized : Sized → Bool
  | .moveRegMem _ _ => true
  | .moveRegBaseImm _ _ _ => true
  | .moveRegBaseIndex _ _ _ => true
  | .pop _ => true
  | _ => false

/-- The store and PUSH, among the instructions with operands of a width (R53). -/
def writesSized : Sized → Bool
  | .moveMemReg _ _ => true
  | .push _ => true
  | _ => false

theorem readsMemory_ofSized (w : Width) (body : Sized) : readsMemory (.ofSized w body) = readsSized body := by
  cases w <;> cases body <;> rfl

theorem writesMemory_ofSized (w : Width) (body : Sized) : writesMemory (.ofSized w body) = writesSized body := by
  cases w <;> cases body <;> rfl

/-- Where the fault of an instruction with operands of a width comes from: its operands, its access, or the check of its
destination. -/
theorem execSized_fault_source {w : Width} {body : Sized} {s : State} {f : Fault} (h : execSized w body s = .fault f) :
    firstOperandFault s (operandsOf body) = some f ∨
    (readsSized body = true ∧ ∃ va, memRead s va w.bytes = .error f) ∨
    (writesSized body = true ∧ ∃ va v, memWrite s va w.bytes v = .error f) ∨
    (f = .reservedValue .clrPgl ∧ ∃ o, destinationOf body = some o ∧ reg s o = .ok .clr) := by
  cases body with
  | moveRegReg rd rs =>
    simp only [execSized, moveRegRegAt, outcome_eq_fault, bind_eq_error, deliver_eq_error] at h
    obtain h | ⟨d, hd, h | ⟨r, -, rfl, rfl, -⟩⟩ := h
    · exact .inl (by simp only [operandsOf, firstOperandFault, h])
    · exact .inl (by simp only [operandsOf, firstOperandFault, hd, h])
    · exact .inr (.inr (.inr ⟨rfl, rd, rfl, hd⟩))
  | moveRegMem rd addr =>
    simp only [execSized, moveRegMemAt, outcome_eq_fault, bind_eq_error, deliver_eq_error] at h
    obtain h | ⟨d, hd, h | ⟨v, -, rfl, rfl, -⟩⟩ := h
    · exact .inl (by simp only [operandsOf, firstOperandFault, h])
    · exact .inr (.inl ⟨rfl, _, h⟩)
    · exact .inr (.inr (.inr ⟨rfl, rd, rfl, hd⟩))
  | moveRegBaseImm rd rb imm =>
    simp only [execSized, moveRegBaseImmAt, outcome_eq_fault, bind_eq_error, deliver_eq_error] at h
    obtain h | ⟨d, hd, h | ⟨b, hb, h | ⟨v, -, rfl, rfl, -⟩⟩⟩ := h
    · exact .inl (by simp only [operandsOf, firstOperandFault, h])
    · exact .inl (by simp only [operandsOf, firstOperandFault, hd, h])
    · exact .inr (.inl ⟨rfl, _, h⟩)
    · exact .inr (.inr (.inr ⟨rfl, rd, rfl, hd⟩))
  | moveRegBaseIndex rd rb ri =>
    simp only [execSized, moveRegBaseIndexAt, outcome_eq_fault, bind_eq_error, deliver_eq_error] at h
    obtain h | ⟨d, hd, h | ⟨b, hb, h | ⟨i, hi, h | ⟨v, -, rfl, rfl, -⟩⟩⟩⟩ := h
    · exact .inl (by simp only [operandsOf, firstOperandFault, h])
    · exact .inl (by simp only [operandsOf, firstOperandFault, hd, h])
    · exact .inl (by simp only [operandsOf, firstOperandFault, hd, hb, h])
    · exact .inr (.inl ⟨rfl, _, h⟩)
    · exact .inr (.inr (.inr ⟨rfl, rd, rfl, hd⟩))
  | moveMemReg addr rs =>
    simp only [execSized, moveMemRegAt, outcome_eq_fault, bind_eq_error, reduceCtorEq, and_false, exists_false,
      or_false] at h
    obtain h | ⟨r, -, h⟩ := h
    · exact .inl (by simp only [operandsOf, firstOperandFault, h])
    · exact .inr (.inr (.inl ⟨rfl, _, _, h⟩))
  | push r =>
    simp only [execSized, pushAt, outcome_eq_fault, bind_eq_error, reduceCtorEq, and_false, exists_false, or_false,
      pushValue_eq_error] at h
    obtain h | ⟨x, -, h⟩ := h
    · exact .inl (by simp only [operandsOf, firstOperandFault, h])
    · exact .inr (.inr (.inl ⟨rfl, _, _, h⟩))
  | pop r =>
    simp only [execSized, popAt, outcome_eq_fault, bind_eq_error, deliver_eq_error] at h
    obtain h | ⟨d, hd, h | ⟨v, -, rfl, rfl, -⟩⟩ := h
    · exact .inl (by simp only [operandsOf, firstOperandFault, h])
    · exact .inr (.inl ⟨rfl, _, h⟩)
    · exact .inr (.inr (.inr ⟨rfl, r, rfl, hd⟩))
  | test ra rb =>
    simp only [execSized, testAt, outcome_eq_fault, bind_eq_error, reduceCtorEq, and_false, exists_false, or_false] at h
    obtain h | ⟨a, ha, h⟩ := h
    · exact .inl (by simp only [operandsOf, firstOperandFault, h])
    · exact .inl (by simp only [operandsOf, firstOperandFault, ha, h])
  | xor ra rb =>
    simp only [execSized, xorAt, outcome_eq_fault, bind_eq_error, checkReserved_eq_error, reduceCtorEq, and_false,
      exists_false, or_false] at h
    obtain h | ⟨a, ha, h | ⟨b, -, rfl, rfl, -⟩⟩ := h
    · exact .inl (by simp only [operandsOf, firstOperandFault, h])
    · exact .inl (by simp only [operandsOf, firstOperandFault, ha, h])
    · exact .inr (.inr (.inr ⟨rfl, ra, rfl, ha⟩))
  | shl ra count =>
    simp only [execSized, shlAt, outcome_eq_fault, bind_eq_error, checkReserved_eq_error, reduceCtorEq, and_false,
      exists_false, or_false] at h
    obtain h | ⟨a, ha, rfl, rfl, -⟩ := h
    · exact .inl (by simp only [operandsOf, firstOperandFault, h])
    · exact .inr (.inr (.inr ⟨rfl, ra, rfl, ha⟩))
  | comp ra imm =>
    simp only [execSized, compAt, outcome_eq_fault, bind_eq_error, reduceCtorEq, and_false, exists_false, or_false] at h
    exact .inl (by simp only [operandsOf, firstOperandFault, h])

/-- Settles O34: the sources of a fault, each with the faults it can raise. -/
theorem eachInstructionRaisesOnlyItsFaults : Obligations.EachInstructionRaisesOnlyItsFaults := by
  intro i s f hl h
  cases i using cases_ofSized with
  | sized w body =>
    rw [exec_ofSized] at h
    obtain hop | ⟨hreads, va, hread⟩ | ⟨hwrites, va, v, hwrite⟩ | ⟨rfl, o, hdest, ho⟩ := execSized_fault_source h
    · exact .inl ⟨w, body, sizedOf_ofSized w body, hop, operandFault_of_firstOperandFault hop⟩
    · exact .inr (.inl ⟨(readsMemory_ofSized w body).trans hreads, memRead_fault_kind hl hread⟩)
    · exact .inr (.inr (.inl ⟨(writesMemory_ofSized w body).trans hwrites, memWrite_fault_kind hl hwrite⟩))
    · obtain rfl := (reg_eq_ok.mp ho).1
      exact .inr (.inr (.inr ⟨rfl, w, body, sizedOf_ofSized w body, hdest⟩))
  | jie | jil | jmp => cases h
  | jsr x => exact .inr (.inr (.inl ⟨rfl, memWrite_fault_kind hl (execJsr_eq_fault.mp h)⟩))
  | rfs => exact .inr (.inl ⟨rfl, memRead_fault_kind hl (execRfs_eq_fault.mp h)⟩)
  | u2k => exact .inr (.inr (.inl ⟨rfl, memWrite_fault_kind hl (execU2k_eq_fault.mp h).2⟩))

/-! ### The one refusal -/

theorem exec_eq_refused {i : Instr} {s : State} {q : Refusal} :
    exec i s = .refused q ↔ i = .u2k ∧ q = .noU2kEntry ∧ s.platform.u2kEntry = none := by
  constructor
  · intro h
    cases i using cases_ofSized with
    | sized w body =>
      rw [exec_ofSized] at h
      exact absurd h (execSized_ne_refused w body s q)
    | jie | jil | jmp => cases h
    | jsr | rfs => exact absurd h (outcome_ne_refused _ q)
    | u2k =>
      change execU2k s = .refused q at h
      unfold execU2k at h
      split at h
      · rename_i hentry
        cases h
        exact ⟨rfl, rfl, hentry⟩
      · exact absurd h (outcome_ne_refused _ q)
  · rintro ⟨rfl, rfl, hentry⟩
    show execU2k s = _
    simp only [execU2k, hentry]

/-- Settles O26: a step is refused only where its instruction is. -/
theorem onlyU2kWithoutEntryIsRefused : Obligations.OnlyU2kWithoutEntryIsRefused := by
  refine ⟨fun s h => exec_eq_refused.mpr ⟨rfl, rfl, h⟩, fun s q h => ?_⟩
  unfold step at h
  split at h
  · cases h
  · rename_i i hfetch
    split at h
    · cases h
    · cases h
    · rename_i hexec
      cases h
      obtain ⟨rfl, rfl, hentry⟩ := exec_eq_refused.mp hexec
      exact ⟨rfl, hfetch, hentry⟩

end Sys2Proof.Stops
end

section
/-! What an instruction can leave behind, said once as the relation `Ends`, and the invariants of a step that follow from it:
the platform, the privilege level, the registers no unprivileged program writes, FLAGS, memory and the legal paging level. -/

namespace Sys2Proof.Invariants

open Sys2Proof Sys2Proof.Machine Sys2Proof.Encoding Sys2Proof.Memory Sys2Proof.Execution Sys2Proof.Arithmetic Sys2Proof.Stops

/-! ### The states an instruction ends in -/

/-- `Ends s i t`: the shapes of the states `t` in which the instruction `i` can end from `s` (R130, R140, R150 to R155, R161). -/
inductive Ends (s : State) : Instr → State → Prop where
  /-- The five forms of MOVE that have a destination, and POP, which also moves SP. -/
  | deliver (w : Width) (body : Sized) (o : RegOperand) (d : Reg) (v a : Word) (hdest : destinationOf body = some o)
      (hreg : reg s o = .ok d) (hclr : d = .clr → v.toNat % 16 ≤ 13) (hsp : a = s.sp ∨ ∃ o, body = .pop o) :
      Ends s (.ofSized w body) (((s.withSp a).writeAt w d v).advanceUnlessIp d (lengthOf w body.format))
  /-- XOR and SHL. -/
  | logic (w : Width) (body : Sized) (o : RegOperand) (d : Reg) (res : Word) (overflow : Bool)
      (hdest : destinationOf body = some o) (hreg : reg s o = .ok d) (hclr : d = .clr → res.toNat % 16 ≤ 13)
      (hflags : setsFlags body = true) :
      Ends s (.ofSized w body)
        (((s.writeAt w d res).setLogicFlags w res overflow).advanceUnlessIp d (lengthOf w body.format))
  /-- TEST and COMP. -/
  | compare (w : Width) (body : Sized) (res : Word) (overflow : Bool) (hflags : setsFlags body = true) :
      Ends s (.ofSized w body) (((s.setFlags w res overflow).advance (lengthOf w body.format)).withTemp res)
  /-- MOVE form 04, and PUSH, which also moves SP. -/
  | store (w : Width) (body : Sized) (pas : List Word) (vs : List Byte) (a : Word) (hwrites : writesSized body = true)
      (hin : ∀ pa ∈ pas, s.inPhysMem pa = true) (hsp : a = s.sp ∨ ∃ o, body = .push o) :
      Ends s (.ofSized w body) (((s.withMem (s.mem.storeAll pas vs)).withSp a).advance (lengthOf w body.format))
  /-- JIE, JIL and JMP, and RFS, which also moves SP. -/
  | jump (i : Instr) (a x : Word) (hi : sizedOf i = none) (hu2k : i ≠ .u2k) : Ends s i ((s.withSp a).jump x)
  /-- JSR. -/
  | call (target : Word) (pas : List Word) (vs : List Byte) (a x : Word) (hin : ∀ pa ∈ pas, s.inPhysMem pa = true) :
      Ends s (.jsr target) (((s.withMem (s.mem.storeAll pas vs)).withSp a).jump x)
  /-- U2K. -/
  | enter (pas : List Word) (vs : List Byte) (a x : Word) (hin : ∀ pa ∈ pas, s.inPhysMem pa = true) :
      Ends s .u2k ((((s.withMem (s.mem.storeAll pas vs)).withSp a).withPl .privileged).jump x)

theorem ends_of_execSized {w : Width} {body : Sized} {s t : State} (h : execSized w body s = .next t) :
    Ends s (.ofSized w body) t := by
  cases body with
  | moveRegReg rd rs =>
    obtain ⟨d, r, hd, -, hclr, rfl⟩ := moveRegRegAt_eq_next.mp h
    exact .deliver w _ rd d _ s.sp rfl hd hclr (.inl rfl)
  | moveRegMem rd addr =>
    obtain ⟨d, v, hd, -, hclr, rfl⟩ := moveRegMemAt_eq_next.mp h
    exact .deliver w _ rd d _ s.sp rfl hd hclr (.inl rfl)
  | moveRegBaseImm rd rb imm =>
    obtain ⟨d, b, v, hd, -, -, hclr, rfl⟩ := moveRegBaseImmAt_eq_next.mp h
    exact .deliver w _ rd d _ s.sp rfl hd hclr (.inl rfl)
  | moveRegBaseIndex rd rb ri =>
    obtain ⟨d, b, i, v, hd, -, -, -, hclr, rfl⟩ := moveRegBaseIndexAt_eq_next.mp h
    exact .deliver w _ rd d _ s.sp rfl hd hclr (.inl rfl)
  | pop o =>
    obtain ⟨d, v, hd, -, hclr, rfl⟩ := popAt_eq_next.mp h
    exact .deliver w _ o d _ _ rfl hd hclr (.inr ⟨o, rfl⟩)
  | moveMemReg addr rs =>
    obtain ⟨r, u, -, hwrite, rfl⟩ := moveMemRegAt_eq_next.mp h
    obtain ⟨pas, -, hin, rfl⟩ := memWrite_eq_ok.mp hwrite
    exact .store w _ pas _ s.sp rfl hin (.inl rfl)
  | push o =>
    obtain ⟨r, u, -, hpush, rfl⟩ := pushAt_eq_next.mp h
    obtain ⟨pas, -, hin, rfl⟩ := pushValue_eq_ok.mp hpush
    exact .store w _ pas _ _ rfl hin (.inr ⟨o, rfl⟩)
  | test oa ob =>
    obtain ⟨a, b, -, -, rfl⟩ := testAt_eq_next.mp h
    exact .compare w (.test oa ob) _ _ rfl
  | comp oa imm =>
    obtain ⟨r, -, rfl⟩ := compAt_eq_next.mp h
    exact .compare w (.comp oa imm) _ _ rfl
  | xor oa ob =>
    obtain ⟨a, b, ha, -, hclr, rfl⟩ := xorAt_eq_next.mp h
    exact .logic w (.xor oa ob) oa a _ _ rfl ha hclr rfl
  | shl oa count =>
    obtain ⟨a, ha, hclr, rfl⟩ := shlAt_eq_next.mp h
    exact .logic w (.shl oa count) oa a _ _ rfl ha hclr rfl

/-- A conditional jump ends as a jump to one of its two addresses. -/
theorem jumpIf_eq_jump (s : State) (taken : Bool) (x : Word) : ∃ x', jumpIf s taken x = (s.withSp s.sp).jump x' := by
  cases taken
  · exact ⟨_, rfl⟩
  · exact ⟨x, rfl⟩

theorem ends_of_exec {i : Instr} {s t : State} (h : exec i s = .next t) : Ends s i t := by
  cases i using cases_ofSized with
  | sized w body => exact ends_of_execSized (exec_ofSized w body s ▸ h)
  | jie x =>
    obtain ⟨x', hx⟩ := jumpIf_eq_jump s s.zf x
    cases h
    exact hx ▸ .jump _ s.sp x' rfl (by simp)
  | jil x =>
    obtain ⟨x', hx⟩ := jumpIf_eq_jump s (s.sf != s.of) x
    cases h
    exact hx ▸ .jump _ s.sp x' rfl (by simp)
  | jmp x =>
    cases h
    exact .jump _ s.sp x rfl (by simp)
  | rfs =>
    obtain ⟨v, -, rfl⟩ := execRfs_eq_next.mp h
    exact .jump _ _ v rfl (by simp)
  | jsr x =>
    obtain ⟨u, hpush, rfl⟩ := execJsr_eq_next.mp h
    obtain ⟨pas, -, hin, rfl⟩ := pushValue_eq_ok.mp hpush
    exact .call x pas _ _ x hin
  | u2k =>
    obtain ⟨entry, u, -, hpush, rfl⟩ := execU2k_eq_next.mp h
    obtain ⟨pas, -, hin, rfl⟩ := pushValue_eq_ok.mp hpush
    exact .enter pas _ _ entry hin

/-- A step ends as its instruction does, with one draw counted. -/
theorem step_ends {s t : State} (h : step s = .next t) : ∃ i u, fetchInstr s = .ok i ∧ Ends s i u ∧ t = u.tick := by
  obtain ⟨i, u, hfetch, hexec, rfl⟩ := step_eq_next.mp h
  exact ⟨i, u, hfetch, ends_of_exec hexec, rfl⟩

/-- The same for the instruction that was fetched. -/
theorem step_ends_of_fetch {s t : State} {i : Instr} (hi : fetchInstr s = .ok i) (h : step s = .next t) :
    ∃ u, Ends s i u ∧ t = u.tick := by
  obtain ⟨i', u, hi', hends, rfl⟩ := step_ends h
  obtain rfl : i = i' := Except.ok.inj (hi.symm.trans hi')
  exact ⟨u, hends, rfl⟩

/-! ### What a destination write leaves -/

section
variable {s : State} {w : Width} {d : Reg} {v : Word}

theorem writeAt_sp (h : d ≠ .sp) : (s.writeAt w d v).sp = s.sp := State.read_writeAt_other s w v h.symm
theorem writeAt_ip (h : d ≠ .ip) : (s.writeAt w d v).ip = s.ip := State.read_writeAt_other s w v h.symm
theorem writeAt_ptp (h : d ≠ .ptp) : (s.writeAt w d v).ptp = s.ptp := State.read_writeAt_other s w v h.symm
theorem writeAt_flags (h : d ≠ .flags) : (s.writeAt w d v).flags = s.flags := State.read_writeAt_other s w v h.symm
theorem writeAt_clr (h : d ≠ .clr) : (s.writeAt w d v).clr = s.clr := State.read_writeAt_other s w v h.symm

/-- A destination write that passed its check leaves a legal paging level. -/
theorem writeAt_clr_level (hclr : d = .clr → v.toNat % 16 ≤ 13) (hs : s.clr.toNat % 16 ≤ 13) :
    (s.writeAt w d v).clr.toNat % 16 ≤ 13 := by
  by_cases hd : d = .clr
  · subst hd
    have hval : (s.writeAt w .clr v).clr = trunc w v := State.read_writeAt_same s w .clr v
    rw [hval, trunc_mod_level]
    exact hclr rfl
  · rwa [writeAt_clr hd]

end

/-- FLAGS[127:3] are kept by the flag rule (R161). -/
theorem flagsWith_upper (flags : Word) (zf sf o : Bool) {n : Nat} (hn : 3 ≤ n) :
    (flagsWith flags zf sf o).getLsbD n = flags.getLsbD n := by
  rw [flagsWith_getLsbD, if_neg (by omega), if_neg (by omega), if_neg (by omega)]

/-! ### Reset, the platform and the privilege level -/

/-- Settles O48: the reset state's fields. -/
theorem resetValuesOfTheSpec : Obligations.ResetValuesOfTheSpec := ⟨rfl, rfl, rfl⟩

/-- Settles O49: memory is empty and the level is 13. -/
theorem resetMeetsTheInvariant : Obligations.ResetMeetsTheInvariant := by
  have hlevel : State.reset.legalLevel = true := by
    rw [State.legalLevel, pglOf_eq]
    exact decide_eq_true (by rw [resetValuesOfTheSpec.1])
  rw [Obligations.ResetMeetsTheInvariant, State.inv, Memory.wf_reset, hlevel]
  rfl

theorem Ends.platform_and_draws {s t : State} {i : Instr} (h : Ends s i t) :
    t.platform = s.platform ∧ t.draws = s.draws := by
  cases h <;> simp [setFlags_eq, setLogicFlags_eq]

/-- Settles O51: no shape touches the platform, and the step counts the draw. -/
theorem stepKeepsThePlatform : Obligations.StepKeepsThePlatform := by
  intro s t h
  obtain ⟨i, u, -, hends, rfl⟩ := step_ends h
  obtain ⟨hplat, hdraws⟩ := hends.platform_and_draws
  exact ⟨hplat, congrArg (· + 1) hdraws⟩

/-- Only U2K changes the level, to privileged (R227). -/
theorem Ends.pl_eq {s t : State} {i : Instr} (h : Ends s i t) : t.pl = if i = .u2k then .privileged else s.pl := by
  have sized (w : Width) (body : Sized) : Instr.ofSized w body ≠ .u2k := by
    intro h
    simpa [h, sizedOf] using sizedOf_ofSized w body
  cases h with
  | enter => rfl
  | jump _ _ _ _ hu2k => rw [if_neg hu2k]; rfl
  | call => rfl
  | deliver | logic | compare | store => simp [sized, setFlags_eq, setLogicFlags_eq]

/-- Settles O52: the level after a step is the level before it, but for U2K. -/
theorem privilegeIsNeverLowered : Obligations.PrivilegeIsNeverLowered := by
  intro s t h
  obtain ⟨i, u, hfetch, hends, rfl⟩ := step_ends h
  rw [State.tick_pl, hends.pl_eq, hfetch, Except.ok.injEq]
  by_cases hi : i = .u2k
  · simp [hi]
  · rw [if_neg hi]
    exact ⟨id, fun hp => iff_of_false (by simp [hp]) hi⟩

/-! ### Memory -/

/-- Memory after an instruction: bytes stored in `PHYS_MEM` by one that writes memory, or as before. -/
theorem Ends.mem_eq {s t : State} {i : Instr} (h : Ends s i t) :
    t.mem = s.mem ∨ writesMemory i = true ∧ ∃ pas vs, (∀ pa ∈ pas, s.inPhysMem pa = true) ∧ t.mem = s.mem.storeAll pas vs := by
  cases h with
  | store w body pas vs a hwrites hin =>
    exact .inr ⟨(writesMemory_ofSized w body).trans hwrites, pas, vs, hin, rfl⟩
  | call _ pas vs _ _ hin => exact .inr ⟨rfl, pas, vs, hin, rfl⟩
  | enter pas vs _ _ hin => exact .inr ⟨rfl, pas, vs, hin, rfl⟩
  | deliver | logic | compare | jump => exact .inl (by simp [setFlags_eq, setLogicFlags_eq])

/-- Settles O56: the counted draw matters to device bytes only. -/
theorem onlyStoringInstructionsChangeMemory : Obligations.OnlyStoringInstructionsChangeMemory := by
  intro s t i hfetch hwrites h ev pa hmmio
  obtain ⟨u, hends, rfl⟩ := step_ends_of_fetch hfetch h
  have hmem : u.mem = s.mem := hends.mem_eq.resolve_right (by simp [hwrites])
  have hmmio' : u.tick.inMmio pa = false := by
    rw [State.inMmio, State.tick_platform, hends.platform_and_draws.1]
    exact hmmio
  rw [State.physByte, State.physByte, hmmio, hmmio', State.tick_mem, hmem]
  rfl

/-! ### The invariant -/

/-- Storing a byte adds no listed address but its own. -/
theorem mem_store {m : Memory} {pa : Nat} {v : Byte} {c : Host.Cell} (h : c ∈ Memory.store m pa v) : c ∈ m ∨ c = (pa, v) := by
  induction m with
  | nil => exact .inr (by simpa [Memory.store] using h)
  | cons c' m ih =>
    obtain ⟨a, b⟩ := c'
    simp only [Memory.store] at h
    split_ifs at h
    · simp only [List.mem_cons] at h ⊢
      tauto
    · simp only [List.mem_cons] at h ⊢
      tauto
    · simp only [List.mem_cons] at h ⊢
      obtain rfl | h := h
      · exact .inl (.inl rfl)
      · exact (ih h).imp_left .inr

/-- Storing bytes adds only the addresses stored to. -/
theorem mem_storeAll {m : Memory} {pas : List Word} {vs : List Byte} {c : Host.Cell} (h : c ∈ Memory.storeAll m pas vs) :
    c ∈ m ∨ ∃ pa ∈ pas, c.1 = pa.toNat := by
  induction pas generalizing m vs with
  | nil => exact .inl (by simpa [Memory.storeAll] using h)
  | cons q pas ih =>
    cases vs with
    | nil => exact .inl (by simpa [Memory.storeAll] using h)
    | cons v vs =>
      obtain h | ⟨pa, hpa, hc⟩ := ih h
      · obtain h | rfl := mem_store h
        · exact .inl h
        · exact .inr ⟨q, by simp, rfl⟩
      · exact .inr ⟨pa, by simp [hpa], hc⟩

theorem memInPhys_iff {s : State} :
    s.memInPhys = true ↔ ∀ c ∈ s.mem, (s.platform.physMem.any fun r => r.contains c.1) = true :=
  List.all_eq_true

theorem inv_iff {s : State} : s.inv = true ↔ s.mem.wf = true ∧ s.memInPhys = true ∧ s.clr.toNat % 16 ≤ 13 := by
  rw [State.inv, Bool.and_eq_true, Bool.and_eq_true, State.legalLevel, decide_eq_true_iff, pglOf_eq, and_assoc]

/-- Every instruction that ends well leaves a legal paging level in CLR (R34). -/
theorem Ends.clr_level {s t : State} {i : Instr} (h : Ends s i t) (hs : s.clr.toNat % 16 ≤ 13) :
    t.clr.toNat % 16 ≤ 13 := by
  cases h with
  | deliver w body o d v a _ _ hclr =>
    rw [State.advanceUnlessIp_clr]
    exact writeAt_clr_level hclr hs
  | logic w body o d res _ _ _ hclr =>
    rw [State.advanceUnlessIp_clr]
    exact writeAt_clr_level hclr hs
  | compare | store | jump | call | enter => exact hs

/-- Every instruction that ends well keeps memory in its canonical form and inside `PHYS_MEM` (R52). -/
theorem Ends.mem_inv {s t : State} {i : Instr} (h : Ends s i t) (hwf : s.mem.wf = true) (hin : s.memInPhys = true) :
    t.mem.wf = true ∧ t.memInPhys = true := by
  rw [memInPhys_iff] at hin ⊢
  rw [h.platform_and_draws.1]
  obtain hmem | ⟨-, pas, vs, hpas, hmem⟩ := h.mem_eq
  · rw [hmem]
    exact ⟨hwf, hin⟩
  · rw [hmem]
    refine ⟨Memory.wf_storeAll _ pas vs hwf, fun c hc => ?_⟩
    obtain hc | ⟨pa, hpa, hc⟩ := mem_storeAll hc
    · exact hin c hc
    · rw [hc]
      exact hpas pa hpa

/-- Settles O50: the parts of the invariant, each kept by every shape. -/
theorem stepKeepsTheInvariant : Obligations.StepKeepsTheInvariant := by
  intro s t hinv h
  obtain ⟨hwf, hin, hlevel⟩ := inv_iff.mp hinv
  obtain ⟨i, u, -, hends, rfl⟩ := step_ends h
  obtain ⟨hwf', hin'⟩ := hends.mem_inv hwf hin
  exact inv_iff.mpr ⟨hwf', hin', hends.clr_level hlevel⟩

/-! ### FLAGS and the protected registers -/

/-- FLAGS[127:3] change only in a destination that is FLAGS (R161). -/
theorem Ends.flags_upper {s t : State} {i : Instr} (h : Ends s i t)
    (hdest : ∀ w body o d, sizedOf i = some (w, body) → destinationOf body = some o → reg s o = .ok d → d ≠ .flags)
    {n : Nat} (hn : 3 ≤ n) : t.flags.getLsbD n = s.flags.getLsbD n := by
  cases h with
  | deliver w body o d v a ho hreg =>
    rw [State.advanceUnlessIp_flags, writeAt_flags (hdest w body o d (sizedOf_ofSized w body) ho hreg)]
    rfl
  | logic w body o d res _ ho hreg =>
    rw [State.advanceUnlessIp_flags, setLogicFlags_eq, State.withFlags_flags, flagsWith_upper _ _ _ _ hn,
      writeAt_flags (hdest w body o d (sizedOf_ofSized w body) ho hreg)]
  | compare => exact flagsWith_upper _ _ _ _ hn
  | store | jump | call | enter => rfl

/-- Settles O55: of the shapes, only the flag rule and a destination write change FLAGS. -/
theorem onlyTheAluAndPrivilegedWritesChangeFlags : Obligations.OnlyTheAluAndPrivilegedWritesChangeFlags := by
  intro s t i hfetch h
  obtain ⟨u, hends, rfl⟩ := step_ends_of_fetch hfetch h
  refine ⟨fun hne => ?changed, fun hdest n hn => hends.flags_upper (fun w body o d hi ho hreg => ?kept) hn⟩
  case kept =>
    rintro rfl
    obtain rfl := (reg_eq_ok.mp hreg).1
    exact hdest w body hi ho
  rw [State.tick_flags] at hne
  cases hends with
  | deliver w body o d v a ho hreg =>
    have hd : d = .flags := by
      by_contra hd
      exact hne (by rw [State.advanceUnlessIp_flags, writeAt_flags hd]; rfl)
    subst hd
    obtain ⟨rfl, hopen, -⟩ := reg_eq_ok.mp hreg
    refine ⟨w, body, sizedOf_ofSized w body, .inr ⟨?_, ho⟩⟩
    cases hp : s.pl with
    | privileged => rfl
    | unprivileged => exact absurd ⟨hp, rfl⟩ hopen
  | logic w body o d res _ _ _ _ hset => exact ⟨w, body, sizedOf_ofSized w body, .inl hset⟩
  | compare w body _ _ hset => exact ⟨w, body, sizedOf_ofSized w body, .inl hset⟩
  | store | jump | call | enter => exact absurd rfl hne

/-- A register that an unprivileged program can name is none of SP, IP, PTP and FLAGS (R40). -/
theorem reg_unprivileged_ne {s : State} {o : RegOperand} {d : Reg} (hp : s.pl = .unprivileged) (h : reg s o = .ok d) :
    d ≠ .sp ∧ d ≠ .ip ∧ d ≠ .ptp ∧ d ≠ .flags := by
  obtain ⟨k, rfl⟩ | rfl := reg_unprivileged hp h <;> simp

theorem Ends.ptp_eq {s t : State} {i : Instr} (h : Ends s i t) (hp : s.pl = .unprivileged) : t.ptp = s.ptp := by
  cases h with
  | deliver w body o d v a _ hreg =>
    rw [State.advanceUnlessIp_ptp, writeAt_ptp (reg_unprivileged_ne hp hreg).2.2.1]
    rfl
  | logic w body o d res _ _ hreg =>
    rw [State.advanceUnlessIp_ptp]
    exact writeAt_ptp (reg_unprivileged_ne hp hreg).2.2.1
  | compare | store | jump | call | enter => rfl

/-- An unprivileged instruction with operands of a width moves IP past itself, and SP only as PUSH and POP do. -/
theorem Ends.ip_and_sp {i : Instr} {w : Width} {body : Sized} {s t : State} (h : Ends s i t)
    (hi : sizedOf i = some (w, body)) (hp : s.pl = .unprivileged) :
    t.ip = s.ip + BitVec.ofNat 128 i.length ∧ ((∀ o, body ≠ .push o) → (∀ o, body ≠ .pop o) → t.sp = s.sp) := by
  have parts {w' : Width} {body' : Sized} (h : sizedOf (.ofSized w' body') = some (w, body)) : body' = body := by
    rw [sizedOf_ofSized] at h
    cases h
    rfl
  cases h with
  | deliver w' body' o d v a _ hreg _ hsp =>
    obtain rfl := parts hi
    obtain ⟨hsp', hip, -⟩ := reg_unprivileged_ne hp hreg
    refine ⟨?_, fun _ hpop => ?_⟩
    · rw [State.advanceUnlessIp_ip, if_neg hip, writeAt_ip hip, length_ofSized]
      rfl
    · rw [State.advanceUnlessIp_sp, writeAt_sp hsp']
      exact hsp.resolve_right fun ⟨o, ho⟩ => hpop o ho
  | logic w' body' o d res _ _ hreg =>
    obtain ⟨hsp', hip, -⟩ := reg_unprivileged_ne hp hreg
    refine ⟨?_, fun _ _ => ?_⟩
    · rw [State.advanceUnlessIp_ip, if_neg hip, length_ofSized]
      exact congrArg (· + _) (writeAt_ip hip)
    · rw [State.advanceUnlessIp_sp]
      exact writeAt_sp hsp'
  | compare => exact ⟨by rw [length_ofSized]; rfl, fun _ _ => rfl⟩
  | store w' body' pas vs a _ _ hsp =>
    obtain rfl := parts hi
    exact ⟨by rw [length_ofSized]; rfl, fun hpush _ => hsp.resolve_right fun ⟨o, ho⟩ => hpush o ho⟩
  | jump _ _ _ hnone =>
    rw [hnone] at hi
    cases hi
  | call | enter => cases hi

/-- Settles O54: PTP and FLAGS are no destination at the unprivileged level, and neither are SP and IP. -/
theorem unprivilegedStepProtectsTheRegisters : Obligations.UnprivilegedStepProtectsTheRegisters := by
  intro s t i hp hfetch h
  obtain ⟨u, hends, rfl⟩ := step_ends_of_fetch hfetch h
  refine ⟨hends.ptp_eq hp, fun n hn => ?flags, fun w body hi => hends.ip_and_sp hi hp⟩
  case flags => exact hends.flags_upper (fun _ _ _ _ _ _ hreg => (reg_unprivileged_ne hp hreg).2.2.2) hn

end Sys2Proof.Invariants
end

section
/-! Which parts of the state a step observes: two states that agree on them take the same step. From this follow that EADDR and
TEMP are never observed (R36, R37), that PTP is not while paging is off (R61), that the privilege levels differ in #UPE and #UPP
only (R226), and that a jump to itself is fetched again and again (R247). -/

namespace Sys2Proof.Observation

open Sys2Proof Sys2Proof.Machine Sys2Proof.Encoding Sys2Proof.Memory Sys2Proof.Execution Sys2Proof.Arithmetic Sys2Proof.Stops
  Sys2Proof.Invariants

/-! ### Two computations that agree -/

/-- `Agree E ρ x x'`: `x` and `x'` end with the same fault or with results related by `ρ`, unless `x` ends with a fault of
`E`. -/
inductive Agree {α : Type} (E : Fault → Prop) (ρ : α → α → Prop) : Except Fault α → Except Fault α → Prop where
  | escape {f : Fault} {x' : Except Fault α} (h : E f) : Agree E ρ (.error f) x'
  | fault (f : Fault) : Agree E ρ (.error f) (.error f)
  | ok {a a' : α} (h : ρ a a') : Agree E ρ (.ok a) (.ok a')

theorem Agree.of_eq {α : Type} {E : Fault → Prop} {x x' : Except Fault α} (h : x' = x) : Agree E Eq x x' := by
  subst h
  cases x' with
  | error f => exact .fault f
  | ok a => exact .ok rfl

theorem Agree.bind {α β : Type} {E : Fault → Prop} {ρ : α → α → Prop} {ρ' : β → β → Prop} {x x' : Except Fault α}
    {k k' : α → Except Fault β} (hx : Agree E ρ x x')
    (hk : ∀ a a', x = .ok a → ρ a a' → Agree E ρ' (k a) (k' a')) : Agree E ρ' (x >>= k) (x' >>= k') := by
  cases hx with
  | escape h => exact .escape h
  | fault f => exact .fault f
  | ok h => exact hk _ _ rfl h

/-- A sequence whose first parts answer the same value. -/
theorem Agree.bind_eq {α β : Type} {E : Fault → Prop} {ρ' : β → β → Prop} {x x' : Except Fault α}
    {k k' : α → Except Fault β} (hx : Agree E Eq x x') (hk : ∀ a, x = .ok a → Agree E ρ' (k a) (k' a)) :
    Agree E ρ' (x >>= k) (x' >>= k') :=
  hx.bind fun a _ ha h => h ▸ hk a ha

/-- With no fault to escape, agreement is equality. -/
theorem Agree.eq {α : Type} {x x' : Except Fault α} (h : Agree (fun _ => False) Eq x x') : x' = x := by
  cases h with
  | escape h => exact h.elim
  | fault f => rfl
  | ok h => rw [h]

/-! ### Memory as an instruction observes it -/

/-- Two states whose memory looks the same: every byte, `PHYS_MEM` and the paging, the privilege level up to faults of `E`. -/
structure SameMemory (E : Fault → Prop) (s s' : State) : Prop where
  clr : s'.clr = s.clr
  ptp : pglOf s.clr ≠ 0 → s'.ptp = s.ptp
  platform : s'.platform = s.platform
  byte : s'.physByte = s.physByte
  entry : ∀ e acc va, (∃ f, E f ∧ entryFault e acc s.pl va = some f) ∨
    entryFault e acc s'.pl va = entryFault e acc s.pl va

section
variable {E : Fault → Prop} {s s' : State} (h : SameMemory E s s')
include h

theorem SameMemory.physRead (ev : ReadEvent) (pa : Word) (n : Nat) :
    Machine.physRead s' ev pa n = Machine.physRead s ev pa n := by
  simp only [Machine.physRead, h.byte, State.inPhysMem_congr h.platform]

theorem SameMemory.walk (acc : Access) (k : Nat) (va : Word) (m : Nat) (base : Word) :
    Agree E Eq (walk s acc k va m base) (walk s' acc k va m base) := by
  induction m generalizing base with
  | zero => exact .ok rfl
  | succ m ih =>
    rw [walk_succ, walk_succ, h.physRead]
    split
    · exact .fault _
    · rename_i e _
      obtain ⟨f, hf, hescape⟩ | hsame := h.entry e acc va
      · rw [hescape]
        exact .escape hf
      · rw [hsame]
        split
        · exact .fault _
        · exact ih (entryTarget e)

theorem SameMemory.translateByte (acc : Access) (k : Nat) (va : Word) :
    Agree E Eq (translateByte s acc k va) (translateByte s' acc k va) := by
  rw [translateByte_eq, translateByte_eq, h.clr]
  split_ifs with h0
  · exact .ok rfl
  · exact .fault _
  · rw [h.ptp h0]
    exact h.walk acc k va _ _
  · exact .fault _

theorem SameMemory.translateRange (acc : Access) (k : Nat) (va : Word) (n : Nat) :
    Agree E Eq (translateRange s acc k va n) (translateRange s' acc k va n) := by
  induction n generalizing k va with
  | zero => exact .ok rfl
  | succ n ih =>
    exact (h.translateByte acc k va).bind_eq fun pa _ => (ih _ _).bind_eq fun pas _ => .ok rfl

theorem SameMemory.memRead (va : Word) (n : Nat) : Agree E Eq (memRead s va n) (memRead s' va n) := by
  refine (h.translateRange .read 0 va n).bind_eq fun pas _ => ?_
  rw [checkPhys_congr h.platform, physBytes_congr h.byte]
  exact .of_eq rfl

theorem SameMemory.fetchByte (hip : s'.ip = s.ip) (k : Nat) : Agree E Eq (fetchByte s k) (fetchByte s' k) := by
  rw [Machine.fetchByte, Machine.fetchByte, hip]
  refine (h.translateByte .exec k _).bind_eq fun pa _ => ?_
  rw [h.physRead]
  exact .of_eq rfl

theorem SameMemory.fetchBytes (hip : s'.ip = s.ip) (k n : Nat) : Agree E Eq (fetchBytes s k n) (fetchBytes s' k n) := by
  induction n generalizing k with
  | zero => exact .ok rfl
  | succ n ih => exact (h.fetchByte hip k).bind_eq fun b _ => (ih (k + 1)).bind_eq fun bs _ => .ok rfl

theorem SameMemory.fetchFrom (hip : s'.ip = s.ip) (w : Width) (k : Nat) (b : Byte) :
    Agree E Eq (fetchFrom s w k b) (fetchFrom s' w k b) := by
  unfold Machine.fetchFrom
  split
  · exact .fault _
  · exact (h.fetchBytes hip _ _).bind_eq fun bs _ => .ok rfl

/-- The same instruction is fetched. -/
theorem SameMemory.fetchInstr (hip : s'.ip = s.ip) : Agree E Eq (fetchInstr s) (fetchInstr s') := by
  refine (h.fetchByte hip 0).bind_eq fun b _ => ?_
  split
  · exact h.fetchFrom hip _ _ _
  · exact (h.fetchByte hip 1).bind_eq fun b' _ => h.fetchFrom hip _ _ _

end

/-! ### The self-jump -/

/-- With no device, the state after a jump to itself has the same memory. -/
theorem sameMemory_of_selfJump {s : State} (hmmio : s.platform.mmioRegions = []) :
    SameMemory (fun _ => False) s (s.jump s.ip).tick where
  clr := rfl
  ptp := fun _ => rfl
  platform := rfl
  byte := by
    funext ev pa
    have hdev : (s.jump s.ip).tick.inMmio pa = false := inMmio_of_no_device hmmio pa
    rw [State.physByte, State.physByte, hdev, inMmio_of_no_device hmmio pa]
    rfl
  entry := fun _ _ _ => .inr rfl

/-- Settles O59: after each step the same jump is fetched again. -/
theorem selfJumpRunsForEver : Obligations.SelfJumpRunsForEver := by
  intro s hat hmmio n
  induction n generalizing s with
  | zero => trivial
  | succ n ih =>
    have hstep : step s = .next (s.jump s.ip).tick := step_eq_next.mpr ⟨_, _, hat, rfl, rfl⟩
    have hat' : AtSelfJump (s.jump s.ip).tick := ((sameMemory_of_selfJump hmmio).fetchInstr rfl).eq.trans hat
    exact ⟨_, hstep, ih _ hat' hmmio⟩

/-! ### Instructions on two states that look the same -/

/-- Two states that an instruction cannot tell apart, but for a fault of `E`. -/
structure SameView (E : Fault → Prop) (s s' : State) : Prop extends SameMemory E s s' where
  operand : ∀ o, Agree E Eq (reg s o) (reg s' o)
  read : ∀ o r, reg s o = .ok r → s'.read r = s.read r
  sp : s'.sp = s.sp
  ip : s'.ip = s.ip
  flags : s'.flags = s.flags
  mem : s'.mem = s.mem
  draws : s'.draws = s.draws

/-- The end of every instruction takes `s'` to the image under `τ` of where it takes `s`. -/
structure Carries (τ : State → State) (s s' : State) : Prop where
  deliver : ∀ (a : Word) (w : Width) (o : RegOperand) (d : Reg) (v : Word) (len : Nat), reg s o = .ok d →
    ((s'.withSp a).writeAt w d v).advanceUnlessIp d len = τ (((s.withSp a).writeAt w d v).advanceUnlessIp d len)
  logic : ∀ (w : Width) (o : RegOperand) (d : Reg) (res : Word) (overflow : Bool) (len : Nat), reg s o = .ok d →
    ((s'.writeAt w d res).setLogicFlags w res overflow).advanceUnlessIp d len =
      τ (((s.writeAt w d res).setLogicFlags w res overflow).advanceUnlessIp d len)
  compare : ∀ (w : Width) (res : Word) (overflow : Bool) (len : Nat),
    ((s'.setFlags w res overflow).advance len).withTemp res = τ (((s.setFlags w res overflow).advance len).withTemp res)
  store : ∀ (m : Memory) (a : Word) (len : Nat),
    ((s'.withMem m).withSp a).advance len = τ (((s.withMem m).withSp a).advance len)
  jump : ∀ (m : Memory) (a x : Word), ((s'.withMem m).withSp a).jump x = τ (((s.withMem m).withSp a).jump x)
  enter : ∀ (m : Memory) (a x : Word),
    (((s'.withMem m).withSp a).withPl .privileged).jump x = τ ((((s.withMem m).withSp a).withPl .privileged).jump x)

section
variable {E : Fault → Prop} {τ : State → State} {s s' : State} (h : SameView E s s') (hτ : Carries τ s s')
include h

theorem SameView.readAt {o : RegOperand} {r : Reg} (hr : reg s o = .ok r) (w : Width) : readAt s' w r = readAt s w r := by
  rw [Machine.readAt, Machine.readAt, h.read o r hr]

theorem SameView.memWrite (va : Word) (n : Nat) (v : Word) :
    Agree E (fun t t' => ∃ m, t = s.withMem m ∧ t' = s'.withMem m) (memWrite s va n v) (memWrite s' va n v) := by
  refine (h.translateRange .write 0 va n).bind_eq fun pas _ => ?_
  rw [checkPhys_congr h.platform, h.mem]
  exact (Agree.of_eq rfl).bind_eq fun _ _ => .ok ⟨_, rfl, rfl⟩

theorem SameView.pushValue (n : Nat) (v : Word) :
    Agree E (fun t t' => ∃ m a, t = (s.withMem m).withSp a ∧ t' = (s'.withMem m).withSp a) (pushValue s n v)
      (pushValue s' n v) := by
  rw [Machine.pushValue, Machine.pushValue, h.sp]
  refine (h.memWrite _ n v).bind ?_
  rintro _ _ - ⟨m, rfl, rfl⟩
  exact .ok ⟨m, _, rfl, rfl⟩


/-- Writing to `s'` what `s` has leaves it as it is. -/
theorem SameView.withSp_sp : s'.withSp s.sp = s' := by rw [← h.sp]; rfl

theorem SameView.withMem_mem : s'.withMem s.mem = s' := by rw [← h.mem]; rfl

omit h in
include hτ in
/-- The check of a destination does not depend on what the register held. -/
theorem Carries.agree_deliver {o : RegOperand} {d : Reg} (hd : reg s o = .ok d) (a : Word) (w : Width) (v : Word) (len : Nat) :
    Agree E (fun t t' => t' = τ t) (Machine.deliver (s.withSp a) w d v len)
      (Machine.deliver (s'.withSp a) w d v len) := by
  have check : checkReserved (s'.withSp a) w d v = checkReserved (s.withSp a) w d v := rfl
  rw [Machine.deliver, Machine.deliver, check]
  exact (Agree.of_eq rfl).bind_eq fun _ _ => .ok (hτ.deliver a w o d v len hd)

include hτ in
/-- A load, from the address that its operands give. -/
theorem SameView.load {o : RegOperand} {d : Reg} (hd : reg s o = .ok d) (w : Width) (va : Word) (len : Nat) :
    Agree E (fun t t' => t' = τ t) (memRead s va w.bytes >>= fun v => Machine.deliver s w d v len)
      (memRead s' va w.bytes >>= fun v => Machine.deliver s' w d v len) :=
  (h.memRead va w.bytes).bind_eq fun v _ => by
    have hdeliver := hτ.agree_deliver (E := E) hd s.sp w v len
    rwa [h.withSp_sp] at hdeliver

end

/-- The outcomes of an instruction or a step on two states: that on the second is the image of that on the first, unless the
first ends with a fault of `E`. -/
inductive Follows (E : Fault → Prop) (τ : State → State) :
    Host.Outcome State Fault Refusal → Host.Outcome State Fault Refusal → Prop where
  | escape {f : Fault} {out : Host.Outcome State Fault Refusal} (h : E f) : Follows E τ (.fault f) out
  | fault (f : Fault) : Follows E τ (.fault f) (.fault f)
  | refused (r : Refusal) : Follows E τ (.refused r) (.refused r)
  | next (t : State) : Follows E τ (.next t) (.next (τ t))

theorem Agree.outcome {E : Fault → Prop} {τ : State → State} {x x' : Except Fault State}
    (h : Agree E (fun t t' => t' = τ t) x x') : Follows E τ (outcome x) (outcome x') := by
  cases h with
  | escape h => exact .escape h
  | fault f => exact .fault f
  | ok h =>
    subst h
    exact .next _

section
variable {E : Fault → Prop} {τ : State → State} {s s' : State} (h : SameView E s s') (hτ : Carries τ s s')
include h hτ

theorem follows_execSized (w : Width) (body : Sized) : Follows E τ (execSized w body s) (execSized w body s') := by
  cases body with
  | moveRegReg rd rs =>
    refine ((h.operand rd).bind_eq fun d hd => (h.operand rs).bind_eq fun r hr => ?_).outcome
    rw [h.readAt hr]
    have hdeliver := hτ.agree_deliver (E := E) hd s.sp w (readAt s w r) (lengthOf w .rr)
    rwa [h.withSp_sp] at hdeliver
  | moveRegMem rd addr =>
    exact ((h.operand rd).bind_eq fun d hd => h.load hτ hd w _ _).outcome
  | moveRegBaseImm rd rb imm =>
    refine ((h.operand rd).bind_eq fun d hd => (h.operand rb).bind_eq fun b hb => ?_).outcome
    rw [baseImmAddress, baseImmAddress, h.read rb b hb]
    exact h.load hτ hd w _ _
  | moveRegBaseIndex rd rb ri =>
    refine ((h.operand rd).bind_eq fun d hd => (h.operand rb).bind_eq fun b hb =>
      (h.operand ri).bind_eq fun i hi => ?_).outcome
    rw [baseIndexAddress, baseIndexAddress, h.read rb b hb, h.read ri i hi]
    exact h.load hτ hd w _ _
  | moveMemReg addr rs =>
    refine ((h.operand rs).bind_eq fun r hr => ?_).outcome
    rw [h.readAt hr]
    refine (h.memWrite _ _ _).bind ?_
    rintro _ _ - ⟨m, rfl, rfl⟩
    refine .ok ?_
    have hstore := hτ.store m s.sp (lengthOf w .mr)
    rwa [show (s'.withMem m).withSp s.sp = (s'.withSp s.sp).withMem m from rfl, h.withSp_sp] at hstore
  | push o =>
    refine ((h.operand o).bind_eq fun r hr => ?_).outcome
    rw [h.readAt hr]
    refine (h.pushValue _ _).bind ?_
    rintro _ _ - ⟨m, a, rfl, rfl⟩
    exact .ok (hτ.store m a _)
  | pop o =>
    refine ((h.operand o).bind_eq fun d hd => ?_).outcome
    rw [h.sp]
    exact (h.memRead _ _).bind_eq fun v _ => hτ.agree_deliver hd _ w v _
  | test oa ob =>
    refine ((h.operand oa).bind_eq fun a ha => (h.operand ob).bind_eq fun b hb => ?_).outcome
    rw [h.readAt ha, h.readAt hb]
    exact .ok (hτ.compare w _ _ _)
  | xor oa ob =>
    refine ((h.operand oa).bind_eq fun a ha => (h.operand ob).bind_eq fun b hb => ?_).outcome
    rw [h.readAt ha, h.readAt hb]
    exact (Agree.of_eq rfl).bind_eq fun _ _ => .ok (hτ.logic w oa a _ _ _ ha)
  | shl oa count =>
    refine ((h.operand oa).bind_eq fun a ha => ?_).outcome
    rw [h.readAt ha, h.draws]
    exact (Agree.of_eq rfl).bind_eq fun _ _ => .ok (hτ.logic w oa a _ _ _ ha)
  | comp oa imm =>
    refine ((h.operand oa).bind_eq fun a ha => ?_).outcome
    rw [h.readAt ha]
    exact .ok (hτ.compare w _ _ _)

/-- A jump that pushes and pops nothing. -/
theorem SameView.jump (x : Word) : s'.jump x = τ (s.jump x) := by
  have hjump := hτ.jump s.mem s.sp x
  rwa [h.withMem_mem, h.withSp_sp] at hjump

theorem SameView.jumpIf (taken : Bool) (x : Word) : jumpIf s' taken x = τ (jumpIf s taken x) := by
  cases taken
  · show s'.jump (s'.ip + 17) = τ (s.jump (s.ip + 17))
    rw [h.ip]
    exact h.jump hτ _
  · exact h.jump hτ x

theorem follows_exec (i : Instr) : Follows E τ (exec i s) (exec i s') := by
  cases i using cases_ofSized with
  | sized w body =>
    rw [exec_ofSized, exec_ofSized]
    exact follows_execSized h hτ w body
  | jie x =>
    show Follows E τ (.next (jumpIf s s.zf x)) (.next (jumpIf s' s'.zf x))
    rw [show s'.zf = s.zf by rw [State.zf, State.zf, h.flags], h.jumpIf hτ]
    exact .next _
  | jil x =>
    show Follows E τ (.next (jumpIf s (s.sf != s.of) x)) (.next (jumpIf s' (s'.sf != s'.of) x))
    rw [show s'.sf = s.sf by rw [State.sf, State.sf, h.flags], show s'.of = s.of by rw [State.of, State.of, h.flags],
      h.jumpIf hτ]
    exact .next _
  | jmp x =>
    show Follows E τ (.next (s.jump x)) (.next (s'.jump x))
    rw [h.jump hτ]
    exact .next _
  | jsr x =>
    refine Agree.outcome ?_
    rw [h.ip]
    refine (h.pushValue _ _).bind ?_
    rintro _ _ - ⟨m, a, rfl, rfl⟩
    exact .ok (hτ.jump m a x)
  | rfs =>
    refine Agree.outcome ?_
    rw [h.sp]
    refine (h.memRead _ _).bind_eq fun v _ => .ok ?_
    have hjump := hτ.jump s.mem (s.sp + 16) v
    rwa [h.withMem_mem] at hjump
  | u2k =>
    show Follows E τ (execU2k s) (execU2k s')
    rw [execU2k, execU2k, h.platform]
    split
    · exact .refused _
    · refine Agree.outcome ?_
      rw [h.ip]
      refine (h.pushValue _ _).bind ?_
      rintro _ _ - ⟨m, a, rfl, rfl⟩
      exact .ok (hτ.enter m a _)

/-- Two states that an instruction cannot tell apart take the same step. -/
theorem follows_step (htick : ∀ t, (τ t).tick = τ t.tick) : Follows E τ (step s) (step s') := by
  have hfetch := h.fetchInstr h.ip
  unfold step
  generalize fetchInstr s = x at hfetch ⊢
  generalize fetchInstr s' = x' at hfetch ⊢
  cases hfetch with
  | escape hf => exact .escape hf
  | fault f => exact .fault f
  | ok hi =>
    rename_i i i'
    subst hi
    have hexec := follows_exec h hτ i
    dsimp only
    generalize exec i s = y at hexec ⊢
    generalize exec i s' = y' at hexec ⊢
    cases hexec with
    | escape hf => exact .escape hf
    | fault f => exact .fault f
    | refused r => exact .refused r
    | next t =>
      dsimp only
      rw [htick]
      exact .next _

end

/-! ### EADDR and TEMP -/

theorem sameView_withEaddr_withTemp (s : State) (x y : Word) :
    SameView (fun _ => False) s ((s.withEaddr x).withTemp y) where
  clr := rfl
  ptp := fun _ => rfl
  platform := rfl
  byte := rfl
  entry := fun _ _ _ => .inr rfl
  operand := fun o => .of_eq (reg_congr rfl o)
  read := fun o r hr => by
    obtain ⟨h1, h2⟩ := reg_ok_visible hr
    rw [read_withTemp _ _ h2]
    exact State.read_write_other (r := .eaddr) s x h1
  sp := rfl
  ip := rfl
  flags := rfl
  mem := rfl
  draws := rfl

/-- Every instruction that ends well writes EADDR and TEMP anew. -/
theorem carries_withEaddr_withTemp (s : State) (x y : Word) : Carries id s ((s.withEaddr x).withTemp y) where
  deliver := fun a w o d v len hd => by
    obtain ⟨h1, h2⟩ := reg_ok_visible hd
    cases d with
    | eaddr => exact absurd rfl h1
    | temp => exact absurd rfl h2
    | _ => rfl
  logic := fun w o d res overflow len hd => by
    obtain ⟨h1, h2⟩ := reg_ok_visible hd
    cases d with
    | eaddr => exact absurd rfl h1
    | temp => exact absurd rfl h2
    | _ => rfl
  compare := fun _ _ _ _ => rfl
  store := fun _ _ _ => rfl
  jump := fun _ _ _ => rfl
  enter := fun _ _ _ => rfl

/-- Settles O57: no operand names EADDR or TEMP, and the end of an instruction writes both. -/
theorem hiddenRegistersAreNotObserved : Obligations.HiddenRegistersAreNotObserved := by
  intro s x y
  have hstep := follows_step (sameView_withEaddr_withTemp s x y) (carries_withEaddr_withTemp s x y) (fun _ => rfl)
  generalize step s = out at hstep ⊢
  generalize step ((s.withEaddr x).withTemp y) = out' at hstep ⊢
  cases hstep with
  | escape h => exact h.elim
  | fault | refused | next => rfl

/-! ### PTP while paging is off -/

theorem sameView_withPtp {s : State} (hl : s.clr.toNat % 16 = 0) (hp : s.pl = .unprivileged) (v : Word) :
    SameView (fun _ => False) s (s.withPtp v) where
  clr := rfl
  ptp := fun h => absurd ((pglOf_eq s.clr).trans hl) h
  platform := rfl
  byte := rfl
  entry := fun _ _ _ => .inr rfl
  operand := fun o => .of_eq (reg_congr rfl o)
  read := fun _ _ hr => State.read_write_other (r := .ptp) s v (reg_unprivileged_ne hp hr).2.2.1
  sp := rfl
  ip := rfl
  flags := rfl
  mem := rfl
  draws := rfl

/-- No unprivileged instruction has PTP as its destination. -/
theorem carries_withPtp {s : State} (hp : s.pl = .unprivileged) (v : Word) : Carries (·.withPtp v) s (s.withPtp v) where
  deliver := fun a w o d _ len hd => by
    cases d with
    | ptp => exact absurd rfl (reg_unprivileged_ne hp hd).2.2.1
    | _ => rfl
  logic := fun w o d res overflow len hd => by
    cases d with
    | ptp => exact absurd rfl (reg_unprivileged_ne hp hd).2.2.1
    | _ => rfl
  compare := fun _ _ _ _ => rfl
  store := fun _ _ _ => rfl
  jump := fun _ _ _ => rfl
  enter := fun _ _ _ => rfl

/-- Settles O58: with paging off no walk starts at PTP, and no unprivileged operand names it. -/
theorem ptpHasNoEffectAtLevelZero : Obligations.PtpHasNoEffectAtLevelZero := by
  intro s v hl hp
  have hstep := follows_step (sameView_withPtp hl hp v) (carries_withPtp hp v) (fun _ => rfl)
  generalize step s = out at hstep ⊢
  generalize step (s.withPtp v) = out' at hstep ⊢
  cases hstep with
  | escape h => exact h.elim
  | fault | refused | next => rfl

/-! ### The privilege level -/

/-- The two interrupts that only an unprivileged program meets (R226). -/
def LevelFault (f : Fault) : Prop := (∃ r, f = .upe r) ∨ ∃ va, f = .upp va

theorem agree_reg_withPl {s : State} (hp : s.pl = .unprivileged) (o : RegOperand) :
    Agree LevelFault Eq (reg s o) (reg (s.withPl .privileged) o) := by
  cases o with
  | unassigned b => exact .fault _
  | named r =>
    by_cases hr : closedToUnprivileged r = true
    · rw [reg_of_closed hp hr]
      exact .escape (.inl ⟨r, rfl⟩)
    · exact .of_eq (by simp [reg, hr])

/-- The level is looked at by the fourth check of an entry alone (R68). -/
theorem entryFault_levels (e : Word) (acc : Access) (va : Word) :
    (∃ f, LevelFault f ∧ entryFault e acc .unprivileged va = some f) ∨
      entryFault e acc .privileged va = entryFault e acc .unprivileged va := by
  rw [entryFault_eq, entryFault_eq]
  by_cases hpvp : e.getLsbD 3 = true
  · simp only [hpvp, true_and, reduceCtorEq, if_false, if_true]
    split_ifs
    · exact .inr rfl
    · exact .inr rfl
    · exact .inr rfl
    · exact .inl ⟨_, .inr ⟨va, rfl⟩, rfl⟩
  · exact .inr (by simp only [hpvp, Bool.false_eq_true, false_and, if_false])

theorem sameView_withPl {s : State} (hp : s.pl = .unprivileged) : SameView LevelFault s (s.withPl .privileged) where
  clr := rfl
  ptp := fun _ => rfl
  platform := rfl
  byte := rfl
  entry := fun e acc va => hp ▸ entryFault_levels e acc va
  operand := agree_reg_withPl hp
  read := fun o r _ => by cases r <;> rfl
  sp := rfl
  ip := rfl
  flags := rfl
  mem := rfl
  draws := rfl

theorem carries_withPl (s : State) : Carries (·.withPl .privileged) s (s.withPl .privileged) where
  deliver := fun a w o d v len _ => by cases d <;> rfl
  logic := fun w o d res overflow len _ => by cases d <;> rfl
  compare := fun _ _ _ _ => rfl
  store := fun _ _ _ => rfl
  jump := fun _ _ _ => rfl
  enter := fun _ _ _ => rfl

/-- Settles O53: the level is observed by the check of an operand and by the check of an entry. -/
theorem levelsDifferOnlyInUpeAndUpp : Obligations.LevelsDifferOnlyInUpeAndUpp := by
  intro s hp
  refine ⟨fun r hr => ?upe, fun e va acc hprs hrsv hnlt hpvp => ?upp, ?step⟩
  case upe =>
    have hclosed : closedToUnprivileged r = true := by
      simp only [List.mem_cons, List.not_mem_nil, or_false] at hr
      obtain rfl | rfl | rfl | rfl | rfl | rfl := hr <;> rfl
    exact reg_of_closed hp hclosed
  case upp => rw [entryFault_eq, if_neg (by simp [hprs]), if_neg (not_not.mpr hrsv), if_neg hnlt, if_pos ⟨hpvp, hp⟩]
  case step =>
    have hstep := follows_step (sameView_withPl hp) (carries_withPl s) (fun _ => rfl)
    generalize step s = out at hstep ⊢
    generalize step (s.withPl .privileged) = out' at hstep ⊢
    cases hstep with
    | escape h =>
      obtain ⟨r, rfl⟩ | ⟨va, rfl⟩ := h
      · exact .inl ⟨r, rfl⟩
      · exact .inr (.inl ⟨va, rfl⟩)
    | fault | refused => exact .inr (.inr rfl)
    | next t => exact .inr (.inr ⟨t, rfl, rfl⟩)

end Sys2Proof.Observation
end
